-- ==== Sys2Proof/Word.lean ====
section
/-! DEFINITION. The widths of the block's values (00_scope.md R7). Bits are numbered from 0 at the least
significant end (R8). -/

namespace Sys2Proof

/-- 8 bits: a channel id, a register number, an event mask, a channel mask (R7). -/
abbrev Byte := BitVec 8

/-- 16 bits: a tick offset, a compare register, a level operand (R7). -/
abbrev Half := BitVec 16

/-- 32 bits: a time stamp, a frequency in millihertz, a Q16.16 level, register data (R7). -/
abbrev Word := BitVec 32

/-- 64 bits: the command word `CMD[63:0]` (R80). -/
abbrev CmdWord := BitVec 64

end Sys2Proof
end

