-- ==== Sys2Proof/Config.lean ====
section
/-! DEFINITION. What an implementation fixes (the parameters of 00_scope.md R6), the port samples of one tick
(R10, R11), and the free values: constants without a body, about which nothing can be proved. -/

namespace Sys2Proof

/-- The parameter `eng_sched` of R6: when the engine's two steps run (43_fading_engine.md R182, R183). -/
inductive EngSched where
  /-- Both steps run as soon as their state is reached (R183). -/
  | eager
  /-- Each step waits for its input, `calc_go` or `pub_go` (R182). -/
  | free
  deriving DecidableEq, Repr, Inhabited

/-- The parameter `rescale` of R6 (42_channel_timing.md R152): the restricted-range mapping. -/
inductive Rescale where
  /-- The mapping R152 writes out. -/
  | rule152
  /-- Another mapping of the implementation: total, in range and non-decreasing, otherwise free
  (DESIGN CHOICE, notes/assumptions/4.md). -/
  | other
  deriving DecidableEq, Repr, Inhabited

/-- The implementation parameters of R6: fixed when the hardware is built, changed by no operation. -/
structure Params where
  /-- `NCH`, the number of channels. -/
  nch : Nat
  /-- `LEVEL_MAX`, the level of a fully-on channel. -/
  levelMax : Nat
  /-- `F_TICK`, ticks per second. -/
  fTick : Nat
  /-- `F_MIN_MHZ`, the lowest plausible mains frequency, millihertz. -/
  fMinMhz : Nat
  /-- `F_MAX_MHZ`, the highest plausible mains frequency, millihertz. -/
  fMaxMhz : Nat
  /-- `MEAS_NSAMPLES`, the deltas collected in one measurement pass. -/
  measNSamples : Nat
  /-- `MEAS_MIN_VALID`, the least number of accepted deltas per stage. -/
  measMinValid : Nat
  /-- `MEAS_WARMUP`, the edges discarded at the start of a pass. -/
  measWarmup : Nat
  /-- `MEAS_TIMEOUT`, the ticks after which a pass fails. -/
  measTimeout : Nat
  /-- `MIN_LEAD`, the least number of ticks between re-arming compare B and its match. -/
  minLead : Nat
  /-- `ZC_CORR`, ticks added to the zero-crossing delay. -/
  zcCorr : Nat
  /-- `ZC_POL_INV`: false, a 0-to-1 change of `ZC` is the edge; true, a 1-to-0 change. -/
  zcPolInv : Bool
  /-- `eng_sched`. -/
  engSched : EngSched
  /-- `rescale`. -/
  rescale : Rescale
  deriving DecidableEq, Repr, Inhabited

/-- The defaults of R6, which the test vectors of 95_test_vectors.md use. -/
def Params.default : Params where
  nch := 4
  levelMax := 8192
  fTick := 1000000
  fMinMhz := 48000
  fMaxMhz := 62000
  measNSamples := 20
  measMinValid := 10
  measWarmup := 3
  measTimeout := 499968
  minLead := 1
  zcCorr := 0
  zcPolInv := false
  engSched := .eager
  rescale := .rule152

/-- The legal ranges of R6, with its condition `T1_MAX <= 65535`, where
`T1_MAX = floor(F_TICK*1000 / (2*F_MIN_MHZ))`. -/
abbrev Params.Legal (p : Params) : Prop :=
  (1 ≤ p.nch ∧ p.nch ≤ 8) ∧
  (1 ≤ p.levelMax ∧ p.levelMax ≤ 32767) ∧
  (1 ≤ p.fTick ∧ p.fTick < 2 ^ 32) ∧
  (1 ≤ p.fMinMhz ∧ p.fMinMhz ≤ p.fMaxMhz ∧ p.fMaxMhz < 2 ^ 32) ∧
  (1 ≤ p.measNSamples ∧ p.measNSamples ≤ 64) ∧
  (1 ≤ p.measMinValid ∧ p.measMinValid ≤ p.measNSamples) ∧
  p.measWarmup ≤ 255 ∧
  (1 ≤ p.measTimeout ∧ p.measTimeout < 2 ^ 32) ∧
  (1 ≤ p.minLead ∧ p.minLead ≤ 255) ∧
  p.zcCorr ≤ 255 ∧
  p.fTick * 1000 / (2 * p.fMinMhz) ≤ 65535

/-- The port samples of one tick: `RST` and the inputs of `Tick(zc, cmd, calc_go, pub_go)` (R10, R11). -/
structure TickInput where
  /-- `RST` (70_reset_and_hazards.md R280). -/
  rst : Bool
  /-- `ZC`, already synchronised to `CLK_TICK`, before the polarity normalisation of R110. -/
  zc : Bool
  /-- `CMD` when `CMD_VALID` = 1, else none. -/
  cmd : Option CmdWord
  /-- `calc_go` (R182). -/
  calcGo : Bool
  /-- `pub_go` (R182). -/
  pubGo : Bool
  deriving DecidableEq, Repr, Inhabited

/-- The port samples of a tick about which the model was told nothing: the k-th such tick sees
`Config.freeInput k`, a FREE VALUE (DESIGN CHOICE, safe, notes/assumptions/2.md). -/
opaque Config.freeInput : Nat → TickInput

/-- The raw values behind a `rescale` other than that of R152: a FREE VALUE, applied to `LEVEL_MAX`,
`CFG_RANGE_BEGIN`, `CFG_RANGE_DIV` and the level (notes/assumptions/4.md). -/
opaque Config.rescaleRaw : Nat → Nat → Nat → Nat → Nat

/-- What the 32-bit register `FREQ` holds after a measurement whose result is 2^32 or more: a FREE VALUE, applied
to the result (notes/assumptions/5.md). -/
opaque Config.freqUnstated : Nat → Word

end Sys2Proof
end

