-- ==== Sys2Proof/Syntax.lean ====
section
/-! DEFINITION. The operations of the block: one constructor per row of spec/opcode_table.json (00_scope.md R9).
The operand fields are the bit fields of 30_encoding.md R81 to R85; Machine/Operands.lean reads them (R86). -/

namespace Sys2Proof

/-- The sixteen operations of R9: nine host commands and seven internal event operations. -/
inductive Instr where
  /-- `SETLVL ch, level` (R170). -/
  | setlvl (ch : Byte) (level : Half)
  /-- `FADE ch, from, to, dur` (R171). -/
  | fade (ch : Byte) (dur fromLvl toLvl : Half)
  /-- `FADEA ch, from, to, dur` (R172). -/
  | fadea (ch : Byte) (dur fromLvl toLvl : Half)
  /-- `SETMODE mode`, false trailing, true leading (R224). -/
  | setmode (mode : Bool)
  /-- `SETFREQ mhz` (R225). -/
  | setfreq (imm : Word)
  /-- `START` (R226). -/
  | start
  /-- `ACK mask` (R227). -/
  | ack (mask : Byte)
  /-- `WREG reg, value` (R229). -/
  | wreg (reg : Byte) (value : Word)
  /-- `RREG reg` (R230). -/
  | rreg (reg : Byte)
  /-- `TICK` (R130). -/
  | tick
  /-- `HW_START` (R131). -/
  | hwStart
  /-- `HW_TOGGLE` (R138). -/
  | hwToggle
  /-- `ZC_EDGE` (R111). -/
  | zcEdge
  /-- `MEAS_TIMEOUT` (R206). -/
  | measTimeout
  /-- `ENG_CALC` (R180). -/
  | engCalc
  /-- `ENG_PUBLISH` (R181). -/
  | engPublish
  deriving DecidableEq, Repr

/-- The bits that stand for an operation: a command word (R80) or an event code of the request vector `EVQ` (R95). -/
inductive Code where
  | cmd (w : CmdWord)
  | evt (e : Byte)
  deriving DecidableEq, Repr

end Sys2Proof
end

