-- ==== Sys2Proof/WellFormed.lean ====
section
/-! DEFINITION. Which operations are well formed. Every operand field of `Instr` has the width of its field in the
command word, so the one check left is the value of the channel field (30_encoding.md R88 (c), R175). An operation
that fails it is still executed: its meaning raises `EV_CMD_ERR`. -/

namespace Sys2Proof

/-- R88 (c): a channel field is legal when it is below `NCH` or is `0xFF` (`ALL`). -/
def chLegal (nch : Nat) (ch : Byte) : Bool :=
  decide (ch.toNat < nch) || ch == 0xFF#8

/-- An operation is well formed for a block with these parameters. -/
def Instr.wellFormed (p : Params) : Instr → Bool
  | .setlvl ch _ => chLegal p.nch ch
  | .fade ch _ _ _ => chLegal p.nch ch
  | .fadea ch _ _ _ => chLegal p.nch ch
  | .setmode _ => true
  | .setfreq _ => true
  | .start => true
  | .ack _ => true
  | .wreg _ _ => true
  | .rreg _ => true
  | .tick => true
  | .hwStart => true
  | .hwToggle => true
  | .zcEdge => true
  | .measTimeout => true
  | .engCalc => true
  | .engPublish => true

end Sys2Proof
end

