-- ==== Sys2Proof/Decode.lean ====
section
/-! DEFINITION. Decoding and encoding (30_encoding.md R80 to R89, R95). Decoding is total (R89): a word that is no
command is refused by the name of the check it fails. After it, the encoder, written from the same formats. -/

namespace Sys2Proof

/-- Why a word is no operation. An illegal command word stops nothing: slot 8 of the tick raises `EV_CMD_ERR`
(R88, R257). -/
inductive Illegal where
  /-- R88 (a): the opcode is not one of the nine of R87. -/
  | unknownOpcode
  /-- R88 (b): a must-be-zero bit of the format is 1. -/
  | reservedBits
  /-- No operation has this event code (R95). Event codes come on no port, so no tick meets this one. -/
  | unknownEvent
  deriving DecidableEq, Repr

/-- The opcode field `op`, bits 63:56 (R80). -/
def opcodeOf (w : CmdWord) : Byte := w.extractLsb' 56 8

/-- The fields `ch` and `reg`, bits 55:48 (R82, R83, R85). -/
def field55 (w : CmdWord) : Byte := w.extractLsb' 48 8

/-- The field `dur`, bits 47:32 (R83). -/
def field47 (w : CmdWord) : Half := w.extractLsb' 32 16

/-- The field `from`, bits 31:16 (R83). -/
def field31 (w : CmdWord) : Half := w.extractLsb' 16 16

/-- The fields `level` and `to`, bits 15:0 (R82, R83). -/
def field15 (w : CmdWord) : Half := w.extractLsb' 0 16

/-- The fields `imm` and `value`, bits 31:0 (R84, R85). -/
def low32 (w : CmdWord) : Word := w.extractLsb' 0 32

/-- The operand of `ACK`, `imm[7:0]` (R84). -/
def low8 (w : CmdWord) : Byte := w.extractLsb' 0 8

/-- The match/mask test of R87: `w & mask = match`. -/
def passes (w mask pattern : CmdWord) : Bool := (w &&& mask) == pattern

/-- The second step of R89: the operation, if the word passes the mask of its row. -/
def checked (w mask pattern : CmdWord) (i : Instr) : Except Illegal Instr :=
  if passes w mask pattern then .ok i else .error .reservedBits

/-- Decoding of a command word (R89): read `op`, then apply the mask of R87. The value checks (R88 (c), and those of
`WREG`, `RREG`, `SETFREQ`, `START`) belong to the operation's own rule. -/
def decodeCmd (w : CmdWord) : Except Illegal Instr :=
  match (opcodeOf w).toNat with
  | 0x01 => checked w 0xFF00FFFFFFFF0000#64 0x0100000000000000#64 (.setlvl (field55 w) (field15 w))
  | 0x02 => checked w 0xFF00000000000000#64 0x0200000000000000#64
      (.fade (field55 w) (field47 w) (field31 w) (field15 w))
  | 0x03 => checked w 0xFF00000000000000#64 0x0300000000000000#64
      (.fadea (field55 w) (field47 w) (field31 w) (field15 w))
  | 0x04 => checked w 0xFFFFFFFFFFFFFFFE#64 0x0400000000000000#64 (.setmode (w.getLsbD 0))
  | 0x05 => checked w 0xFFFFFFFF00000000#64 0x0500000000000000#64 (.setfreq (low32 w))
  | 0x06 => checked w 0xFFFFFFFFFFFFFFFF#64 0x0600000000000000#64 .start
  | 0x07 => checked w 0xFFFFFFFFFFFFFF00#64 0x0700000000000000#64 (.ack (low8 w))
  | 0x08 => checked w 0xFF00FFFF00000000#64 0x0800000000000000#64 (.wreg (field55 w) (low32 w))
  | 0x09 => checked w 0xFF00FFFFFFFFFFFF#64 0x0900000000000000#64 (.rreg (field55 w))
  | _ => .error .unknownOpcode

/-- The operation an event code of `EVQ` stands for (R95). -/
def decodeEvent (e : Byte) : Except Illegal Instr :=
  match e.toNat with
  | 0x01 => .ok .tick
  | 0x02 => .ok .hwStart
  | 0x04 => .ok .hwToggle
  | 0x08 => .ok .zcEdge
  | 0x10 => .ok .measTimeout
  | 0x20 => .ok .engCalc
  | 0x40 => .ok .engPublish
  | _ => .error .unknownEvent

/-- Decoding of either kind of code. -/
def decode : Code → Except Illegal Instr
  | .cmd w => decodeCmd w
  | .evt e => decodeEvent e

/-- Format `C0` (R81). -/
def formatC0 (op : Byte) : CmdWord := op ++ 0#56

/-- Format `CL` (R82). -/
def formatCL (op ch : Byte) (level : Half) : CmdWord := op ++ ch ++ 0#32 ++ level

/-- Format `CF` (R83). -/
def formatCF (op ch : Byte) (dur fromLvl toLvl : Half) : CmdWord := op ++ ch ++ dur ++ fromLvl ++ toLvl

/-- Format `CI` (R84). -/
def formatCI (op : Byte) (imm : Word) : CmdWord := op ++ 0#24 ++ imm

/-- Format `CR` (R85). -/
def formatCR (op reg : Byte) (value : Word) : CmdWord := op ++ reg ++ 0#16 ++ value

/-- The encoder: the command word (R81 to R87) or the event code (R95) of an operation. -/
def encode : Instr → Code
  | .setlvl ch level => .cmd (formatCL 0x01#8 ch level)
  | .fade ch dur fromLvl toLvl => .cmd (formatCF 0x02#8 ch dur fromLvl toLvl)
  | .fadea ch dur fromLvl toLvl => .cmd (formatCF 0x03#8 ch dur fromLvl toLvl)
  | .setmode mode => .cmd (formatCI 0x04#8 (0#31 ++ BitVec.ofBool mode))
  | .setfreq imm => .cmd (formatCI 0x05#8 imm)
  | .start => .cmd (formatC0 0x06#8)
  | .ack mask => .cmd (formatCI 0x07#8 (0#24 ++ mask))
  | .wreg reg value => .cmd (formatCR 0x08#8 reg value)
  | .rreg reg => .cmd (formatCR 0x09#8 reg 0#32)
  | .tick => .evt 0x01#8
  | .hwStart => .evt 0x02#8
  | .hwToggle => .evt 0x04#8
  | .zcEdge => .evt 0x08#8
  | .measTimeout => .evt 0x10#8
  | .engCalc => .evt 0x20#8
  | .engPublish => .evt 0x40#8

/-- The code whose bits are `w`, numbered as spec/opcode_table.json numbers them: 64 bits for a command, 8 for an event
operation. -/
def codeOfTable (nbits w : Nat) : Option Code :=
  if nbits = 64 ∧ w < 2 ^ 64 then some (.cmd (BitVec.ofNat 64 w))
  else if nbits = 8 ∧ w < 2 ^ 8 then some (.evt (BitVec.ofNat 8 w))
  else none

/-- The operation the decoder reads from a row of spec/opcode_table.json whose bits are `w`. -/
def decodeTableWord (nbits w : Nat) : Option Instr :=
  match codeOfTable nbits w with
  | none => none
  | some c =>
    match decode c with
    | .ok i => some i
    | .error _ => none

end Sys2Proof
end

