-- ==== Sys2Proof/Machine/State.lean ====
section
/-! DEFINITION. The state of the block (10_state.md R20 to R38), as plain data, in the groups R20 names, and its value
after reset (R43, 70_reset_and_hazards.md R280). The fields `params`, `inputs` and `freeIdx` are the model's own. -/

namespace Sys2Proof.Machine

/-- Why the machine would stop with a fault: it never does. "for every state and every input `Tick` gives exactly one
next state" (93_implementation_defined.md, section 1), so there is no constructor. -/
inductive Fault where
  deriving DecidableEq, Repr

/-- Why an operation would be refused. -/
inductive Refusal where
  /-- Raised by an arm of `exec` for an operation that has no meaning yet (safe: the run stops). No arm raises it. -/
  | notModelled (mnemonic : String)
  deriving DecidableEq, Repr

/-- `PHASE` (R24). -/
inductive Phase where
  | idle
  | measuring
  | running
  | halted
  deriving DecidableEq, Repr, Inhabited

/-- `ENG_STATE` (R34); the value 3 is never reached (93_implementation_defined.md U16). -/
inductive EngState where
  | idle
  | calcPending
  | publishPending
  deriving DecidableEq, Repr, Inhabited

/-- The time base and the two compare units (R21, R22, R23). -/
structure TimeBase where
  /-- `NOW` (R21). -/
  now : Word
  /-- `HW_TCNT` (R22). -/
  hwTcnt : Half
  /-- `OCRA` (R23). -/
  ocra : Half
  /-- `CMPA_EN` (R23). -/
  cmpaEn : Bool
  /-- `OCRB` (R23). -/
  ocrb : Half
  /-- `CMPB_EN` (R23). -/
  cmpbEn : Bool
  deriving DecidableEq, Repr, Inhabited

/-- The zero-crossing synchronizer's registers (R26, R27). -/
structure SyncRegs where
  /-- `ZC_PREV` (R26). -/
  zcPrev : Bool
  /-- `LAST_EDGE` (R27). -/
  lastEdge : Word
  /-- `LAST_EDGE_VALID` (R27). -/
  lastEdgeValid : Bool
  /-- `INVALID_CNT` (R27). -/
  invalidCnt : Half
  /-- `HW_MIN` (R27). -/
  hwMin : Word
  /-- `HW_MAX` (R27). -/
  hwMax : Word
  /-- `OOS_CNT` (R27). -/
  oosCnt : Half
  /-- `OOS_DIR` (R27): true, the last rejected edge came late. -/
  oosDir : Bool
  deriving DecidableEq, Repr, Inhabited

/-- The frequency estimate (R28). -/
structure MainsFreq where
  /-- `FREQ`, millihertz; 0 is the sentinel "invalid". -/
  freq : Word
  /-- `FREQ_OVR`. -/
  freqOvr : Bool
  /-- `H_TICKS`. -/
  hTicks : Half
  deriving DecidableEq, Repr, Inhabited

/-- One channel's elements of the four arrays of R29. -/
structure Channel where
  /-- `LEVEL_FP[c]`, signed Q16.16. -/
  levelFp : Word
  /-- `STEP[c]`, signed Q16.16. -/
  step : Word
  /-- `REMAIN[c]`. -/
  remain : Word
  /-- `TARGET[c]`. -/
  target : Half
  deriving DecidableEq, Repr, Inhabited

/-- A schedule entry (R31). -/
structure Entry where
  /-- The channel id. -/
  ch : Byte
  /-- The tick offset within the half-wave. -/
  ticks : Half
  deriving DecidableEq, Repr, Inhabited

/-- A schedule buffer (R31). `entry` has the `NCH + 1` slots 0..NCH. -/
structure Buffer where
  /-- `entry[0..NCH]`. -/
  entry : List Entry
  /-- `count`. -/
  count : BitVec 4
  /-- `nz_mask`. -/
  nzMask : Byte
  /-- `lead`: true leading, false trailing. -/
  lead : Bool
  deriving DecidableEq, Repr, Inhabited

/-- The three schedule buffers and the schedule position (R32, R33). -/
structure Schedules where
  /-- `ACT`. -/
  act : Buffer
  /-- `NEXT`. -/
  next : Buffer
  /-- `SCRATCH`. -/
  scratch : Buffer
  /-- `IDX` (R33). -/
  idx : BitVec 4
  deriving DecidableEq, Repr, Inhabited

/-- The telemetry registers (R35). -/
structure Telemetry where
  /-- `EVT_PENDING` (60_exceptions.md R250). -/
  evtPending : Byte
  /-- `CH_STATE`. -/
  chState : Byte
  /-- `FADE_DONE`. -/
  fadeDone : Byte
  /-- `FADE_DONE_LEVEL[c]`, c = 0..NCH-1. -/
  fadeDoneLevel : List Half
  deriving DecidableEq, Repr, Inhabited

/-- The measurement registers (R36). -/
structure MeasRegs where
  /-- `MEAS_BUF[i]`, i = 0..MEAS_NSAMPLES-1. -/
  buf : List Word
  /-- `MEAS_CNT`. -/
  cnt : BitVec 7
  /-- `MEAS_SEEN`. -/
  seen : Half
  /-- `MEAS_PREV`. -/
  prev : Word
  /-- `MEAS_T0`. -/
  t0 : Word
  deriving DecidableEq, Repr, Inhabited

/-- The nine configuration registers (R37). -/
structure CfgRegs where
  /-- `CFG_MIN_ON`. -/
  minOn : Half
  /-- `CFG_MIN_OFF`. -/
  minOff : Half
  /-- `CFG_ZC_DELAY`. -/
  zcDelay : Half
  /-- `CFG_MODE`: false trailing, true leading. -/
  mode : Bool
  /-- `CFG_SYNC_DEV`, percent. -/
  syncDev : BitVec 7
  /-- `CFG_OOS_LIMIT`. -/
  oosLimit : Half
  /-- `CFG_RANGE_BEGIN`. -/
  rangeBegin : Half
  /-- `CFG_RANGE_DIV`. -/
  rangeDiv : Half
  /-- `CFG_ZC_VALIDATE`. -/
  zcValidate : Bool
  deriving DecidableEq, Repr, Inhabited

/-- The host read port (R38). -/
structure ReadPort where
  /-- `RDATA`. -/
  rdata : Word
  /-- `RVALID`. -/
  rvalid : Bool
  deriving DecidableEq, Repr, Inhabited

/-- The state of the block: the twelve groups of R20, and three fields of the model's own. -/
structure State where
  /-- The model's own: the implementation parameters of 00_scope.md R6 (notes/assumptions/3.md). -/
  params : Params
  /-- The model's own: the port samples of the ticks to come, one consumed by each step (notes/assumptions/1.md). -/
  inputs : List TickInput
  /-- The model's own: how many steps found `inputs` empty (notes/assumptions/2.md). -/
  freeIdx : Nat
  /-- R21 to R23. -/
  time : TimeBase
  /-- R24. -/
  phase : Phase
  /-- R26, R27. -/
  sync : SyncRegs
  /-- R28. -/
  mains : MainsFreq
  /-- R29: the channel file, elements 0..NCH-1. -/
  chans : List Channel
  /-- `OUT` (R30): bits 0..NCH-1; the bits above are 0. -/
  out : Byte
  /-- R31 to R33. -/
  sched : Schedules
  /-- R34. -/
  eng : EngState
  /-- R35. -/
  tele : Telemetry
  /-- R36. -/
  meas : MeasRegs
  /-- R37. -/
  cfg : CfgRegs
  /-- R38. -/
  port : ReadPort
  deriving DecidableEq, Repr

/-- The sentinel entry of R31. -/
def Entry.sentinel : Entry := ⟨0xFF#8, 0#16⟩

/-- The empty buffer of R31, for `NCH` = `nch`. -/
def Buffer.empty (nch : Nat) : Buffer := ⟨List.replicate (nch + 1) Entry.sentinel, 0#4, 0#8, false⟩

/-- A block with parameters `p` right after reset: every value is that of the table of R43. -/
def State.resetWith (p : Params) : State where
  params := p
  inputs := []
  freeIdx := 0
  time := ⟨0, 0, 0, false, 0, false⟩
  phase := .idle
  sync := ⟨true, 0, false, 0, 0, 0, 0, false⟩
  mains := ⟨0, false, 0⟩
  chans := List.replicate p.nch ⟨0, 0, 0, 0⟩
  out := 0
  sched := ⟨Buffer.empty p.nch, Buffer.empty p.nch, Buffer.empty p.nch, 0⟩
  eng := .idle
  tele := ⟨0, 0, 0, List.replicate p.nch 0⟩
  meas := ⟨List.replicate p.measNSamples 0, 0, 0, 0, 0⟩
  cfg := ⟨0, 0, 0, false, 0, 0, 0, 0, false⟩
  port := ⟨0, false⟩

/-- The machine right after reset (R43, R280), with the default parameters of R6. -/
def State.reset : State := State.resetWith Params.default

end Sys2Proof.Machine
end

