-- ==== Sys2Proof/Machine/Flags.lean ====
section
/-! DEFINITION. The flags of the block (10_state.md R39): the event bits of `EVT_PENDING` (60_exceptions.md R250), the
views `IRQ` (R251), `BUSY` (R34) and `STATUS` (30_encoding.md R93), and the codes of `PHASE` (R24) and `ENG_STATE` (R34). -/

namespace Sys2Proof.Machine

/-- The telemetry events of R250. -/
inductive Event where
  | chState
  | fadeDone
  | syncLost
  | freqInvalid
  | freqUpdated
  | cmdErr
  | cfgErr
  deriving DecidableEq, Repr

/-- The cause code of an event: its bit number in `EVT_PENDING` (R250). -/
def Event.code : Event → Nat
  | .chState => 0
  | .fadeDone => 1
  | .syncLost => 2
  | .freqInvalid => 3
  | .freqUpdated => 4
  | .cmdErr => 5
  | .cfgErr => 6

/-- The mask with the event's bit alone set. -/
def Event.mask (e : Event) : Byte := 1#8 <<< e.code

/-- The event is pending: its bit of `EVT_PENDING` is 1. -/
def State.pending (s : State) (e : Event) : Bool := s.tele.evtPending.getLsbD e.code

/-- The pin `IRQ` (R251): a level, 1 while any bit of `EVT_PENDING` is 1. -/
def State.irq (s : State) : Bool := s.tele.evtPending != 0#8

/-- The engine's busy flag (R34). -/
def State.busy (s : State) : Bool := s.eng != .idle

/-- The encoding of `PHASE` (R24). -/
def Phase.code : Phase → BitVec 2
  | .idle => 0
  | .measuring => 1
  | .running => 2
  | .halted => 3

/-- The encoding of `ENG_STATE` (R34). -/
def EngState.code : EngState → BitVec 2
  | .idle => 0
  | .calcPending => 1
  | .publishPending => 2

/-- `STATUS`, the read-only view of R93: from bit 12 down to bit 0 `ZC_PREV`, `IDX`, `LAST_EDGE_VALID`, `FREQ_OVR`,
`CMPB_EN`, `CMPA_EN`, `ENG_STATE`, `PHASE`. -/
def State.status (s : State) : Word :=
  (BitVec.ofBool s.sync.zcPrev ++ s.sched.idx ++ BitVec.ofBool s.sync.lastEdgeValid ++ BitVec.ofBool s.mains.freqOvr ++
    BitVec.ofBool s.time.cmpbEn ++ BitVec.ofBool s.time.cmpaEn ++ s.eng.code ++ s.phase.code).setWidth 32

end Sys2Proof.Machine
end

