-- ==== Sys2Proof/Machine/Ops.lean ====
section
/-! DEFINITION. The shared operations: arithmetic of 00_scope.md R8 and 42_channel_timing.md R157, channel masks, the
schedule buffers, raising an event and acknowledging it (60_exceptions.md R251, R264), the port samples of a tick, and
the parts that `sync_lost` and `START` have in common. -/

namespace Sys2Proof.Machine

/-! ## Outcomes -/

/-- The outcome of an operation or of a step. -/
abbrev Result := Host.Outcome State Fault Refusal

/-- Go on with the next slot in the state the slot before it left (R262). -/
def andThen (r : Result) (f : State → Result) : Result :=
  match r with
  | .next s => f s
  | .fault e => .fault e
  | .refused e => .refused e

/-! ## Arithmetic (R8, R157) -/

/-- `clamp(v, lo, hi)` of R8. -/
def clamp (v lo hi : Int) : Int := if v < lo then lo else if hi < v then hi else v

/-- `sat16(v)` of R8. -/
def sat16 (v : Nat) : Nat := min v 65535

/-- `sat32(v)` of R8. -/
def sat32 (v : Nat) : Nat := min v (2 ^ 32 - 1)

/-- `round_half_up(a/b)` of R8. -/
def roundHalfUp (a b : Nat) : Nat := (2 * a + b) / (2 * b)

/-- The ticks from the time stamp `b` to the time stamp `a`, mod 2^32, read as unsigned (R21, R157 (a)). -/
def elapsed (a b : Word) : Nat := (a - b).toNat

/-- A whole number of percent of a tick count, rounded down: the deviation of R117 and R204. -/
def percentOf (h dev : Nat) : Nat := h * dev / 100

/-! ## Channel masks -/

/-- The mask of `OUT`, `nz_mask`, `FADE_DONE` with bit `c` = `f c` for the channels `c < n` and 0 above. -/
def maskOf : Nat → (Nat → Bool) → Byte
  | 0, _ => 0#8
  | n + 1, f => maskOf n f ||| (if f n then 1#8 <<< n else 0#8)

/-- `OUT[c] <- not OUT[c]` (R131, R138). -/
def toggleBit (out : Byte) (c : Byte) : Byte := out ^^^ (1#8 <<< c.toNat)

/-- Toggle the channel of each entry in table order (R134, R138). -/
def toggleAll (es : List Entry) (out : Byte) : Byte := es.foldl (fun o e => toggleBit o e.ch) out

/-! ## Schedule buffers (R31) -/

/-- The real entries `entry[0..count-1]` of a buffer. -/
def Buffer.real (b : Buffer) : List Entry := b.entry.take b.count.toNat

/-- The channel has an entry in the buffer. -/
def Buffer.schedules (b : Buffer) (c : Nat) : Bool := b.real.any (fun e => e.ch.toNat == c)

/-- Slot `i` of a buffer. Every slot `i <= NCH` of a buffer of R31 exists (notes/assumptions/9.md). -/
def Buffer.slot (b : Buffer) (i : Nat) : Entry := b.entry.getD i Entry.sentinel

/-! ## Channels (R29) -/

/-- The elements of channel `c`. Every channel `c < NCH` has them (notes/assumptions/9.md). -/
def State.chan (s : State) (c : Nat) : Channel := s.chans.getD c ⟨0, 0, 0, 0⟩

/-- The integer level `LEVEL(c)`: `LEVEL_FP[c][31:16]` read as unsigned (R29). -/
def Channel.level (ch : Channel) : Nat := (ch.levelFp.extractLsb' 16 16).toNat

/-- `set_level(c, v)` (43_fading_engine.md R178): what the channel's elements become. -/
def Channel.atLevel (v : Nat) : Channel where
  levelFp := BitVec.ofNat 32 (v * 65536)
  step := 0
  remain := 0
  target := BitVec.ofNat 16 v

/-! ## Events: what stands for taking an exception, and for its return (R251, R264) -/

/-- `raise EV_X` (R251): `EVT_PENDING[x] <- 1` and nothing else. -/
def State.raise (s : State) (e : Event) : State :=
  { s with tele.evtPending := s.tele.evtPending ||| e.mask }

/-- Raise the event when the condition holds. -/
def State.raiseIf (s : State) (b : Bool) (e : Event) : State := if b then s.raise e else s

/-- Acknowledging events (45_host_commands.md R227): the only way but reset to clear one. Bit 1 of the mask is
`EV_FADE_DONE`. -/
def State.acknowledge (s : State) (mask : Byte) : State :=
  { s with
    tele.evtPending := s.tele.evtPending &&& ~~~mask
    tele.fadeDone := if mask.getLsbD 1 then 0#8 else s.tele.fadeDone }

/-! ## Frequency (R28, R150) -/

/-- `FREQ <- f` together with `H_TICKS <- h`. -/
def State.setFreq (s : State) (f : Word) (h : Nat) : State :=
  { s with mains.freq := f, mains.hTicks := BitVec.ofNat 16 h }

/-- `FREQ <- 0` together with `H_TICKS <- 0`: the frequency is invalid. -/
def State.clearFreq (s : State) : State := s.setFreq 0 0

/-! ## Stopping the scheduler side (40_zc_synchronizer.md R116, 45_host_commands.md R226) -/

/-- Both compares cancelled, every channel off, `ACT` and `NEXT` emptied, `IDX` 0, the engine's request dropped. -/
def State.stopSwitching (s : State) : State :=
  { s with
    time.cmpaEn := false
    time.cmpbEn := false
    out := 0#8
    sched.act := Buffer.empty s.params.nch
    sched.next := Buffer.empty s.params.nch
    sched.idx := 0
    eng := .idle }

/-! ## The port samples of a tick (00_scope.md R10, R11) -/

/-- The samples the next tick sees: the first that waits, or free ones (notes/assumptions/2.md). -/
def State.nextInput (s : State) : TickInput :=
  match s.inputs with
  | i :: _ => i
  | [] => Config.freeInput s.freeIdx

/-- The state once the next tick's samples are taken. -/
def State.popInput (s : State) : State :=
  match s.inputs with
  | _ :: rest => { s with inputs := rest }
  | [] => { s with freeIdx := s.freeIdx + 1 }

end Sys2Proof.Machine
end

