-- ==== Sys2Proof/Machine/Calculator.lean ====
section
/-! DEFINITION. The channel-timing calculator (42_channel_timing.md R150 to R157): the half-wave length of a frequency,
the switch offset of a level, and the sorted schedule buffer. None of them is an operation by itself. -/

namespace Sys2Proof.Machine

/-- `h_of(f)`, the half-wave length in ticks of `f` millihertz (R150). -/
def hOf (p : Params) (f : Nat) : Nat := (p.fTick * 1000 + f) / (2 * f)

/-- A usable frequency (R150). -/
def usable (p : Params) (f : Nat) : Bool := decide (1 ≤ f ∧ 1 ≤ hOf p f ∧ hOf p f ≤ 65535)

/-- A `rescale` other than that of R152: the least non-decreasing function above the free raw values cut to
`LEVEL_MAX`; every total, in-range, non-decreasing mapping is one (notes/assumptions/4.md). -/
def otherRescale (levelMax rangeBegin div : Nat) : Nat → Nat
  | 0 => min (Config.rescaleRaw levelMax rangeBegin div 0) levelMax
  | l + 1 => max (otherRescale levelMax rangeBegin div l) (min (Config.rescaleRaw levelMax rangeBegin div (l + 1)) levelMax)

/-- The restricted range (R152). -/
def rescale (p : Params) (cfg : CfgRegs) (l : Nat) : Nat :=
  if cfg.rangeDiv = 0#16 then l
  else
    match p.rescale with
    | .rule152 => (clamp (cfg.rangeBegin.toNat + l * p.levelMax / cfg.rangeDiv.toNat : Nat) 0 p.levelMax).toNat
    | .other => otherRescale p.levelMax cfg.rangeBegin.toNat cfg.rangeDiv.toNat l

/-- The guard bands leave no room in a half-wave of `h` ticks (R156). -/
def guardsTooWide (cfg : CfgRegs) (h : Nat) : Bool := decide (h < cfg.minOn.toNat + cfg.minOff.toNat)

/-- `on_ticks`, the ticks per half-wave for which a channel at level `l` is on (R151), for guard bands that fit. -/
def onTicks (p : Params) (cfg : CfgRegs) (l h : Nat) : Nat :=
  let r := h - cfg.minOn.toNat - cfg.minOff.toNat
  cfg.minOn.toNat + (clamp (r * rescale p cfg l / p.levelMax : Nat) 0 r).toNat

/-- `sw_ticks`, the offset stored in the schedule entry (R153). -/
def swTicks (p : Params) (cfg : CfgRegs) (l h : Nat) : Nat :=
  if cfg.mode then h - onTicks p cfg l h else onTicks p cfg l h

/-- A channel at this level gets an entry (R154). -/
def partlyOn (p : Params) (l : Nat) : Bool := decide (0 < l ∧ l < p.levelMax)

/-- The order of a schedule: by `(ticks, ch)`, ascending (R155). -/
def entryLe (a b : Entry) : Bool :=
  decide (a.ticks.toNat < b.ticks.toNat ∨ (a.ticks.toNat = b.ticks.toNat ∧ a.ch.toNat ≤ b.ch.toNat))

/-- The entries of a schedule in channel order, before sorting (R156). -/
def rawEntries (s : State) : List Entry :=
  ((List.range s.params.nch).filter fun c => partlyOn s.params (s.chan c).level).map fun c =>
    ⟨BitVec.ofNat 8 c, BitVec.ofNat 16 (swTicks s.params s.cfg (s.chan c).level s.mains.hTicks.toNat)⟩

/-- The sorted entries of a schedule. Only the order is defined, not the algorithm (R155). -/
def sortEntries (es : List Entry) : List Entry := es.insertionSort fun a b => entryLe a b = true

/-- A buffer with these real entries and sentinels after them (R156). -/
def Buffer.ofEntries (nch : Nat) (es : List Entry) (nzMask : Byte) (lead : Bool) : Buffer where
  entry := es ++ List.replicate (nch + 1 - es.length) Entry.sentinel
  count := BitVec.ofNat 4 es.length
  nzMask := nzMask
  lead := lead

/-- The mask of the channels with a non-zero level (R154). -/
def nonZeroMask (s : State) : Byte := maskOf s.params.nch fun c => decide (0 < (s.chan c).level)

/-- `calc()` (R156): the buffer and `cfg_err`. It writes no state. -/
def calcSchedule (s : State) : Buffer × Bool :=
  if guardsTooWide s.cfg s.mains.hTicks.toNat then (Buffer.empty s.params.nch, true)
  else (Buffer.ofEntries s.params.nch (sortEntries (rawEntries s)) (nonZeroMask s) s.cfg.mode, false)

end Sys2Proof.Machine
end

