-- ==== Sys2Proof/Machine/Synchronizer.lean ====
section
/-! DEFINITION. The zero-crossing synchronizer in `RUNNING` (40_zc_synchronizer.md R112 to R117): the three kinds of
edge, the loss of synchronisation, and the entry into `RUNNING`. -/

namespace Sys2Proof.Machine

/-- An accepted edge (R113): compare A is armed `CFG_ZC_DELAY + ZC_CORR` ticks from now. -/
def acceptEdge (s : State) : State :=
  { s with
    sync.invalidCnt := 0
    sync.lastEdge := s.time.now
    sync.lastEdgeValid := true
    time.ocra := BitVec.ofNat 16 (s.time.hwTcnt.toNat + s.cfg.zcDelay.toNat + s.params.zcCorr)
    time.cmpaEn := true }

/-- A seed edge (R114). -/
def seedEdge (s : State) : State :=
  { s with
    sync.lastEdge := s.time.now
    sync.lastEdgeValid := true }

/-- `sync_lost`, the entry into `HALTED` (R116): what it saves (`OOS_CNT`), what it stops, the event it raises. A measured
frequency is invalidated, an override kept. -/
def syncLost (s : State) : State :=
  let t := { s with sync.oosCnt := s.sync.invalidCnt }.stopSwitching
  let u := if s.mains.freqOvr then t else t.clearFreq
  { u with phase := .halted }.raise .syncLost

/-- A rejected edge, `el` ticks after the reference edge (R115). -/
def rejectEdge (el : Nat) (s : State) : State :=
  let t := { s with
    sync.invalidCnt := BitVec.ofNat 16 (sat16 (s.sync.invalidCnt.toNat + 1))
    sync.oosDir := decide (s.sync.hwMax.toNat < el) }
  if t.cfg.oosLimit.toNat ≤ t.sync.invalidCnt.toNat then syncLost t else t

/-- `ZC_EDGE` in `RUNNING` (R112). -/
def edgeRunning (s : State) : State :=
  if !s.cfg.zcValidate then acceptEdge s
  else if !s.sync.lastEdgeValid then seedEdge s
  else
    let el := elapsed s.time.now s.sync.lastEdge
    if s.sync.hwMin.toNat ≤ el ∧ el ≤ s.sync.hwMax.toNat then acceptEdge s else rejectEdge el s

/-- `enter_running(seeded)` (R117). -/
def enterRunning (seeded : Bool) (s : State) : State :=
  let h := s.mains.hTicks.toNat
  let d := percentOf h s.cfg.syncDev.toNat
  { s with
    sync.hwMin := BitVec.ofNat 32 (h - d)
    sync.hwMax := BitVec.ofNat 32 (h + d)
    sync.invalidCnt := 0
    sync.lastEdgeValid := seeded
    sync.lastEdge := if seeded then s.time.now else s.sync.lastEdge
    phase := .running }

end Sys2Proof.Machine
end

