-- ==== Sys2Proof/Machine/Measurement.lean ====
section
/-! DEFINITION. The mains-frequency measurement (44_frequency_measurement.md R200 to R206): the beginning of a pass,
`ZC_EDGE` in `MEASURING`, the two-stage filter, and the meaning of `MEAS_TIMEOUT`. -/

namespace Sys2Proof.Machine

/-- `meas_begin` (R200). -/
def measBegin (s : State) : State :=
  { s.clearFreq with
    meas.seen := 0
    meas.cnt := 0
    meas.t0 := s.time.now
    phase := .measuring }

/-- `meas_fail` (R205). -/
def measFail (s : State) : State := { s.clearFreq with phase := .idle }.raise .freqInvalid

/-- `T1_MIN` (00_scope.md R6). -/
def t1Min (p : Params) : Nat := p.fTick * 1000 / (2 * p.fMaxMhz)

/-- `T1_MAX` (00_scope.md R6). -/
def t1Max (p : Params) : Nat := p.fTick * 1000 / (2 * p.fMinMhz)

/-- The deltas within a window, both ends included (R203, R204). -/
def within (lo hi : Nat) (buf : List Word) : List Nat :=
  (buf.map BitVec.toNat).filter fun x => decide (lo ≤ x ∧ x ≤ hi)

/-- `S1`, the deltas stage 1 accepts (R203). -/
def stage1 (p : Params) (buf : List Word) : List Nat := within (t1Min p) (t1Max p) buf

/-- `M1`, the mean of the deltas stage 1 accepts, rounded down (R204). -/
def stage1Mean (p : Params) (buf : List Word) : Nat := (stage1 p buf).sum / (stage1 p buf).length

/-- `S2`, the deltas stage 2 accepts out of the full sample set (R204). -/
def stage2 (p : Params) (syncDev : Nat) (buf : List Word) : List Nat :=
  let m := stage1Mean p buf
  within (m - percentOf m syncDev) (m + percentOf m syncDev) buf

/-- The measured frequency in millihertz (R205): `round_half_up(F_TICK*1000 / (2 * sum2/cnt2))`. -/
def measuredFreq (p : Params) (s2 : List Nat) : Nat :=
  (p.fTick * 1000 * s2.length + s2.sum) / (2 * s2.sum)

/-- The result of the filter (R203 to R205), or none where the pass fails. -/
def filterResult (p : Params) (syncDev : Nat) (buf : List Word) : Option Nat :=
  if (stage1 p buf).length < p.measMinValid then none
  else if (stage2 p syncDev buf).length < p.measMinValid then none
  else
    let f := measuredFreq p (stage2 p syncDev buf)
    if usable p f then some f else none

/-- What `FREQ` holds for a measured frequency `f`. The spec states no result for `f >= 2^32`, which only parameters far
from the defaults allow: a FREE VALUE, not 0 (DESIGN CHOICE, safe, notes/assumptions/5.md). -/
def freqWord (f : Nat) : Word :=
  if f < 2 ^ 32 then BitVec.ofNat 32 f
  else if Config.freqUnstated f = 0 then 1 else Config.freqUnstated f

/-- The end of a pass (R203 to R205). -/
def measFinish (s : State) : State :=
  match filterResult s.params s.cfg.syncDev.toNat s.meas.buf with
  | none => measFail s
  | some f => enterRunning true ((s.setFreq (freqWord f) (hOf s.params f)).raise .freqUpdated)

/-- The edge is counted, and its delta stored from edge number `MEAS_WARMUP + 2` on (R202). -/
def storeDelta (s : State) : State :=
  let k := sat16 (s.meas.seen.toNat + 1)
  let stored := decide (s.params.measWarmup + 2 ≤ k)
  { s with
    meas.seen := BitVec.ofNat 16 k
    meas.buf := if stored then s.meas.buf.set s.meas.cnt.toNat (s.time.now - s.meas.prev) else s.meas.buf
    meas.cnt := if stored then s.meas.cnt + 1 else s.meas.cnt
    meas.prev := s.time.now }

/-- `ZC_EDGE` in `MEASURING` (R202). -/
def edgeMeasuring (s : State) : State :=
  let t := storeDelta s
  if t.meas.cnt.toNat = t.params.measNSamples then measFinish t else t

/-- `MEAS_TIMEOUT` (R206). -/
def execMeasTimeout (s : State) : Result := .next (measFail s)

end Sys2Proof.Machine
end

