-- ==== Sys2Proof/Machine/Registers.lean ====
section
/-! DEFINITION. The register space (20_memory.md R60 to R63, 30_encoding.md R91 to R94): the map from register numbers
to state, `RegRead` and `RegWrite`. -/

namespace Sys2Proof.Machine

/-- The registers of the map R92, by name. -/
inductive Reg where
  | cfgMinOn | cfgMinOff | cfgZcDelay | cfgMode | cfgSyncDev | cfgOosLimit | cfgRangeBegin | cfgRangeDiv | cfgZcValidate
  | status | evtPending | freq | hTicks | hwMin | hwMax | invalidCnt | chState | fadeDone | oosInfo | out | hwTcnt | now
  | lastEdge | ocra | ocrb
  | levelFp (c : Nat) | step (c : Nat) | remain (c : Nat) | target (c : Nat) | fadeDoneLevel (c : Nat)
  | actEntry (i : Nat) | actMeta | nextEntry (i : Nat) | nextMeta | scratchEntry (i : Nat) | scratchMeta
  | measBuf (i : Nat) | measCnt | measSeen | measPrev | measT0
  deriving DecidableEq, Repr

/-- The member of an indexed group: the numbers from `base` on, one for each index below `bound` (R91). -/
def groupAt (k base bound : Nat) (r : Nat → Reg) : Option Reg :=
  if base ≤ k ∧ k < base + bound then some (r (k - base)) else none

/-- The indexed groups of R92. -/
def groupReg (p : Params) (k : Nat) : Option Reg :=
  groupAt k 0x20 p.nch .levelFp <|> groupAt k 0x28 p.nch .step <|> groupAt k 0x30 p.nch .remain <|>
  groupAt k 0x38 p.nch .target <|> groupAt k 0x40 p.nch .fadeDoneLevel <|>
  groupAt k 0x50 (p.nch + 1) .actEntry <|> groupAt k 0x60 (p.nch + 1) .nextEntry <|>
  groupAt k 0x70 (p.nch + 1) .scratchEntry <|> groupAt k 0x80 p.measNSamples .measBuf

/-- The map of R92: the register a number names, or none where the number is unmapped. -/
def regAt (p : Params) (n : Byte) : Option Reg :=
  match n.toNat with
  | 0x00 => some .cfgMinOn
  | 0x01 => some .cfgMinOff
  | 0x02 => some .cfgZcDelay
  | 0x03 => some .cfgMode
  | 0x04 => some .cfgSyncDev
  | 0x05 => some .cfgOosLimit
  | 0x06 => some .cfgRangeBegin
  | 0x07 => some .cfgRangeDiv
  | 0x08 => some .cfgZcValidate
  | 0x10 => some .status
  | 0x11 => some .evtPending
  | 0x12 => some .freq
  | 0x13 => some .hTicks
  | 0x14 => some .hwMin
  | 0x15 => some .hwMax
  | 0x16 => some .invalidCnt
  | 0x17 => some .chState
  | 0x18 => some .fadeDone
  | 0x19 => some .oosInfo
  | 0x1A => some .out
  | 0x1B => some .hwTcnt
  | 0x1C => some .now
  | 0x1D => some .lastEdge
  | 0x1E => some .ocra
  | 0x1F => some .ocrb
  | 0x59 => some .actMeta
  | 0x69 => some .nextMeta
  | 0x79 => some .scratchMeta
  | 0xC0 => some .measCnt
  | 0xC1 => some .measSeen
  | 0xC2 => some .measPrev
  | 0xC3 => some .measT0
  | k => groupReg p k

/-- One bit, zero-extended to the 32 bits of the port (R91). -/
def bitWord (b : Bool) : Word := (BitVec.ofBool b).setWidth 32

/-- How a schedule entry reads: `0[31:24], ch[23:16], ticks[15:0]` (R94). -/
def Entry.word (e : Entry) : Word := 0#8 ++ e.ch ++ e.ticks

/-- How a `*_META` register reads: `0[31:16], nz_mask[15:8], 0[7:5], lead[4], count[3:0]` (R94). -/
def Buffer.metaWord (b : Buffer) : Word := 0#16 ++ b.nzMask ++ 0#3 ++ BitVec.ofBool b.lead ++ b.count

/-- The 32-bit value the map gives for a register: the state zero-extended, signed state as it is (R62, R91, R92). -/
def State.reg (s : State) : Reg → Word
  | .cfgMinOn => s.cfg.minOn.setWidth 32
  | .cfgMinOff => s.cfg.minOff.setWidth 32
  | .cfgZcDelay => s.cfg.zcDelay.setWidth 32
  | .cfgMode => bitWord s.cfg.mode
  | .cfgSyncDev => s.cfg.syncDev.setWidth 32
  | .cfgOosLimit => s.cfg.oosLimit.setWidth 32
  | .cfgRangeBegin => s.cfg.rangeBegin.setWidth 32
  | .cfgRangeDiv => s.cfg.rangeDiv.setWidth 32
  | .cfgZcValidate => bitWord s.cfg.zcValidate
  | .status => s.status
  | .evtPending => s.tele.evtPending.setWidth 32
  | .freq => s.mains.freq
  | .hTicks => s.mains.hTicks.setWidth 32
  | .hwMin => s.sync.hwMin
  | .hwMax => s.sync.hwMax
  | .invalidCnt => s.sync.invalidCnt.setWidth 32
  | .chState => s.tele.chState.setWidth 32
  | .fadeDone => s.tele.fadeDone.setWidth 32
  | .oosInfo => (BitVec.ofBool s.sync.oosDir ++ s.sync.oosCnt).setWidth 32
  | .out => s.out.setWidth 32
  | .hwTcnt => s.time.hwTcnt.setWidth 32
  | .now => s.time.now
  | .lastEdge => s.sync.lastEdge
  | .ocra => s.time.ocra.setWidth 32
  | .ocrb => s.time.ocrb.setWidth 32
  | .levelFp c => (s.chan c).levelFp
  | .step c => (s.chan c).step
  | .remain c => (s.chan c).remain
  | .target c => (s.chan c).target.setWidth 32
  | .fadeDoneLevel c => (s.tele.fadeDoneLevel.getD c 0#16).setWidth 32
  | .actEntry i => (s.sched.act.slot i).word
  | .actMeta => s.sched.act.metaWord
  | .nextEntry i => (s.sched.next.slot i).word
  | .nextMeta => s.sched.next.metaWord
  | .scratchEntry i => (s.sched.scratch.slot i).word
  | .scratchMeta => s.sched.scratch.metaWord
  | .measBuf i => s.meas.buf.getD i 0#32
  | .measCnt => s.meas.cnt.setWidth 32
  | .measSeen => s.meas.seen.setWidth 32
  | .measPrev => s.meas.prev
  | .measT0 => s.meas.t0

/-- `RegRead(n)` (R62): `some v` where the spec writes `(1, v)`, `none` where the number is unmapped. It changes no
state. -/
def State.regRead (s : State) (n : Byte) : Option Word := (regAt s.params n).map s.reg

/-- The configuration registers after a write of `v`, when the number is writable and `v` legal for it
(R63, 45_host_commands.md R229). -/
def CfgRegs.write (cfg : CfgRegs) (levelMax : Nat) (n : Byte) (v : Word) : Option CfgRegs :=
  match n.toNat with
  | 0x00 => if v.toNat ≤ 65535 then some { cfg with minOn := v.setWidth 16 } else none
  | 0x01 => if v.toNat ≤ 65535 then some { cfg with minOff := v.setWidth 16 } else none
  | 0x02 => if v.toNat ≤ 65535 then some { cfg with zcDelay := v.setWidth 16 } else none
  | 0x03 => if v.toNat ≤ 1 then some { cfg with mode := v.getLsbD 0 } else none
  | 0x04 => if v.toNat ≤ 100 then some { cfg with syncDev := v.setWidth 7 } else none
  | 0x05 => if v.toNat ≤ 65535 then some { cfg with oosLimit := v.setWidth 16 } else none
  | 0x06 => if v.toNat ≤ levelMax then some { cfg with rangeBegin := v.setWidth 16 } else none
  | 0x07 => if v.toNat ≤ 65535 then some { cfg with rangeDiv := v.setWidth 16 } else none
  | 0x08 => if v.toNat ≤ 1 then some { cfg with zcValidate := v.getLsbD 0 } else none
  | _ => none

/-- `RegWrite(n, v)` (R63): the state after the write, or none where the write is refused (`ok = 0`). -/
def State.regWrite (s : State) (n : Byte) (v : Word) : Option State :=
  (s.cfg.write s.params.levelMax n v).map fun c => { s with cfg := c }

end Sys2Proof.Machine
end

