-- ==== Sys2Proof/Machine/Commands.lean ====
section
/-! DEFINITION. The host commands that are not level commands (45_host_commands.md): the meanings of `SETMODE`, `SETFREQ`,
`START`, `ACK`, `WREG` and `RREG`. -/

namespace Sys2Proof.Machine

/-- `SETFREQ` and `START` are refused in this phase (R221). -/
def Phase.refusesStart : Phase → Bool
  | .idle => false
  | .measuring => true
  | .running => true
  | .halted => false

/-- `SETMODE mode` (R224). -/
def execSetmode (mode : Bool) (s : State) : Result := .next { s with cfg.mode := mode }

/-- `SETFREQ 0` (R225): the override is removed. -/
def removeOverride (s : State) : State := { s.clearFreq with mains.freqOvr := false }.raise .freqInvalid

/-- `SETFREQ mhz` of a usable frequency (R225). -/
def setOverride (imm : Word) (s : State) : State :=
  { s.setFreq imm (hOf s.params imm.toNat) with mains.freqOvr := true }.raise .freqUpdated

/-- `SETFREQ mhz` (R225). -/
def execSetfreq (imm : Word) (s : State) : Result :=
  .next <|
    if s.phase.refusesStart then s.raise .cmdErr
    else if imm = 0#32 then removeOverride s
    else if usable s.params imm.toNat then setOverride imm s
    else s.raise .cmdErr

/-- What `START` clears before it enters `RUNNING` or begins a pass (R226). -/
def beginSession (s : State) : State :=
  { s with
    sync.invalidCnt := 0
    sync.lastEdgeValid := false }.stopSwitching

/-- `START` (R226): what stands for the return from `HALTED` (60_exceptions.md R264). -/
def execStart (s : State) : Result :=
  .next <|
    if s.phase.refusesStart then s.raise .cmdErr
    else if s.mains.freqOvr then enterRunning false (beginSession s)
    else measBegin (beginSession s)

/-- `ACK mask` (R227). -/
def execAck (mask : Byte) (s : State) : Result := .next (s.acknowledge mask)

/-- `WREG reg, value` (R229). -/
def execWreg (reg : Byte) (value : Word) (s : State) : Result :=
  match s.regWrite reg value with
  | some t => .next t
  | none => .next (s.raise .cmdErr)

/-- `RREG reg` (R230). -/
def execRreg (reg : Byte) (s : State) : Result :=
  match s.regRead reg with
  | some v => .next { s with port.rdata := v, port.rvalid := true }
  | none => .next { s.raise .cmdErr with port.rvalid := false }

end Sys2Proof.Machine
end

