-- ==== Sys2Proof/Machine/EdgeDetector.lean ====
section
/-! DEFINITION. The edge detector (40_zc_synchronizer.md R110) and the meaning of `ZC_EDGE` (R111). -/

namespace Sys2Proof.Machine

/-- `ZC_EDGE` (R111): what it does depends on `PHASE` alone. -/
def execZcEdge (s : State) : Result :=
  match s.phase with
  | .idle => .next s
  | .measuring => .next (edgeMeasuring s)
  | .running => .next (edgeRunning s)
  | .halted => .next s

/-- The polarity-normalised sample `zs` (R110). -/
def normSample (p : Params) (zc : Bool) : Bool := Bool.xor zc p.zcPolInv

/-- The edge detector fires (R110). -/
def edgeSeen (s : State) (zc : Bool) : Bool := !s.sync.zcPrev && normSample s.params zc

/-- `ZC_PREV <- zs` (R110). -/
def State.sampleZc (s : State) (zc : Bool) : State := { s with sync.zcPrev := normSample s.params zc }

end Sys2Proof.Machine
end

