-- ==== Sys2Proof/Machine/Operands.lean ====
section
/-! DEFINITION. How a field of the command word becomes an operand (30_encoding.md R86, 43_fading_engine.md R175,
R177). No field is scaled, shifted or split. -/

namespace Sys2Proof.Machine

/-- A channel operand (R175). -/
inductive ChanSel where
  /-- One channel, by its id. -/
  | one (c : Nat)
  /-- `ALL`. -/
  | all
  deriving DecidableEq, Repr

/-- The channel a field `ch` names: one channel when `ch < NCH`, every channel when `ch = 0xFF`, otherwise an illegal
encoding (R175, R88 (c)). -/
def chanOperand (nch : Nat) (ch : Byte) : Option ChanSel :=
  if ch.toNat < nch then some (.one ch.toNat)
  else if ch = 0xFF#8 then some .all
  else none

/-- Run a per-channel procedure for each selected channel (R175). -/
def mapSelected (sel : ChanSel) (f : Channel → Channel) (chans : List Channel) : List Channel :=
  match sel with
  | .one c => chans.modify c f
  | .all => chans.map f

/-- `norm(x) = clamp(s16(x), 0, LEVEL_MAX)` (R177). -/
def norm (levelMax : Nat) (x : Half) : Nat := (clamp x.toInt 0 levelMax).toNat

/-- The sentinel `CURRENT` in the field `from` (R86, R177). -/
def isCurrent (fromLvl : Half) : Bool := fromLvl == 0x8000#16

/-- The sentinel `FREEZE` in the field `to` (R86, R177). -/
def isFreeze (toLvl : Half) : Bool := toLvl == 0x8001#16

end Sys2Proof.Machine
end

