-- ==== Sys2Proof/Machine/Fading.lean ====
section
/-! DEFINITION. The fading engine (43_fading_engine.md): the meanings of the level commands `SETLVL`, `FADE`, `FADEA` and
of the engine's two steps `ENG_CALC` and `ENG_PUBLISH`. -/

namespace Sys2Proof.Machine

/-- Run a per-channel procedure on the channels an operand names (R175); an illegal operand raises `EV_CMD_ERR` and
changes nothing else. -/
def onChannels (ch : Byte) (f : Channel → Channel) (s : State) : State :=
  match chanOperand s.params.nch ch with
  | none => s.raise .cmdErr
  | some sel => { s with chans := mapSelected sel f s.chans }

/-- `freeze(c)` (R174). -/
def freezeChannel (x : Channel) : Channel := if x.remain = 0#32 then x else Channel.atLevel x.level

/-- `step_count(dur, d, abs)` (R176): rounded half up, once. -/
def stepCount (levelMax freq dur d : Nat) (abs : Bool) : Nat :=
  if freq = 0 then 0
  else if abs then sat32 (roundHalfUp (freq * dur * 20) 1000000)
  else sat32 (roundHalfUp (freq * dur * 20 * d) (1000000 * levelMax))

/-- A channel whose fade from `f` to `t` in `n` steps has just been set up (R173). -/
def Channel.fading (f t n : Nat) : Channel where
  levelFp := BitVec.ofNat 32 (f * 65536)
  step := BitVec.ofInt 32 (((t : Int) - f) * 65536 |>.tdiv n)
  remain := BitVec.ofNat 32 n
  target := BitVec.ofNat 16 t

/-- The level a fade starts from (R173): the channel's own under the sentinel `CURRENT`. -/
def fadeStart (levelMax : Nat) (fromLvl : Half) (x : Channel) : Nat :=
  if isCurrent fromLvl then x.level else norm levelMax fromLvl

/-- `fade_one(c, from, to, dur, abs)` (R173). -/
def fadeOne (levelMax freq : Nat) (fromLvl toLvl dur : Half) (abs : Bool) (x : Channel) : Channel :=
  if isFreeze toLvl then freezeChannel x
  else
    let t := norm levelMax toLvl
    let f := fadeStart levelMax fromLvl x
    let n := stepCount levelMax freq dur.toNat ((t : Int) - f).natAbs abs
    if t = f ∨ n = 0 then Channel.atLevel t else Channel.fading f t n

/-- `SETLVL ch, level` (R170). -/
def execSetlvl (ch : Byte) (level : Half) (s : State) : Result :=
  .next (onChannels ch (fun _ => Channel.atLevel (norm s.params.levelMax level)) s)

/-- `FADE ch, from, to, dur` (R171). -/
def execFade (ch : Byte) (dur fromLvl toLvl : Half) (s : State) : Result :=
  .next (onChannels ch (fadeOne s.params.levelMax s.mains.freq.toNat fromLvl toLvl dur false) s)

/-- `FADEA ch, from, to, dur` (R172). -/
def execFadea (ch : Byte) (dur fromLvl toLvl : Half) (s : State) : Result :=
  .next (onChannels ch (fadeOne s.params.levelMax s.mains.freq.toNat fromLvl toLvl dur true) s)

/-- The channel's fade ends with the next step: `REMAIN[c]` reaches 0 (R180). -/
def Channel.completes (x : Channel) : Bool := x.remain == 1#32

/-- One fade step of a channel (R180): the last one snaps to the target. -/
def fadeStep (x : Channel) : Channel :=
  if x.remain = 0#32 then x
  else if x.completes then
    { x with
      levelFp := BitVec.ofNat 32 (x.target.toNat * 65536)
      step := 0
      remain := 0 }
  else
    { x with
      levelFp := x.levelFp + x.step
      remain := x.remain - 1 }

/-- The fade part of `ENG_CALC` (R180): every channel's step, and the completions. -/
def advanceFades (s : State) : State :=
  { s with
    chans := s.chans.map fadeStep
    tele.fadeDone := s.tele.fadeDone ||| maskOf s.params.nch fun c => (s.chan c).completes
    tele.fadeDoneLevel :=
      List.zipWith (fun l x => if Channel.completes x then x.target else l) s.tele.fadeDoneLevel s.chans }.raiseIf
    (s.chans.any Channel.completes) .fadeDone

/-- `ENG_CALC` (R180): the fade step, then the rebuild of `SCRATCH` on the new levels. -/
def execEngCalc (s : State) : Result :=
  let t := advanceFades s
  let b := calcSchedule t
  .next { t.raiseIf b.2 .cfgErr with
    sched.scratch := b.1
    eng := .publishPending }

/-- `ENG_PUBLISH` (R181). -/
def execEngPublish (s : State) : Result :=
  let b := s.sched.scratch
  .next { s.raiseIf (b.nzMask != s.tele.chState) .chState with
    sched.next := b
    tele.chState := b.nzMask
    eng := .idle }

end Sys2Proof.Machine
end

