-- ==== Sys2Proof/Machine/Scheduler.lean ====
section
/-! DEFINITION. The half-wave scheduler (41_halfwave_scheduler.md): the meanings of `TICK`, `HW_START` and
`HW_TOGGLE`. -/

namespace Sys2Proof.Machine

/-- `TICK` (R130): both counters advance and wrap. -/
def execTick (s : State) : Result :=
  .next { s with
    time.now := s.time.now + 1
    time.hwTcnt := s.time.hwTcnt + 1 }

/-- The levels a half-wave starts at (R131, R133, R136): a scheduled channel at the level its edge mode gives, any other
at its bit of `nz_mask`. -/
def startLevels (nch : Nat) (b : Buffer) : Byte :=
  maskOf nch fun c => if b.schedules c then !b.lead else b.nzMask.getLsbD c

/-- The leading real entries with tick offset 0 (R134). -/
def zeroEntries (b : Buffer) : List Entry := b.real.takeWhile fun e => e.ticks == 0#16

/-- `HW_START` (R131): the snapshot `ACT <- NEXT` (R132), the initial levels and the tick-zero toggles (R133, R134), the
arming of compare B (R135) and the engine request (R137). -/
def execHwStart (s : State) : Result :=
  let act := s.sched.next
  let zeros := zeroEntries act
  let more := decide (zeros.length < act.count.toNat)
  .next { s with
    time.cmpaEn := false
    time.hwTcnt := 0
    time.ocrb := if more then (act.slot zeros.length).ticks else s.time.ocrb
    time.cmpbEn := more
    sched.act := act
    sched.idx := BitVec.ofNat 4 zeros.length
    out := toggleAll zeros (startLevels s.params.nch act)
    eng := if s.eng = .idle then .calcPending else s.eng }

/-- The entries `HW_TOGGLE` toggles in one event: from position `IDX` on, those with the tick offset of the first
(R138). -/
def toggleGroup (rest : List Entry) : List Entry :=
  match rest with
  | [] => []
  | e :: es => e :: es.takeWhile fun x => x.ticks == e.ticks

/-- The re-arm value of compare B (R139): the next offset, or `MIN_LEAD` ticks ahead of the counter, mod 2^16. -/
def rearmValue (p : Params) (next hwTcnt : Half) : Half :=
  BitVec.ofNat 16 (max next.toNat (hwTcnt.toNat + p.minLead))

/-- `HW_TOGGLE` (R138). -/
def execHwToggle (s : State) : Result :=
  let act := s.sched.act
  if act.count.toNat ≤ s.sched.idx.toNat then .next { s with time.cmpbEn := false }
  else
    let group := toggleGroup (act.real.drop s.sched.idx.toNat)
    let idx := s.sched.idx.toNat + group.length
    let more := decide (idx < act.count.toNat)
    .next { s with
      out := toggleAll group s.out
      sched.idx := BitVec.ofNat 4 idx
      time.ocrb := if more then rearmValue s.params (act.slot idx).ticks s.time.hwTcnt else s.time.ocrb
      time.cmpbEn := if more then s.time.cmpbEn else false }

end Sys2Proof.Machine
end

