-- ==== Sys2Proof/Machine/Dispatch.lean ====
section
/-! DEFINITION. The meaning of each operation of 00_scope.md R9, one arm per constructor. -/

namespace Sys2Proof.Machine

/-- The outcome of one operation. The event operations' due conditions are Machine/Slots.lean's. -/
def exec (i : Instr) (s : State) : Host.Outcome State Fault Refusal :=
  match i with
  | .setlvl ch level => Sys2Proof.Machine.execSetlvl ch level s
  | .fade ch dur fromLvl toLvl => Sys2Proof.Machine.execFade ch dur fromLvl toLvl s
  | .fadea ch dur fromLvl toLvl => Sys2Proof.Machine.execFadea ch dur fromLvl toLvl s
  | .setmode mode => Sys2Proof.Machine.execSetmode mode s
  | .setfreq imm => Sys2Proof.Machine.execSetfreq imm s
  | .start => Sys2Proof.Machine.execStart s
  | .ack mask => Sys2Proof.Machine.execAck mask s
  | .wreg reg value => Sys2Proof.Machine.execWreg reg value s
  | .rreg reg => Sys2Proof.Machine.execRreg reg s
  | .tick => Sys2Proof.Machine.execTick s
  | .hwStart => Sys2Proof.Machine.execHwStart s
  | .hwToggle => Sys2Proof.Machine.execHwToggle s
  | .zcEdge => Sys2Proof.Machine.execZcEdge s
  | .measTimeout => Sys2Proof.Machine.execMeasTimeout s
  | .engCalc => Sys2Proof.Machine.execEngCalc s
  | .engPublish => Sys2Proof.Machine.execEngPublish s

end Sys2Proof.Machine
end

