-- ==== Sys2Proof/Machine/Slots.lean ====
section
/-! DEFINITION. One tick: the due conditions of the event operations (30_encoding.md R95, 60_exceptions.md R262), the eight
slots in their order, the host command of slot 8, and reset (70_reset_and_hazards.md R280). -/

namespace Sys2Proof.Machine

/-- Compare A matches (R23): `HW_START` is due. -/
def startDue (s : State) : Bool := s.time.cmpaEn && s.time.hwTcnt == s.time.ocra

/-- Compare B matches (R23): `HW_TOGGLE` is due. -/
def toggleDue (s : State) : Bool := s.time.cmpbEn && s.time.hwTcnt == s.time.ocrb

/-- `MEAS_TIMEOUT` is due (R206). -/
def timeoutDue (s : State) : Bool :=
  s.phase == .measuring && decide (s.params.measTimeout ≤ elapsed s.time.now s.meas.t0)

/-- `ENG_CALC` is due (R182). -/
def calcDue (s : State) (calcGo : Bool) : Bool :=
  s.eng == .calcPending && (s.params.engSched == .eager || calcGo)

/-- `ENG_PUBLISH` is due (R182). -/
def publishDue (s : State) (pubGo : Bool) : Bool :=
  s.eng == .publishPending && (s.params.engSched == .eager || pubGo)

/-- A slot: run the operation when it is due, else do nothing (R262). -/
def slot (due : Bool) (i : Instr) (s : State) : Result := if due then exec i s else .next s

/-- Slot 4: the edge detector, then `ZC_EDGE` if it fires (R110). -/
def edgeSlot (zc : Bool) (s : State) : Result := slot (edgeSeen s zc) .zcEdge (s.sampleZc zc)

/-- A command word (R88, R89): the operation it decodes to, or `EV_CMD_ERR` for an illegal word. -/
def runCommand (w : CmdWord) (s : State) : Result :=
  match decodeCmd w with
  | .ok i => exec i s
  | .error _ => .next (s.raise .cmdErr)

/-- Slot 8: the command, if there is one. `RVALID` is 0 unless the command is an accepted `RREG` (R38, R262). -/
def commandSlot (cmd : Option CmdWord) (s : State) : Result :=
  let t := { s with port.rvalid := false }
  match cmd with
  | none => .next t
  | some w => runCommand w t

/-- Slots 1 to 7 of the tick (R262), each on the state the slots before it left. -/
def eventSlots (i : TickInput) (s : State) : Result :=
  andThen (exec .tick s) fun s1 =>
  andThen (slot (startDue s1) .hwStart s1) fun s2 =>
  andThen (slot (toggleDue s2) .hwToggle s2) fun s3 =>
  andThen (edgeSlot i.zc s3) fun s4 =>
  andThen (slot (timeoutDue s4) .measTimeout s4) fun s5 =>
  andThen (slot (calcDue s5 i.calcGo) .engCalc s5) fun s6 =>
  slot (publishDue s6 i.pubGo) .engPublish s6

/-- `Tick(zc, cmd, calc_go, pub_go)` (R10): the eight slots of R262. -/
def tick (i : TickInput) (s : State) : Result := andThen (eventSlots i s) (commandSlot i.cmd)

/-- Reset (R280): every piece of state takes its reset value; the parameters and what the world outside will do stay. -/
def State.resetBlock (s : State) : State :=
  { State.resetWith s.params with inputs := s.inputs, freeIdx := s.freeIdx }

/-- One rising edge of `CLK_TICK` with the port samples `i`: while `RST` = 1 no `Tick` runs (R280). -/
def clockEdge (i : TickInput) (s : State) : Result := if i.rst then .next s.resetBlock else tick i s

/-- Samples that raise no event by themselves: no reset, no edge, no command, the engine held. -/
def State.quietInput (s : State) : TickInput where
  rst := false
  zc := Bool.xor s.sync.zcPrev s.params.zcPolInv
  cmd := none
  calcGo := false
  pubGo := false

/-- Put samples where the next step takes its samples from. -/
def State.withInput (s : State) (i : TickInput) : State := { s with inputs := i :: s.inputs.tail }

/-- The state in which the next tick runs the operation: a command word is on the command port, an event operation's
due condition (R95) holds at its slot (notes/assumptions/7.md). -/
def State.presenting (s : State) (c : Code) : State :=
  match c with
  | .cmd w => s.withInput { s.quietInput with cmd := some w }
  | .evt e =>
    match decodeEvent e with
    | .ok .hwStart =>
      { s.withInput s.quietInput with
        time.cmpaEn := true
        time.ocra := s.time.hwTcnt + 1 }
    | .ok .hwToggle =>
      { s.withInput s.quietInput with
        time.cmpaEn := false
        time.cmpbEn := true
        time.ocrb := s.time.hwTcnt + 1 }
    | .ok .zcEdge =>
      { s.withInput { s.quietInput with zc := !s.params.zcPolInv } with
        sync.zcPrev := false }
    | .ok .measTimeout =>
      { s.withInput s.quietInput with
        phase := .measuring
        meas.t0 := s.time.now + 1 - BitVec.ofNat 32 s.params.measTimeout }
    | .ok .engCalc =>
      { s.withInput { s.quietInput with calcGo := true } with
        eng := .calcPending }
    | .ok .engPublish =>
      { s.withInput { s.quietInput with pubGo := true } with
        eng := .publishPending }
    | _ => s.withInput s.quietInput

end Sys2Proof.Machine
end

