-- ==== Sys2Proof/Machine/Step.lean ====
section
/-! DEFINITION. The step: one call of `Tick`, or one clock edge under reset (00_scope.md R10, 70_reset_and_hazards.md
R280). -/

namespace Sys2Proof.Machine

/-- One step takes the next port samples and runs one clock edge. -/
def step (s : State) : Host.Outcome State Fault Refusal := clockEdge s.nextInput s.popInput

/-- The state in which the next step runs the operation with these bits: `nbits` = 64 for a command word, 8 for an event
code, bit 0 the least significant (notes/assumptions/7.md). Other bits are no operation and leave the state as it is. -/
def State.withFetchWord (s : State) (nbits w : Nat) : State :=
  match codeOfTable nbits w with
  | some c => s.presenting c
  | none => s

end Sys2Proof.Machine
end

