-- ==== Sys2Proof/Safety.lean ====
section
/-! DEFINITION. What a state of a safe run is: the invariants of 10_state.md R42 and R31, 43_fading_engine.md R184, and
the bounds of the state's own rules, each a decidable predicate; and the profile of a half-wave
(41_halfwave_scheduler.md R140). -/

namespace Sys2Proof.Machine

/-- A schedule buffer is well-formed (R31): its slots are there, the channels of the real entries are distinct and below
`NCH`, the tick offsets non-decreasing, the channel of a real entry has its bit of `nz_mask`, every slot from `count` on
is the sentinel, and bits `NCH..7` of `nz_mask` are 0. -/
abbrev Buffer.WellFormed (nch : Nat) (b : Buffer) : Prop :=
  b.count.toNat ≤ nch ∧
  b.entry.length = nch + 1 ∧
  (b.real.map Entry.ch).Nodup ∧
  (∀ e ∈ b.real, e.ch.toNat < nch) ∧
  b.real.Pairwise (fun x y => x.ticks ≤ y.ticks) ∧
  (∀ e ∈ b.real, b.nzMask.getLsbD e.ch.toNat = true) ∧
  b.entry.drop b.count.toNat = List.replicate (nch + 1 - b.count.toNat) Entry.sentinel ∧
  b.nzMask.toNat < 2 ^ nch

/-- The parameters are legal (00_scope.md R6) and every array has its number of elements (R29, R35, R36); the pins of
channels that do not exist are 0 (R30). -/
abbrev State.ShapeOk (s : State) : Prop :=
  s.params.Legal ∧
  s.chans.length = s.params.nch ∧
  s.tele.fadeDoneLevel.length = s.params.nch ∧
  s.meas.buf.length = s.params.measNSamples ∧
  s.out.toNat < 2 ^ s.params.nch

/-- The three schedule buffers are well-formed (R42 (d)), `IDX <= ACT.count` (R42 (e)), and compare B is armed only while
an entry remains (41_halfwave_scheduler.md R135). -/
abbrev State.SchedulesOk (s : State) : Prop :=
  s.sched.act.WellFormed s.params.nch ∧
  s.sched.next.WellFormed s.params.nch ∧
  s.sched.scratch.WellFormed s.params.nch ∧
  s.sched.idx.toNat ≤ s.sched.act.count.toNat ∧
  (s.time.cmpbEn = true → s.sched.idx.toNat < s.sched.act.count.toNat)

/-- R42 (a): outside `RUNNING` nothing is armed, nothing is on, nothing is scheduled and the engine is idle. -/
abbrev State.StoppedOk (s : State) : Prop :=
  s.phase ≠ .running →
    s.time.cmpaEn = false ∧ s.time.cmpbEn = false ∧ s.out = 0#8 ∧ s.eng = .idle ∧
    s.sched.act = Buffer.empty s.params.nch ∧ s.sched.next = Buffer.empty s.params.nch

/-- R42 (b), (c): a running block has a valid frequency, and `H_TICKS = 0` exactly when `FREQ = 0`; an override is a valid
frequency, and no override is set while a measurement runs (R225, R226). -/
abbrev State.FreqOk (s : State) : Prop :=
  (s.phase = .running → s.mains.freq ≠ 0#32) ∧
  (s.mains.hTicks = 0#16 ↔ s.mains.freq = 0#32) ∧
  (s.mains.freqOvr = true → s.mains.freq ≠ 0#32) ∧
  (s.phase = .measuring → s.mains.freqOvr = false)

/-- A channel's level and fade stay in range (R42 (f), (g), R184): the level is now, and will be when the fade's remaining
steps are added, in `[0, LEVEL_MAX]`, the target is, and a channel that is not fading has an integer level and no step. -/
abbrev Channel.InRange (levelMax : Nat) (x : Channel) : Prop :=
  (0 ≤ x.levelFp.toInt ∧ x.levelFp.toInt ≤ levelMax * 65536) ∧
  (0 ≤ x.levelFp.toInt + x.remain.toNat * x.step.toInt ∧
    x.levelFp.toInt + x.remain.toNat * x.step.toInt ≤ levelMax * 65536) ∧
  x.target.toNat ≤ levelMax ∧
  (x.remain = 0#32 → x.levelFp.toNat % 65536 = 0 ∧ x.step = 0#32)

/-- Every channel's level and fade stay in range (R42 (f), (g), R184). -/
abbrev State.LevelsOk (s : State) : Prop := ∀ x ∈ s.chans, x.InRange s.params.levelMax

/-- The configuration registers hold legal values (R37); bit 7 of `EVT_PENDING` is 0 (60_exceptions.md R250); the masks
`CH_STATE` and `FADE_DONE` have no bit of a channel that does not exist (R35). -/
abbrev State.RegsOk (s : State) : Prop :=
  s.cfg.syncDev.toNat ≤ 100 ∧
  s.cfg.rangeBegin.toNat ≤ s.params.levelMax ∧
  s.tele.evtPending.getLsbD 7 = false ∧
  s.tele.chState.toNat < 2 ^ s.params.nch ∧
  s.tele.fadeDone.toNat < 2 ^ s.params.nch

/-- The invariant of the machine: what every state reachable from reset satisfies (R42). -/
structure State.Inv (s : State) : Prop where
  /-- The parameters are legal and the arrays complete. -/
  shape : s.ShapeOk
  /-- R42 (d), (e). -/
  schedules : s.SchedulesOk
  /-- R42 (a). -/
  stopped : s.StoppedOk
  /-- R42 (b), (c). -/
  freq : s.FreqOk
  /-- R42 (f), (g). -/
  levels : s.LevelsOk
  /-- R37, R35, R250. -/
  regs : s.RegsOk

/-- The number of real entries of a buffer whose tick offset is at most `k`. -/
def Buffer.passed (b : Buffer) (k : Nat) : Nat := (b.real.filter fun e => decide (e.ticks.toNat ≤ k)).length

/-- The profile of a half-wave (R140): at the tick `HW_TCNT` of the half-wave, a channel with an entry is at its initial
level before its offset and at the opposite level from it on, a channel without an entry holds its `nz_mask` bit, `IDX` is
the number of entries passed, and compare B is armed at the next offset while one remains. -/
abbrev State.HalfWaveProfile (s : State) : Prop :=
  (∀ e ∈ s.sched.act.real,
    s.out.getLsbD e.ch.toNat = if e.ticks.toNat ≤ s.time.hwTcnt.toNat then s.sched.act.lead else !s.sched.act.lead) ∧
  (∀ c < s.params.nch, s.sched.act.schedules c = false → s.out.getLsbD c = s.sched.act.nzMask.getLsbD c) ∧
  s.sched.idx.toNat = s.sched.act.passed s.time.hwTcnt.toNat ∧
  (s.time.cmpbEn = decide (s.sched.idx.toNat < s.sched.act.count.toNat)) ∧
  (s.time.cmpbEn = true → s.time.ocrb = (s.sched.act.slot s.sched.idx.toNat).ticks)

end Sys2Proof.Machine
end

