-- ==== Sys2Proof/Certificates/Slice0/Obligations.lean ====
section
/-! DEFINITION. The statements for the provers. The helpers of `Sys2Proof.Spec` write a formula of spec/ a second time,
independently of the model, for the statements to use. -/

namespace Sys2Proof.Spec

open Sys2Proof.Machine

/-- The match/mask pairs of 30_encoding.md R87, as (mask, match). -/
def commandRows : List (CmdWord × CmdWord) :=
  [(0xFF00FFFFFFFF0000#64, 0x0100000000000000#64), (0xFF00000000000000#64, 0x0200000000000000#64),
   (0xFF00000000000000#64, 0x0300000000000000#64), (0xFFFFFFFFFFFFFFFE#64, 0x0400000000000000#64),
   (0xFFFFFFFF00000000#64, 0x0500000000000000#64), (0xFFFFFFFFFFFFFFFF#64, 0x0600000000000000#64),
   (0xFFFFFFFFFFFFFF00#64, 0x0700000000000000#64), (0xFF00FFFF00000000#64, 0x0800000000000000#64),
   (0xFF00FFFFFFFFFFFF#64, 0x0900000000000000#64)]

/-- An illegal command word (R88): (a), (b) it passes the match/mask test of no row; (c) its format has a `ch` field
(opcodes 1, 2, 3) and `ch`, bits 55:48, is neither below `NCH` nor 0xFF. -/
def IllegalWord (nch : Nat) (w : CmdWord) : Prop :=
  (∀ r ∈ commandRows, w &&& r.1 ≠ r.2) ∨
  ((w.toNat / 2 ^ 56 = 1 ∨ w.toNat / 2 ^ 56 = 2 ∨ w.toNat / 2 ^ 56 = 3) ∧
    nch ≤ w.toNat / 2 ^ 48 % 256 ∧ w.toNat / 2 ^ 48 % 256 ≠ 0xFF)

/-- `norm(x) = clamp(s16(x), 0, LEVEL_MAX)` (R177). -/
def normLevel (levelMax : Nat) (x : Half) : Nat := (max 0 (min x.toInt levelMax)).toNat

/-- The step count of R176 as `floor((2*NUM + DEN) / (2*DEN))`, saturated to 32 bits. With `FREQ` = 0 it is 0. -/
def stepCount (levelMax freq dur d : Nat) (abs : Bool) : Nat :=
  let num := if abs then freq * dur * 20 else freq * dur * 20 * d
  let den := if abs then 1000000 else 1000000 * levelMax
  min ((2 * num + den) / (2 * den)) (2 ^ 32 - 1)

/-- The half-wave length of R150, `floor((F_TICK*1000 + f) / (2*f))`. -/
def halfWave (p : Params) (f : Nat) : Nat := (p.fTick * 1000 + f) / (2 * f)

/-- A usable frequency (R150). -/
def Usable (p : Params) (f : Nat) : Prop := 1 ≤ f ∧ 1 ≤ halfWave p f ∧ halfWave p f ≤ 65535

/-- The channel operand `ch` names channel `c` (R175). -/
def Selects (ch : Byte) (c : Nat) : Prop := ch.toNat = c ∨ ch = 0xFF#8

/-- A channel at the integer level `v`, not fading (R178). -/
def AtLevel (v : Nat) (x : Channel) : Prop :=
  x.levelFp.toNat = v * 65536 ∧ x.step = 0#32 ∧ x.remain = 0#32 ∧ x.target.toNat = v

/-- `REMAIN[c]` counts down: the operation `ENG_CALC` run `n` times, and nothing else. -/
def engCalcs : Nat → State → Result
  | 0, s => .next s
  | n + 1, s => andThen (exec .engCalc s) (engCalcs n)

/-- `ZC_EDGE` at each of a list of times, and nothing else. -/
def edgesAt : List Word → State → Result
  | [], s => .next s
  | n :: ns, s => andThen (exec .zcEdge { s with time.now := n }) (edgesAt ns)

/-- A number of steps, one after the other. -/
def steps : Nat → State → Result
  | 0, s => .next s
  | n + 1, s => andThen (step s) (steps n)

/-- The edge arrives outside the window: `el < HW_MIN` or `HW_MAX < el` (R112). -/
def OutsideWindow (s : State) (now : Word) : Prop :=
  (now - s.sync.lastEdge).toNat < s.sync.hwMin.toNat ∨ s.sync.hwMax.toNat < (now - s.sync.lastEdge).toNat

/-- The channel field is legal (R88 (c)). -/
def LegalChannel (nch : Nat) (ch : Byte) : Prop := ch.toNat < nch ∨ ch = 0xFF#8

/-- Which operation can raise which event, and when (60_exceptions.md R260). -/
def MayRaise (s : State) : Instr → Event → Prop
  | .tick, _ => False
  | .hwStart, _ => False
  | .hwToggle, _ => False
  | .zcEdge, e => (s.phase = .running ∧ e = .syncLost) ∨ (s.phase = .measuring ∧ (e = .freqUpdated ∨ e = .freqInvalid))
  | .measTimeout, e => e = .freqInvalid
  | .engCalc, e => e = .fadeDone ∨ e = .cfgErr
  | .engPublish, e => e = .chState
  | .setlvl ch _, e => e = .cmdErr ∧ ¬ LegalChannel s.params.nch ch
  | .fade ch _ _ _, e => e = .cmdErr ∧ ¬ LegalChannel s.params.nch ch
  | .fadea ch _ _ _, e => e = .cmdErr ∧ ¬ LegalChannel s.params.nch ch
  | .setmode _, _ => False
  | .ack _, _ => False
  | .setfreq _, e => e = .freqUpdated ∨ e = .freqInvalid ∨ e = .cmdErr
  | .start, e => e = .cmdErr
  | .wreg _ _, e => e = .cmdErr
  | .rreg _, e => e = .cmdErr

/-- The deltas of a measurement pass within a window, both ends included (R203, R204). -/
def accepted (lo hi : Nat) (deltas : List Nat) : List Nat := deltas.filter fun x => decide (lo ≤ x ∧ x ≤ hi)

/-- `S1` of R203, with `T1_MIN` and `T1_MAX` of 00_scope.md R6. -/
def s1 (p : Params) (deltas : List Nat) : List Nat :=
  accepted (p.fTick * 1000 / (2 * p.fMaxMhz)) (p.fTick * 1000 / (2 * p.fMinMhz)) deltas

/-- `M1` of R204. -/
def m1 (p : Params) (deltas : List Nat) : Nat := (s1 p deltas).sum / (s1 p deltas).length

/-- `S2` of R204. -/
def s2 (p : Params) (dev : Nat) (deltas : List Nat) : List Nat :=
  accepted (m1 p deltas - m1 p deltas * dev / 100) (m1 p deltas + m1 p deltas * dev / 100) deltas

/-- The measured frequency of R205. -/
def measured (p : Params) (dev : Nat) (deltas : List Nat) : Nat :=
  (p.fTick * 1000 * (s2 p dev deltas).length + (s2 p dev deltas).sum) / (2 * (s2 p dev deltas).sum)

/-- The pass succeeds: both stages keep enough deltas and the frequency is usable (R203 to R205). -/
def PassSucceeds (p : Params) (dev : Nat) (deltas : List Nat) : Prop :=
  p.measMinValid ≤ (s1 p deltas).length ∧ p.measMinValid ≤ (s2 p dev deltas).length ∧
    Usable p (measured p dev deltas)

/-- The writable registers of 45_host_commands.md R229, as (number, largest legal value). -/
def writableRegs (levelMax : Nat) : List (Byte × Nat) :=
  [(0x00#8, 65535), (0x01#8, 65535), (0x02#8, 65535), (0x03#8, 1), (0x04#8, 100), (0x05#8, 65535), (0x06#8, levelMax),
   (0x07#8, 65535), (0x08#8, 1)]

/-- `rescale(L)` of R152, with the mapping off for `CFG_RANGE_DIV` = 0. -/
def rescaled (p : Params) (cfg : CfgRegs) (l : Nat) : Nat :=
  if cfg.rangeDiv = 0#16 then l else min (cfg.rangeBegin.toNat + l * p.levelMax / cfg.rangeDiv.toNat) p.levelMax

/-- How a schedule entry reads (R94), as a number. -/
def entryValue (e : Entry) : Nat := e.ch.toNat * 65536 + e.ticks.toNat

/-- How a `*_META` register reads (R94), as a number. -/
def metaValue (b : Buffer) : Nat := b.nzMask.toNat * 256 + (if b.lead = true then 16 else 0) + b.count.toNat

/-- The numbers of R92 outside the indexed groups, each with the number it reads as; `STATUS` (0x10) is said apart. -/
def singleNumbers (s : State) : List (Byte × Nat) :=
  [(0x00#8, s.cfg.minOn.toNat), (0x01#8, s.cfg.minOff.toNat), (0x02#8, s.cfg.zcDelay.toNat),
   (0x03#8, if s.cfg.mode = true then 1 else 0), (0x04#8, s.cfg.syncDev.toNat), (0x05#8, s.cfg.oosLimit.toNat),
   (0x06#8, s.cfg.rangeBegin.toNat), (0x07#8, s.cfg.rangeDiv.toNat), (0x08#8, if s.cfg.zcValidate = true then 1 else 0),
   (0x11#8, s.tele.evtPending.toNat), (0x12#8, s.mains.freq.toNat), (0x13#8, s.mains.hTicks.toNat),
   (0x14#8, s.sync.hwMin.toNat), (0x15#8, s.sync.hwMax.toNat), (0x16#8, s.sync.invalidCnt.toNat),
   (0x17#8, s.tele.chState.toNat), (0x18#8, s.tele.fadeDone.toNat),
   (0x19#8, (if s.sync.oosDir = true then 65536 else 0) + s.sync.oosCnt.toNat), (0x1A#8, s.out.toNat),
   (0x1B#8, s.time.hwTcnt.toNat), (0x1C#8, s.time.now.toNat), (0x1D#8, s.sync.lastEdge.toNat),
   (0x1E#8, s.time.ocra.toNat), (0x1F#8, s.time.ocrb.toNat), (0x59#8, metaValue s.sched.act),
   (0x69#8, metaValue s.sched.next), (0x79#8, metaValue s.sched.scratch), (0xC0#8, s.meas.cnt.toNat),
   (0xC1#8, s.meas.seen.toNat), (0xC2#8, s.meas.prev.toNat), (0xC3#8, s.meas.t0.toNat)]

/-- The indexed groups of R92: the number of index 0, and the number each member reads as, in index order. -/
def numberGroups (s : State) : List (Nat × List Nat) :=
  let channels := List.range s.params.nch
  let slots := List.range (s.params.nch + 1)
  [(0x20, channels.map fun c => (s.chan c).levelFp.toNat), (0x28, channels.map fun c => (s.chan c).step.toNat),
   (0x30, channels.map fun c => (s.chan c).remain.toNat), (0x38, channels.map fun c => (s.chan c).target.toNat),
   (0x40, channels.map fun c => (s.tele.fadeDoneLevel.getD c 0#16).toNat),
   (0x50, slots.map fun i => entryValue (s.sched.act.slot i)), (0x60, slots.map fun i => entryValue (s.sched.next.slot i)),
   (0x70, slots.map fun i => entryValue (s.sched.scratch.slot i)),
   (0x80, (List.range s.params.measNSamples).map fun i => (s.meas.buf.getD i 0#32).toNat)]

end Sys2Proof.Spec

open Sys2Proof Sys2Proof.Machine

/-! ## Encoding (30_encoding.md) -/

/-- Decoding the encoding of an operation gives the operation back, for every operand value (R81 to R87, R95). -/
def Obligations.EncodeThenDecodeGivesTheOperation : Prop := ∀ i : Instr, decode (encode i) = .ok i

/-- A word or event code that decodes to an operation is that operation's encoding: no other word stands for it (R87,
R88 (b), R95). -/
def Obligations.DecodedCodeIsTheEncoding : Prop := ∀ (c : Code) (i : Instr), decode c = .ok i → encode i = c

/-- R88: an illegal command word changes no state but raises `EV_CMD_ERR` and leaves `RVALID` = 0; every other word is a
well-formed command; no command at all changes only `RVALID`. -/
def Obligations.IllegalCommandOnlyRaisesCmdErr : Prop :=
  ∀ (s : State) (w : CmdWord), s.params.nch ≤ 8 →
    (Spec.IllegalWord s.params.nch w →
      commandSlot (some w) s = .next ({ s with port.rvalid := false }.raise .cmdErr)) ∧
    (¬ Spec.IllegalWord s.params.nch w → ∃ i, decodeCmd w = .ok i ∧ i.wellFormed s.params = true) ∧
    commandSlot none s = .next { s with port.rvalid := false }

/-- Words written out from the formats of R81 to R85 decode to the commands they stand for (95_test_vectors.md 2.1). -/
def Obligations.SpecWordsDecodeToTheirCommands : Prop :=
  decodeTableWord 64 0x0200006480002000 = some (.fade 0#8 100#16 0x8000#16 8192#16) ∧
  decodeTableWord 64 0x010300000000FFFB = some (.setlvl 3#8 0xFFFB#16) ∧
  decodeTableWord 64 0x080200000000012C = some (.wreg 2#8 300#32) ∧
  decodeTableWord 64 0x0600000000000001 = none ∧
  decodeTableWord 8 0x10 = some .measTimeout

/-! ## The tick (60_exceptions.md R262, 70_reset_and_hazards.md R280) -/

/-- A step runs the command on the port: the operation its word decodes to, in the state that slots 1 to 7 of the tick
left, with `RVALID` cleared (R262 slot 8, R89). -/
def Obligations.StepRunsTheDecodedCommand : Prop :=
  ∀ (s : State) (w : CmdWord) (c : Instr),
    s.nextInput.rst = false → s.nextInput.cmd = some w → decodeCmd w = .ok c →
    ∃ t, eventSlots s.nextInput s.popInput = .next t ∧ step s = exec c { t with port.rvalid := false }

/-- R262: the eight slots in their order, each condition evaluated on the state the slots before it left, a slot whose
condition is false doing nothing but, in slot 4, the sampling of `ZC`; after slot 8 `RVALID` is 1 exactly when slot 8 ran an
accepted `RREG`, and `IRQ` is 1 exactly when an event is pending. -/
def Obligations.StepRunsDueOperationsInSlotOrder : Prop :=
  ∀ (s : State) (i : TickInput), s.nextInput = i → i.rst = false →
    ∃ s1 s2 s3 s4 s5 s6 s7,
      exec .tick s.popInput = .next s1 ∧
      (if s1.time.cmpaEn = true ∧ s1.time.hwTcnt = s1.time.ocra then exec .hwStart s1 = .next s2 else s2 = s1) ∧
      (if s2.time.cmpbEn = true ∧ s2.time.hwTcnt = s2.time.ocrb then exec .hwToggle s2 = .next s3 else s3 = s2) ∧
      (let zs := Bool.xor i.zc s3.params.zcPolInv
       if s3.sync.zcPrev = false ∧ zs = true then exec .zcEdge { s3 with sync.zcPrev := zs } = .next s4
       else s4 = { s3 with sync.zcPrev := zs }) ∧
      (if s4.phase = .measuring ∧ s4.params.measTimeout ≤ (s4.time.now - s4.meas.t0).toNat
        then exec .measTimeout s4 = .next s5 else s5 = s4) ∧
      (if s5.eng = .calcPending ∧ (s5.params.engSched = .eager ∨ i.calcGo = true)
        then exec .engCalc s5 = .next s6 else s6 = s5) ∧
      (if s6.eng = .publishPending ∧ (s6.params.engSched = .eager ∨ i.pubGo = true)
        then exec .engPublish s6 = .next s7 else s7 = s6) ∧
      (match i.cmd with
        | none => step s = .next { s7 with port.rvalid := false }
        | some w =>
          match decodeCmd w with
          | .ok c => step s = exec c { s7 with port.rvalid := false }
          | .error _ => step s = .next ({ s7 with port.rvalid := false }.raise .cmdErr)) ∧
      ∃ t, step s = .next t ∧
        (t.port.rvalid = true ↔
          ∃ w r, i.cmd = some w ∧ decodeCmd w = .ok (.rreg r) ∧ (s7.regRead r).isSome = true) ∧
        (t.irq = true ↔ t.tele.evtPending ≠ 0#8)

/-- For every state and every input a tick gives a next state, and so does every operation in every state
(93_implementation_defined.md, section 1; R10). -/
def Obligations.EveryStepAndOperationGivesANextState : Prop :=
  (∀ (i : Instr) (s : State), ∃ t, exec i s = .next t) ∧ ∀ s : State, ∃ t, step s = .next t

/-- R43: after reset every piece of state is 0, every buffer empty, `PHASE` is `IDLE`, but `ZC_PREV` is 1; this for every
parameter set. -/
def Obligations.ResetLeavesTheResetValues : Prop :=
  ∀ (p : Params) (s : State), s = State.resetWith p →
    (s.time.now = 0 ∧ s.time.hwTcnt = 0 ∧ s.time.ocra = 0 ∧ s.time.ocrb = 0 ∧ s.time.cmpaEn = false ∧
      s.time.cmpbEn = false) ∧
    s.phase = .idle ∧
    (s.sync.zcPrev = true ∧ s.sync.lastEdge = 0 ∧ s.sync.lastEdgeValid = false ∧ s.sync.invalidCnt = 0 ∧
      s.sync.hwMin = 0 ∧ s.sync.hwMax = 0 ∧ s.sync.oosCnt = 0 ∧ s.sync.oosDir = false) ∧
    (s.mains.freq = 0 ∧ s.mains.freqOvr = false ∧ s.mains.hTicks = 0) ∧
    (s.chans.length = p.nch ∧ ∀ x ∈ s.chans, x.levelFp = 0 ∧ x.step = 0 ∧ x.remain = 0 ∧ x.target = 0) ∧
    s.out = 0 ∧
    (∀ b, b = s.sched.act ∨ b = s.sched.next ∨ b = s.sched.scratch →
      b.count = 0 ∧ b.nzMask = 0 ∧ b.lead = false ∧ b.entry.length = p.nch + 1 ∧
        ∀ e ∈ b.entry, e.ch = 0xFF#8 ∧ e.ticks = 0) ∧
    s.sched.idx = 0 ∧ s.eng = .idle ∧
    (s.tele.evtPending = 0 ∧ s.tele.chState = 0 ∧ s.tele.fadeDone = 0 ∧ s.tele.fadeDoneLevel.length = p.nch ∧
      ∀ l ∈ s.tele.fadeDoneLevel, l = 0) ∧
    (s.meas.cnt = 0 ∧ s.meas.seen = 0 ∧ s.meas.prev = 0 ∧ s.meas.t0 = 0 ∧ s.meas.buf.length = p.measNSamples ∧
      ∀ d ∈ s.meas.buf, d = 0) ∧
    (s.cfg.minOn = 0 ∧ s.cfg.minOff = 0 ∧ s.cfg.zcDelay = 0 ∧ s.cfg.mode = false ∧ s.cfg.syncDev = 0 ∧
      s.cfg.oosLimit = 0 ∧ s.cfg.rangeBegin = 0 ∧ s.cfg.rangeDiv = 0 ∧ s.cfg.zcValidate = false) ∧
    s.port.rdata = 0 ∧ s.port.rvalid = false ∧ s.irq = false

/-- R280: a step with `RST` = 1 runs no tick and leaves exactly the reset values. That the parameters and the inputs to come
outlive a reset, and that the machine starts with the default parameters, is the model's choice (notes/assumptions/1.md, 3.md). -/
def Obligations.ResetStepRunsNoTick : Prop :=
  State.reset = State.resetWith Params.default ∧
  ∀ s : State, s.nextInput.rst = true →
    step s = .next { State.resetWith s.params with inputs := s.popInput.inputs, freeIdx := s.popInput.freeIdx }

/-- The invariant holds right after reset, for every legal parameter set (R42, R43). -/
def Obligations.ResetSatisfiesTheInvariant : Prop := ∀ p : Params, p.Legal → (State.resetWith p).Inv

/-- Every step from a state that satisfies the invariant (R42, R31, R184) leads to one that does, whatever the port
samples. -/
def Obligations.StepKeepsTheInvariant : Prop := ∀ s t : State, s.Inv → step s = .next t → t.Inv

/-- R282 and 95_test_vectors.md 2.9 for `IDLE`, R111 with R42 (a) and R262 for `HALTED`: in either phase a tick with no command
changes `NOW`, `HW_TCNT`, `ZC_PREV` and `RVALID`, and nothing else, whatever the `ZC` input. -/
def Obligations.StoppedBlockOnlyCounts : Prop :=
  ∀ s : State, s.StoppedOk → (s.phase = .idle ∨ s.phase = .halted) →
    s.nextInput.rst = false → s.nextInput.cmd = none →
    step s = .next { s.popInput with
      time.now := s.time.now + 1
      time.hwTcnt := s.time.hwTcnt + 1
      sync.zcPrev := Bool.xor s.nextInput.zc s.params.zcPolInv
      port.rvalid := false }

/-- R38: a tick whose command is an accepted `RREG`, one of a number mapped at the end of slot 7, leaves the register's value
there in `RDATA` and `RVALID` = 1; every other tick leaves `RDATA` as it was and `RVALID` = 0; both reset to 0. -/
def Obligations.ReadPortHoldsTheLastAcceptedRead : Prop :=
  (∀ s t : State, s.nextInput.rst = false → step s = .next t →
    ∃ u, eventSlots s.nextInput s.popInput = .next u ∧
      (∀ w r v, s.nextInput.cmd = some w → decodeCmd w = .ok (.rreg r) → u.regRead r = some v →
        t.port.rdata = v ∧ t.port.rvalid = true) ∧
      ((∀ w r, s.nextInput.cmd = some w → decodeCmd w = .ok (.rreg r) → u.regRead r = none) →
        t.port.rdata = s.port.rdata ∧ t.port.rvalid = false)) ∧
  ∀ p : Params, (State.resetWith p).port.rdata = 0#32 ∧ (State.resetWith p).port.rvalid = false

/-! ## The scheduler (41_halfwave_scheduler.md) -/

/-- R130: `TICK` advances `NOW` mod 2^32 and `HW_TCNT` mod 2^16 and writes nothing else. -/
def Obligations.TickAdvancesBothCounters : Prop :=
  ∀ s : State, ∃ t, exec .tick s = .next t ∧
    t.time.now.toNat = (s.time.now.toNat + 1) % 2 ^ 32 ∧ t.time.hwTcnt.toNat = (s.time.hwTcnt.toNat + 1) % 2 ^ 16 ∧
    t = { s with time.now := t.time.now, time.hwTcnt := t.time.hwTcnt }

/-- R131 to R137: `HW_START` copies `NEXT` to `ACT`, zeroes `HW_TCNT`, drives every pin (a channel with a tick-zero entry at
the level opposite to its initial one, one with a later entry at its initial one, any other at its `nz_mask` bit), sets
`IDX` to the number of tick-zero entries, arms or cancels compare B, requests the engine if it is idle, and changes nothing
else. -/
def Obligations.HwStartBeginsTheHalfWave : Prop :=
  ∀ s : State, s.params.Legal → s.sched.next.WellFormed s.params.nch →
    ∃ t, exec .hwStart s = .next t ∧
      t = { s with time := t.time, sched := t.sched, out := t.out, eng := t.eng } ∧
      (t.time.now = s.time.now ∧ t.time.ocra = s.time.ocra ∧ t.time.cmpaEn = false ∧ t.time.hwTcnt = 0#16) ∧
      (t.sched.act = s.sched.next ∧ t.sched.next = s.sched.next ∧ t.sched.scratch = s.sched.scratch) ∧
      (∀ e ∈ t.sched.act.real,
        t.out.getLsbD e.ch.toNat = if e.ticks = 0#16 then t.sched.act.lead else !t.sched.act.lead) ∧
      (∀ c < s.params.nch, (∀ e ∈ t.sched.act.real, e.ch.toNat ≠ c) →
        t.out.getLsbD c = t.sched.act.nzMask.getLsbD c) ∧
      (∀ c, s.params.nch ≤ c → t.out.getLsbD c = false) ∧
      t.sched.idx.toNat = (t.sched.act.real.filter fun e => e.ticks == 0#16).length ∧
      (if t.sched.idx.toNat < t.sched.act.count.toNat
        then t.time.cmpbEn = true ∧ t.time.ocrb = (t.sched.act.slot t.sched.idx.toNat).ticks ∧ t.time.ocrb ≠ 0#16
        else t.time.cmpbEn = false ∧ t.time.ocrb = s.time.ocrb) ∧
      t.eng = if s.eng = .idle then .calcPending else s.eng

/-- R138, R139: `HW_TOGGLE` with an entry left toggles, in one event, the channels of all entries from `IDX` on that have the
offset of the entry at `IDX`, moves `IDX` past them, and re-arms compare B at `max(next offset, HW_TCNT + MIN_LEAD)` mod
2^16, or cancels it when no entry is left; nothing else changes. -/
def Obligations.HwToggleTogglesOneOffset : Prop :=
  ∀ s : State, s.params.Legal → s.sched.act.WellFormed s.params.nch →
    s.sched.idx.toNat < s.sched.act.count.toNat →
    ∃ t, exec .hwToggle s = .next t ∧
      t = { s with time := t.time, sched.idx := t.sched.idx, out := t.out } ∧
      (t.time.now = s.time.now ∧ t.time.hwTcnt = s.time.hwTcnt ∧ t.time.ocra = s.time.ocra ∧
        t.time.cmpaEn = s.time.cmpaEn) ∧
      s.sched.idx.toNat < t.sched.idx.toNat ∧ t.sched.idx.toNat ≤ s.sched.act.count.toNat ∧
      (∀ j, s.sched.idx.toNat ≤ j → j < s.sched.act.count.toNat →
        ((s.sched.act.slot j).ticks = (s.sched.act.slot s.sched.idx.toNat).ticks ↔ j < t.sched.idx.toNat)) ∧
      (∀ c < 8,
        ((∃ j, s.sched.idx.toNat ≤ j ∧ j < t.sched.idx.toNat ∧ (s.sched.act.slot j).ch.toNat = c) →
          t.out.getLsbD c = !s.out.getLsbD c) ∧
        ((∀ j, s.sched.idx.toNat ≤ j → j < t.sched.idx.toNat → (s.sched.act.slot j).ch.toNat ≠ c) →
          t.out.getLsbD c = s.out.getLsbD c)) ∧
      (if t.sched.idx.toNat < s.sched.act.count.toNat
        then t.time.cmpbEn = s.time.cmpbEn ∧
          t.time.ocrb.toNat = max (s.sched.act.slot t.sched.idx.toNat).ticks.toNat
            (s.time.hwTcnt.toNat + s.params.minLead) % 2 ^ 16
        else t.time.cmpbEn = false ∧ t.time.ocrb = s.time.ocrb)

/-- R138, first line: `HW_TOGGLE` with no entry left cancels compare B and changes nothing else. -/
def Obligations.HwToggleWithNothingLeftCancelsCompareB : Prop :=
  ∀ s : State, s.sched.act.count.toNat ≤ s.sched.idx.toNat →
    exec .hwToggle s = .next { s with time.cmpbEn := false }

/-- R140: `HW_START` begins the half-wave's profile. -/
def Obligations.HwStartBeginsTheProfile : Prop :=
  ∀ s t : State, s.params.Legal → s.sched.next.WellFormed s.params.nch → exec .hwStart s = .next t →
    t.HalfWaveProfile

/-- R140: with `MIN_LEAD` = 1 every step keeps the profile of the half-wave, so a channel with offset `k` is at its initial
level in the first `k` ticks and at the opposite one from then to the next `HW_START`; the step may start the next
half-wave, lose synchronisation or be a reset. -/
def Obligations.StepKeepsTheHalfWaveProfile : Prop :=
  ∀ s t : State, s.Inv → s.params.minLead = 1 → s.time.hwTcnt ≠ 65535#16 → s.HalfWaveProfile → step s = .next t →
    t.HalfWaveProfile

/-- R70, R71: the schedule in use is never torn. After a step without reset `ACT` is what it was, or the whole of what
`NEXT` was and then only in a step whose compare A matched, or empty; `NEXT` is what it was, or the whole of `SCRATCH`, or
empty. -/
def Obligations.ScheduleBuffersAreNeverTorn : Prop :=
  ∀ s t : State, s.nextInput.rst = false → step s = .next t →
    (t.sched.act = s.sched.act ∨
      (t.sched.act = s.sched.next ∧ s.time.cmpaEn = true ∧ s.time.hwTcnt + 1 = s.time.ocra) ∨
      t.sched.act = Buffer.empty s.params.nch) ∧
    (t.sched.next = s.sched.next ∨ t.sched.next = t.sched.scratch ∨ t.sched.next = Buffer.empty s.params.nch)

/-! ## The synchronizer (40_zc_synchronizer.md) -/

/-- R111: in `IDLE` and `HALTED` an edge does nothing at all. -/
def Obligations.EdgeIsIgnoredWhenStopped : Prop :=
  ∀ s : State, (s.phase = .idle ∨ s.phase = .halted) → exec .zcEdge s = .next s

/-- R112, R113: in `RUNNING` an edge is accepted when validation is off, or when there is a reference edge and the elapsed
ticks lie in the window, ends included; it clears `INVALID_CNT`, becomes the reference, and arms compare A
`CFG_ZC_DELAY + ZC_CORR` ticks ahead mod 2^16. -/
def Obligations.AcceptedEdgeArmsCompareA : Prop :=
  ∀ s : State, s.phase = .running →
    (s.cfg.zcValidate = false ∨
      (s.sync.lastEdgeValid = true ∧ s.sync.hwMin.toNat ≤ (s.time.now - s.sync.lastEdge).toNat ∧
        (s.time.now - s.sync.lastEdge).toNat ≤ s.sync.hwMax.toNat)) →
    ∃ t, exec .zcEdge s = .next t ∧
      t.time.ocra.toNat = (s.time.hwTcnt.toNat + s.cfg.zcDelay.toNat + s.params.zcCorr) % 2 ^ 16 ∧
      t = { s with
        sync.invalidCnt := 0
        sync.lastEdge := s.time.now
        sync.lastEdgeValid := true
        time.ocra := t.time.ocra
        time.cmpaEn := true }

/-- R112, R114: with validation on and no reference edge, an edge in `RUNNING` only becomes the reference. -/
def Obligations.SeedEdgeOnlyBecomesTheReference : Prop :=
  ∀ s : State, s.phase = .running → s.cfg.zcValidate = true → s.sync.lastEdgeValid = false →
    exec .zcEdge s = .next { s with
      sync.lastEdge := s.time.now
      sync.lastEdgeValid := true }

/-- R112, R115: an edge outside the window that leaves `INVALID_CNT` below the limit is counted, saturating, and its
direction noted; nothing else changes. -/
def Obligations.RejectedEdgeIsOnlyCounted : Prop :=
  ∀ s : State, s.phase = .running → s.cfg.zcValidate = true → s.sync.lastEdgeValid = true →
    Spec.OutsideWindow s s.time.now → min (s.sync.invalidCnt.toNat + 1) 65535 < s.cfg.oosLimit.toNat →
    ∃ t, exec .zcEdge s = .next t ∧
      t.sync.invalidCnt.toNat = min (s.sync.invalidCnt.toNat + 1) 65535 ∧
      (t.sync.oosDir = true ↔ s.sync.hwMax.toNat < (s.time.now - s.sync.lastEdge).toNat) ∧
      t = { s with
        sync.invalidCnt := t.sync.invalidCnt
        sync.oosDir := t.sync.oosDir }

/-- R115, R116: an edge outside the window that brings `INVALID_CNT` to the limit loses synchronisation: the counter is
saved, both compares cancelled, every channel off, `ACT` and `NEXT` emptied, the engine dropped, a measured frequency
invalidated and an override kept, `PHASE` is `HALTED` and `EV_SYNC_LOST` is raised; nothing else changes. -/
def Obligations.RejectedEdgeAtTheLimitLosesSync : Prop :=
  ∀ s : State, s.phase = .running → s.cfg.zcValidate = true → s.sync.lastEdgeValid = true →
    Spec.OutsideWindow s s.time.now → s.cfg.oosLimit.toNat ≤ min (s.sync.invalidCnt.toNat + 1) 65535 →
    ∃ t, exec .zcEdge s = .next t ∧
      t.sync.invalidCnt.toNat = min (s.sync.invalidCnt.toNat + 1) 65535 ∧
      (t.sync.oosDir = true ↔ s.sync.hwMax.toNat < (s.time.now - s.sync.lastEdge).toNat) ∧
      t.sync.oosCnt = t.sync.invalidCnt ∧
      t.tele.evtPending = s.tele.evtPending ||| 0x04#8 ∧
      (if s.mains.freqOvr = true then t.mains = s.mains
        else t.mains.freq = 0#32 ∧ t.mains.hTicks = 0#16 ∧ t.mains.freqOvr = false) ∧
      t = { s with
        sync.invalidCnt := t.sync.invalidCnt
        sync.oosDir := t.sync.oosDir
        sync.oosCnt := t.sync.oosCnt
        time.cmpaEn := false
        time.cmpbEn := false
        out := 0#8
        sched.act := Buffer.empty s.params.nch
        sched.next := Buffer.empty s.params.nch
        sched.idx := 0
        eng := .idle
        mains := t.mains
        phase := .halted
        tele.evtPending := t.tele.evtPending }

/-- R119: with the limit `L >= 1`, a running block whose count is 0 is still running, with the count `n`, after `n < L`
consecutive edges outside the window, and has halted, with `OOS_CNT = L` and `EV_SYNC_LOST` pending, after `L` of them or
more. -/
def Obligations.SyncIsLostAtTheLimitAndNotBefore : Prop :=
  ∀ (s : State) (times : List Word), s.phase = .running → s.cfg.zcValidate = true → s.sync.lastEdgeValid = true →
    s.sync.invalidCnt = 0#16 → 1 ≤ s.cfg.oosLimit.toNat → (∀ n ∈ times, Spec.OutsideWindow s n) →
    ∃ t, Spec.edgesAt times s = .next t ∧
      (times.length < s.cfg.oosLimit.toNat →
        t.phase = .running ∧ t.sync.invalidCnt.toNat = times.length ∧ t.tele = s.tele) ∧
      (s.cfg.oosLimit.toNat ≤ times.length →
        t.phase = .halted ∧ t.sync.invalidCnt = s.cfg.oosLimit ∧ t.sync.oosCnt = s.cfg.oosLimit ∧
          t.tele.evtPending = s.tele.evtPending ||| 0x04#8 ∧ t.out = 0#8)

/-- R118: a misfire between two genuine edges does no harm. After an accepted edge at `t0`, an edge fewer than `HW_MIN`
ticks later is rejected with `OOS_DIR` = 0 and leaves the outputs, the reference edge and compare A (`OCRA` and `CMPA_EN`,
R23), and the genuine edge in the window from `t0` is accepted, which clears the count. -/
def Obligations.MisfireDoesNotDisturbTheNextEdge : Prop :=
  ∀ (s : State) (m g : Word), s.phase = .running → s.cfg.zcValidate = true → s.sync.lastEdgeValid = true →
    s.sync.invalidCnt = 0#16 → 2 ≤ s.cfg.oosLimit.toNat →
    (m - s.sync.lastEdge).toNat < s.sync.hwMin.toNat →
    s.sync.hwMin.toNat ≤ (g - s.sync.lastEdge).toNat → (g - s.sync.lastEdge).toNat ≤ s.sync.hwMax.toNat →
    s.sync.hwMin.toNat ≤ s.sync.hwMax.toNat →
    ∃ u t, Spec.edgesAt [m] s = .next u ∧ u.sync.invalidCnt = 1#16 ∧ u.sync.oosDir = false ∧
      u.sync.lastEdge = s.sync.lastEdge ∧ u.out = s.out ∧
      u.time.cmpaEn = s.time.cmpaEn ∧ u.time.ocra = s.time.ocra ∧
      Spec.edgesAt [m, g] s = .next t ∧ t.phase = .running ∧ t.sync.invalidCnt = 0#16 ∧ t.sync.lastEdge = g ∧
      t.time.cmpaEn = true

/-- R113, R23: compare A, armed `d` ticks ahead in a running block, matches after exactly `d` ticks without a reset or an
edge: for `k < d` ticks it stays armed and `HW_TCNT` has advanced by `k`; in tick `d` `HW_START` runs, whatever the
commands. -/
def Obligations.ArmedStartRunsAfterExactlyTheDelay : Prop :=
  ∀ (s : State) (d : Nat), s.phase = .running → s.time.cmpaEn = true → 1 ≤ d → d ≤ 65535 →
    s.time.ocra = s.time.hwTcnt + BitVec.ofNat 16 d → d ≤ s.inputs.length →
    (∀ i ∈ s.inputs, i.rst = false ∧ Bool.xor i.zc s.params.zcPolInv = s.sync.zcPrev) →
    (∀ k < d, ∃ t, Spec.steps k s = .next t ∧ t.time.cmpaEn = true ∧ t.time.ocra = s.time.ocra ∧
      t.time.hwTcnt = s.time.hwTcnt + BitVec.ofNat 16 k) ∧
    ∃ t, Spec.steps d s = .next t ∧ t.time.cmpaEn = false ∧ t.time.hwTcnt = 0#16

/-! ## The measurement (44_frequency_measurement.md) -/

/-- R202: an edge of a pass that does not store the last delta (one is still to come after it, or it is an edge up to number
`MEAS_WARMUP + 1`, which stores none) is counted and time-stamped; from edge number
`MEAS_WARMUP + 2` on it stores the ticks since the edge before it; nothing else changes. -/
def Obligations.MeasuringEdgeStoresItsDelta : Prop :=
  ∀ s : State, s.phase = .measuring → s.params.measNSamples ≤ 64 →
    s.meas.cnt.toNat < s.params.measNSamples →
    (s.meas.cnt.toNat + 1 < s.params.measNSamples ∨
      min (s.meas.seen.toNat + 1) 65535 < s.params.measWarmup + 2) →
    ∃ t, exec .zcEdge s = .next t ∧ t = { s with meas := t.meas } ∧
      t.meas.seen.toNat = min (s.meas.seen.toNat + 1) 65535 ∧ t.meas.prev = s.time.now ∧ t.meas.t0 = s.meas.t0 ∧
      (if s.params.measWarmup + 2 ≤ min (s.meas.seen.toNat + 1) 65535
        then t.meas.cnt.toNat = s.meas.cnt.toNat + 1 ∧
          t.meas.buf = s.meas.buf.set s.meas.cnt.toNat (s.time.now - s.meas.prev)
        else t.meas.cnt = s.meas.cnt ∧ t.meas.buf = s.meas.buf)

/-- R202 to R205, R117: the edge that stores the last delta ends the pass. When both stages keep enough deltas and the
frequency is usable, `FREQ` and `H_TICKS` are set, `EV_FREQ_UPDATED` is raised and the block is `RUNNING` with this edge as
the reference and the window around `H_TICKS`; else `FREQ` and `H_TICKS` are 0, `EV_FREQ_INVALID` is raised and the block is
`IDLE`. Nothing else changes. (For a frequency of 2^32 or more, notes/assumptions/5.md, nothing is said of `FREQ`.) -/
def Obligations.LastDeltaEndsThePass : Prop :=
  ∀ s : State, s.phase = .measuring → s.params.measNSamples ≤ 64 → s.cfg.syncDev.toNat ≤ 100 →
    s.meas.cnt.toNat + 1 = s.params.measNSamples →
    s.params.measWarmup + 2 ≤ min (s.meas.seen.toNat + 1) 65535 →
    ∃ t buf, exec .zcEdge s = .next t ∧
      buf = s.meas.buf.set s.meas.cnt.toNat (s.time.now - s.meas.prev) ∧
      t = { s with meas := t.meas, mains := t.mains, phase := t.phase, sync := t.sync,
                   tele.evtPending := t.tele.evtPending } ∧
      (t.meas.buf = buf ∧ t.meas.cnt.toNat = s.params.measNSamples ∧ t.meas.prev = s.time.now ∧
        t.meas.t0 = s.meas.t0 ∧ t.meas.seen.toNat = min (s.meas.seen.toNat + 1) 65535) ∧
      t.mains.freqOvr = s.mains.freqOvr ∧
      (Spec.PassSucceeds s.params s.cfg.syncDev.toNat (buf.map BitVec.toNat) →
        ∃ f h d, f = Spec.measured s.params s.cfg.syncDev.toNat (buf.map BitVec.toNat) ∧
          h = Spec.halfWave s.params f ∧ d = h * s.cfg.syncDev.toNat / 100 ∧
          (f < 2 ^ 32 → t.mains.freq.toNat = f) ∧ t.mains.freq ≠ 0#32 ∧ t.mains.hTicks.toNat = h ∧
          t.phase = .running ∧ t.tele.evtPending = s.tele.evtPending ||| 0x10#8 ∧
          t.sync.hwMin.toNat = h - d ∧ t.sync.hwMax.toNat = h + d ∧
          t.sync = { s.sync with hwMin := t.sync.hwMin, hwMax := t.sync.hwMax, invalidCnt := 0, lastEdgeValid := true,
                                 lastEdge := s.time.now }) ∧
      (¬ Spec.PassSucceeds s.params s.cfg.syncDev.toNat (buf.map BitVec.toNat) →
        t.mains.freq = 0#32 ∧ t.mains.hTicks = 0#16 ∧ t.phase = .idle ∧
          t.tele.evtPending = s.tele.evtPending ||| 0x08#8 ∧ t.sync = s.sync)

/-- The source's scenario (R207 (a), (c), (d)): 18 of 20 deltas within the tight window give 60002 mHz; 8 accepted, or none
at the second stage, give no estimate. -/
def Obligations.FilterGivesTheScenarioFrequency : Prop :=
  filterResult Params.default 5 (List.replicate 18 8333#32 ++ [9100#32, 9300#32]) = some 60002 ∧
  filterResult Params.default 5 (List.replicate 8 8333#32 ++ List.replicate 12 20000#32) = none ∧
  filterResult Params.default 5 (List.replicate 10 8100#32 ++ List.replicate 10 10400#32) = none

/-- R205, R206: `MEAS_TIMEOUT` invalidates the frequency, goes to `IDLE` and raises `EV_FREQ_INVALID`; nothing else
changes. -/
def Obligations.MeasTimeoutFailsThePass : Prop :=
  ∀ s : State, ∃ t, exec .measTimeout s = .next t ∧
    t.tele.evtPending = s.tele.evtPending ||| 0x08#8 ∧
    t = { s with
      mains.freq := 0#32
      mains.hTicks := 0#16
      phase := .idle
      tele.evtPending := t.tele.evtPending }

/-- R206: a pass without an edge in this tick ends in the first tick in which `NOW - MEAS_T0` reaches `MEAS_TIMEOUT`, and
goes on before it. -/
def Obligations.PassEndsAtItsDeadline : Prop :=
  ∀ s : State, s.StoppedOk → s.phase = .measuring → s.nextInput.rst = false → s.nextInput.cmd = none →
    (s.sync.zcPrev = true ∨ Bool.xor s.nextInput.zc s.params.zcPolInv = false) →
    ∃ t, step s = .next t ∧
      (if s.params.measTimeout ≤ (s.time.now + 1 - s.meas.t0).toNat
        then t.phase = .idle ∧ t.mains.freq = 0#32 ∧ t.mains.hTicks = 0#16 ∧ t.pending .freqInvalid = true
        else t.phase = .measuring ∧ t.mains = s.mains ∧ t.tele = s.tele ∧ t.meas = s.meas)

/-! ## The calculator (42_channel_timing.md) -/

/-- R158: for guard bands that fit, every legal parameter set and either kind of `rescale`, `on_ticks` lies in
`[minOn, H - minOff]` and does not decrease with the level. -/
def Obligations.OnTicksInRangeAndMonotone : Prop :=
  ∀ (p : Params) (cfg : CfgRegs) (h l l' : Nat), p.Legal → cfg.minOn.toNat + cfg.minOff.toNat ≤ h →
    l ≤ l' → l' ≤ p.levelMax →
    cfg.minOn.toNat ≤ onTicks p cfg l h ∧ onTicks p cfg l h ≤ h - cfg.minOff.toNat ∧
      onTicks p cfg l h ≤ onTicks p cfg l' h

/-- R151 to R153, R159: with the range mapping off (`CFG_RANGE_DIV` = 0), or on and the mapping that of R152, the offset of a
level is `minOn + floor((H - minOn - minOff) * Lr / LEVEL_MAX)` in trailing mode and `H` minus that in leading mode, where
`Lr` is the level itself with the mapping off, else `CFG_RANGE_BEGIN + floor(L * LEVEL_MAX / CFG_RANGE_DIV)` up to `LEVEL_MAX`.
The source's scenario gives 4166, the restricted one of 95_test_vectors.md 2.4 3110. That 0 turns every `rescale` off is read
from R37 and R92 (notes/assumptions/16.md). -/
def Obligations.SwitchOffsetFollowsTheFormula : Prop :=
  (∀ (p : Params) (cfg : CfgRegs) (h l : Nat), (cfg.rangeDiv = 0#16 ∨ p.rescale = .rule152) → l ≤ p.levelMax →
    cfg.minOn.toNat + cfg.minOff.toNat ≤ h →
    swTicks p cfg l h =
      let on := cfg.minOn.toNat + (h - cfg.minOn.toNat - cfg.minOff.toNat) * Spec.rescaled p cfg l / p.levelMax
      if cfg.mode = true then h - on else on) ∧
  swTicks Params.default { State.reset.cfg with minOn := 38, minOff := 38 } 4096 8333 = 4166 ∧
  swTicks Params.default { State.reset.cfg with minOn := 38, minOff := 38, rangeBegin := 1000, rangeDiv := 16384 } 4096 8333 =
    3110

/-- R154 to R156, R158: when the guard bands fit, the schedule built is well-formed and in ascending order of offset and then
channel, has exactly one entry, at the offset of its level, for each channel with `0 < level < LEVEL_MAX` and none for any
other, the `nz_mask` bit of exactly the channels with a non-zero level, and the current edge mode; when they do not fit it
is the empty buffer and the error is reported. -/
def Obligations.ScheduleIsSortedAndComplete : Prop :=
  ∀ s : State, s.params.Legal →
    (s.cfg.minOn.toNat + s.cfg.minOff.toNat ≤ s.mains.hTicks.toNat →
      ∃ b, calcSchedule s = (b, false) ∧ b.WellFormed s.params.nch ∧ b.lead = s.cfg.mode ∧
        b.real.Pairwise (fun x y => x.ticks.toNat < y.ticks.toNat ∨ (x.ticks = y.ticks ∧ x.ch.toNat < y.ch.toNat)) ∧
        (∀ e : Entry, e ∈ b.real ↔
          e.ch.toNat < s.params.nch ∧ 0 < (s.chan e.ch.toNat).level ∧ (s.chan e.ch.toNat).level < s.params.levelMax ∧
            e.ticks.toNat = swTicks s.params s.cfg (s.chan e.ch.toNat).level s.mains.hTicks.toNat) ∧
        (∀ c < s.params.nch, (b.nzMask.getLsbD c = true ↔ 0 < (s.chan c).level))) ∧
    (s.mains.hTicks.toNat < s.cfg.minOn.toNat + s.cfg.minOff.toNat →
      calcSchedule s = (Buffer.empty s.params.nch, true))

/-! ## The fading engine (43_fading_engine.md) -/

/-- R170, R175, R177, R178: `SETLVL` puts each selected channel at the clamped level, cancelling its fade, and changes nothing
else. -/
def Obligations.SetlvlSetsEachSelectedChannel : Prop :=
  ∀ (s : State) (ch : Byte) (level : Half), s.params.Legal → s.chans.length = s.params.nch →
    (ch.toNat < s.params.nch ∨ ch = 0xFF#8) →
    ∃ t, exec (.setlvl ch level) s = .next t ∧ t = { s with chans := t.chans } ∧ t.chans.length = s.chans.length ∧
      ∀ c < s.params.nch,
        (Spec.Selects ch c → Spec.AtLevel (Spec.normLevel s.params.levelMax level) (t.chan c)) ∧
        (¬ Spec.Selects ch c → t.chan c = s.chan c)

/-- R171 to R178: `FADE` (`abs` false) and `FADEA` (`abs` true) on each selected channel. The sentinel `FREEZE` stops a fade
at the integer level; else, with `T` the clamped target and `F` the level the fade starts from (the channel's own under
`CURRENT`), the level is set at once when `T = F` or the step count is 0, and otherwise the fade is set up from `F` with
`trunc((T - F) * 65536 / n)` per step. Nothing else changes. -/
def Obligations.FadeSetsUpEachSelectedChannel : Prop :=
  ∀ (s : State) (ch : Byte) (dur fromLvl toLvl : Half) (abs : Bool), s.params.Legal → s.chans.length = s.params.nch →
    s.LevelsOk → (ch.toNat < s.params.nch ∨ ch = 0xFF#8) →
    ∃ t, exec (if abs then .fadea ch dur fromLvl toLvl else .fade ch dur fromLvl toLvl) s = .next t ∧
      t = { s with chans := t.chans } ∧ t.chans.length = s.chans.length ∧
      ∀ c < s.params.nch,
        (¬ Spec.Selects ch c → t.chan c = s.chan c) ∧
        (Spec.Selects ch c → toLvl = 0x8001#16 →
          if (s.chan c).remain = 0#32 then t.chan c = s.chan c
          else Spec.AtLevel ((s.chan c).levelFp.toNat / 65536) (t.chan c)) ∧
        (Spec.Selects ch c → toLvl ≠ 0x8001#16 →
          ∃ T F n : Nat, T = Spec.normLevel s.params.levelMax toLvl ∧
            F = (if fromLvl = 0x8000#16 then (s.chan c).levelFp.toNat / 65536
              else Spec.normLevel s.params.levelMax fromLvl) ∧
            n = Spec.stepCount s.params.levelMax s.mains.freq.toNat dur.toNat ((T : Int) - F).natAbs abs ∧
            if T = F ∨ n = 0 then Spec.AtLevel T (t.chan c)
            else
              (t.chan c).levelFp.toNat = F * 65536 ∧ (t.chan c).step.toInt = (((T : Int) - F) * 65536).tdiv n ∧
              (t.chan c).remain.toNat = n ∧ (t.chan c).target.toNat = T)

/-- The ten step counts and the eight step sizes of the table of R176, at `LEVEL_MAX` = 8192 (a fade down is one from the
distance to 0), and the largest absolute count of 95_test_vectors.md 2.5. -/
def Obligations.StepCountsOfTheTable : Prop :=
  (stepCount 8192 60000 100 8192 false = 120 ∧ stepCount 8192 60000 100 4096 false = 60 ∧
    stepCount 8192 60000 100 4096 true = 120 ∧ stepCount 8192 50000 5 100 true = 5 ∧
    stepCount 8192 60000 1 8192 false = 1 ∧ stepCount 8192 60000 0 8192 true = 0 ∧
    stepCount 8192 60000 10 1000 true = 12 ∧ stepCount 8192 60000 10 1000 false = 1 ∧
    stepCount 8192 60000 250 3 true = 300 ∧ stepCount 8192 60000 1 1 false = 0) ∧
  ((Channel.fading 0 8192 120).step = 0x00444444#32 ∧ (Channel.fading 0 4096 60).step = 0x00444444#32 ∧
    (Channel.fading 0 4096 120).step = 0x00222222#32 ∧ (Channel.fading 0 100 5).step = 0x00140000#32 ∧
    (Channel.fading 0 8192 1).step = 0x20000000#32 ∧ (Channel.fading 1000 0 12).step = 0xFFACAAAB#32 ∧
    (Channel.fading 1000 0 1).step = 0xFC180000#32 ∧ (Channel.fading 0 3 300).step = 0x0000028F#32) ∧
  stepCount 8192 60000 65535 1 true = 78642

/-- R175, R88 (c): a level command whose channel is neither below `NCH` nor 0xFF raises `EV_CMD_ERR` and changes nothing
else. -/
def Obligations.BadChannelOnlyRaisesCmdErr : Prop :=
  ∀ (s : State) (ch : Byte) (a b c : Half), s.params.nch ≤ ch.toNat → ch ≠ 0xFF#8 →
    ∃ t, exec (.setlvl ch a) s = .next t ∧ exec (.fade ch a b c) s = .next t ∧ exec (.fadea ch a b c) s = .next t ∧
      t = { s with tele.evtPending := t.tele.evtPending } ∧ t.tele.evtPending = s.tele.evtPending ||| 0x20#8

/-- R186: a fade from `CURRENT` to the channel's own level leaves the integer level, cancels the fade, raises nothing, and
repeating the command changes nothing more. -/
def Obligations.ZeroDistanceFadeIsIdempotent : Prop :=
  ∀ (s : State) (ch : Byte) (dur toLvl : Half) (abs : Bool), s.params.Legal → s.chans.length = s.params.nch →
    ch.toNat < s.params.nch → toLvl ≠ 0x8001#16 →
    Spec.normLevel s.params.levelMax toLvl = (s.chan ch.toNat).levelFp.toNat / 65536 →
    ∃ t, exec (if abs then .fadea ch dur 0x8000#16 toLvl else .fade ch dur 0x8000#16 toLvl) s = .next t ∧
      exec (if abs then .fadea ch dur 0x8000#16 toLvl else .fade ch dur 0x8000#16 toLvl) t = .next t ∧
      Spec.AtLevel ((s.chan ch.toNat).levelFp.toNat / 65536) (t.chan ch.toNat) ∧ t.tele = s.tele

/-- R180: `ENG_CALC` steps every fade: a channel with steps left adds `STEP` and counts down, the last step snaps to the
target and records the completion, a channel without a fade is left alone. `EV_FADE_DONE` is raised when a fade completes
and `EV_CFG_ERR` when the guard bands do not fit, `SCRATCH` is the schedule of the new levels, `ENG_STATE` becomes
`PUBLISH_PENDING`; nothing else changes. -/
def Obligations.EngCalcStepsFadesAndRebuilds : Prop :=
  ∀ s : State, s.ShapeOk → s.LevelsOk →
    ∃ t, exec .engCalc s = .next t ∧
      t = { s with
        chans := t.chans
        tele.evtPending := t.tele.evtPending
        tele.fadeDone := t.tele.fadeDone
        tele.fadeDoneLevel := t.tele.fadeDoneLevel
        sched.scratch := t.sched.scratch
        eng := .publishPending } ∧
      t.chans.length = s.chans.length ∧ t.tele.fadeDoneLevel.length = s.tele.fadeDoneLevel.length ∧
      (∀ c < s.params.nch,
        ((s.chan c).remain = 0#32 → t.chan c = s.chan c) ∧
        ((s.chan c).remain = 1#32 → Spec.AtLevel (s.chan c).target.toNat (t.chan c)) ∧
        (2 ≤ (s.chan c).remain.toNat →
          (t.chan c).levelFp.toInt = (s.chan c).levelFp.toInt + (s.chan c).step.toInt ∧
          (t.chan c).remain.toNat = (s.chan c).remain.toNat - 1 ∧ (t.chan c).step = (s.chan c).step ∧
          (t.chan c).target = (s.chan c).target) ∧
        (t.tele.fadeDone.getLsbD c = (s.tele.fadeDone.getLsbD c || (s.chan c).remain == 1#32)) ∧
        (t.tele.fadeDoneLevel.getD c 0#16 =
          if (s.chan c).remain = 1#32 then (s.chan c).target else s.tele.fadeDoneLevel.getD c 0#16)) ∧
      (t.tele.evtPending = s.tele.evtPending |||
        (if ∃ x ∈ s.chans, x.remain = 1#32 then 0x02#8 else 0#8) |||
        (if s.mains.hTicks.toNat < s.cfg.minOn.toNat + s.cfg.minOff.toNat then 0x40#8 else 0#8)) ∧
      t.sched.scratch = (calcSchedule { s with chans := t.chans }).1

/-- R181: `ENG_PUBLISH` copies `SCRATCH` to `NEXT`, records the mask and raises `EV_CH_STATE` when it differs from
`CH_STATE`, and frees the engine; nothing else changes. -/
def Obligations.EngPublishPublishesScratch : Prop :=
  ∀ s : State, ∃ t, exec .engPublish s = .next t ∧
    t.tele.evtPending = (if s.sched.scratch.nzMask = s.tele.chState then s.tele.evtPending
      else s.tele.evtPending ||| 0x01#8) ∧
    t = { s with
      sched.next := s.sched.scratch
      tele.chState := s.sched.scratch.nzMask
      tele.evtPending := t.tele.evtPending
      eng := .idle }

/-- R185, R184: a fade set up by `FADE` or `FADEA` with step count `n` on a channel `c` that its operand names (the one, or each
under `ALL`), followed by `n` times `ENG_CALC` and nothing else, leaves the level of `c` exactly at the clamped target with no
fraction, the fade completed and recorded; after `k < n` of them `n - k` steps are left and the level is the start level plus
`k` steps. -/
def Obligations.FadeEndsExactlyAtItsTarget : Prop :=
  ∀ (s u : State) (ch : Byte) (c : Nat) (dur fromLvl toLvl : Half) (abs : Bool), s.ShapeOk → s.LevelsOk →
    c < s.params.nch → Spec.Selects ch c → toLvl ≠ 0x8001#16 →
    exec (if abs then .fadea ch dur fromLvl toLvl else .fade ch dur fromLvl toLvl) s = .next u →
    0 < (u.chan c).remain.toNat →
    (∀ k < (u.chan c).remain.toNat, ∃ t, Spec.engCalcs k u = .next t ∧
      (t.chan c).remain.toNat = (u.chan c).remain.toNat - k ∧
      (t.chan c).levelFp.toInt = (u.chan c).levelFp.toInt + k * (u.chan c).step.toInt) ∧
    ∃ t, Spec.engCalcs (u.chan c).remain.toNat u = .next t ∧
      Spec.AtLevel (Spec.normLevel s.params.levelMax toLvl) (t.chan c) ∧
      t.tele.fadeDone.getLsbD c = true ∧
      (t.tele.fadeDoneLevel.getD c 0#16).toNat = Spec.normLevel s.params.levelMax toLvl ∧
      t.pending .fadeDone = true

/-! ## The host commands (45_host_commands.md) -/

/-- R224: `SETMODE` writes `CFG_MODE` and nothing else, exactly as `WREG CFG_MODE, mode` does. -/
def Obligations.SetmodeWritesCfgMode : Prop :=
  ∀ (s : State) (mode : Bool), exec (.setmode mode) s = .next { s with cfg.mode := mode } ∧
    exec (.wreg 0x03#8 (if mode then 1#32 else 0#32)) s = exec (.setmode mode) s

/-- R225: `SETFREQ` in `MEASURING` or `RUNNING` is refused; in `IDLE` or `HALTED` 0 removes the override, a usable frequency
sets it with its half-wave length, an unusable one is refused. Nothing else changes. -/
def Obligations.SetfreqSetsOrRemovesTheOverride : Prop :=
  ∀ (s : State) (imm : Word),
    ∃ t, exec (.setfreq imm) s = .next t ∧
      t = { s with mains := t.mains, tele.evtPending := t.tele.evtPending } ∧
      ((s.phase = .measuring ∨ s.phase = .running) →
        t.mains = s.mains ∧ t.tele.evtPending = s.tele.evtPending ||| 0x20#8) ∧
      ((s.phase = .idle ∨ s.phase = .halted) → imm = 0#32 →
        t.mains.freq = 0#32 ∧ t.mains.freqOvr = false ∧ t.mains.hTicks = 0#16 ∧
          t.tele.evtPending = s.tele.evtPending ||| 0x08#8) ∧
      ((s.phase = .idle ∨ s.phase = .halted) → Spec.Usable s.params imm.toNat →
        t.mains.freq = imm ∧ t.mains.freqOvr = true ∧ t.mains.hTicks.toNat = Spec.halfWave s.params imm.toNat ∧
          t.tele.evtPending = s.tele.evtPending ||| 0x10#8) ∧
      ((s.phase = .idle ∨ s.phase = .halted) → imm ≠ 0#32 → ¬ Spec.Usable s.params imm.toNat →
        t.mains = s.mains ∧ t.tele.evtPending = s.tele.evtPending ||| 0x20#8)

/-- R226, with R117 and R200: `START` in `MEASURING` or `RUNNING` is refused and raises `EV_CMD_ERR` alone; in `IDLE` or
`HALTED` it clears the session's state and raises nothing; with an override it enters `RUNNING` with the window around
`H_TICKS` and no reference edge, without one it begins a measurement pass. -/
def Obligations.StartBeginsASession : Prop :=
  (∀ s : State, (s.phase = .measuring ∨ s.phase = .running) →
    exec .start s = .next { s with tele.evtPending := s.tele.evtPending ||| 0x20#8 }) ∧
  ∀ s : State, (s.phase = .idle ∨ s.phase = .halted) → s.cfg.syncDev.toNat ≤ 100 →
    ∃ t d, exec .start s = .next t ∧ d = s.mains.hTicks.toNat * s.cfg.syncDev.toNat / 100 ∧
      t = { s with
        sync := t.sync
        mains := t.mains
        meas := t.meas
        time.cmpaEn := false
        time.cmpbEn := false
        out := 0#8
        sched.act := Buffer.empty s.params.nch
        sched.next := Buffer.empty s.params.nch
        sched.idx := 0
        eng := .idle
        phase := t.phase } ∧
      (s.mains.freqOvr = true →
        t.phase = .running ∧ t.mains = s.mains ∧ t.meas = s.meas ∧
        t.sync.hwMin.toNat = s.mains.hTicks.toNat - d ∧ t.sync.hwMax.toNat = s.mains.hTicks.toNat + d ∧
        t.sync = { s.sync with invalidCnt := 0, lastEdgeValid := false, hwMin := t.sync.hwMin,
                               hwMax := t.sync.hwMax }) ∧
      (s.mains.freqOvr = false →
        t.phase = .measuring ∧ t.mains = { s.mains with freq := 0, hTicks := 0 } ∧
        t.meas = { s.meas with seen := 0, cnt := 0, t0 := s.time.now } ∧
        t.sync = { s.sync with invalidCnt := 0, lastEdgeValid := false })

/-- R221: in `MEASURING` and `RUNNING` `SETFREQ` and `START` are refused: `EV_CMD_ERR` is raised and nothing else changes; in
`IDLE` and `HALTED` they are accepted (`SETFREQ` of 0 or of a usable value) and raise no `EV_CMD_ERR`. Every other command
does in every phase what it does in any other, `RREG` up to the value of `STATUS`, which shows the phase. -/
def Obligations.PhaseGatesOnlyStartAndSetfreq : Prop :=
  (∀ (s : State) (imm : Word), (s.phase = .measuring ∨ s.phase = .running) →
    ∃ t, exec .start s = .next t ∧ exec (.setfreq imm) s = .next t ∧
      t = { s with tele.evtPending := s.tele.evtPending ||| 0x20#8 }) ∧
  (∀ (s : State) (imm : Word), (s.phase = .idle ∨ s.phase = .halted) →
    (∃ t, exec .start s = .next t ∧ t.pending .cmdErr = s.pending .cmdErr) ∧
    (imm = 0#32 ∨ Spec.Usable s.params imm.toNat →
      ∃ t, exec (.setfreq imm) s = .next t ∧ t.pending .cmdErr = s.pending .cmdErr)) ∧
  (∀ (i : Instr) (s t : State) (p : Phase),
    ((∃ ch l, i = .setlvl ch l) ∨ (∃ ch d f l, i = .fade ch d f l) ∨ (∃ ch d f l, i = .fadea ch d f l) ∨
      (∃ m, i = .setmode m) ∨ (∃ m, i = .ack m) ∨ (∃ n v, i = .wreg n v) ∨ (∃ n, i = .rreg n ∧ n ≠ 0x10#8)) →
    exec i s = .next t → exec i { s with phase := p } = .next { t with phase := p }) ∧
  ∀ (s : State) (n : Byte) (p : Phase), (State.regRead { s with phase := p } n).isSome = (s.regRead n).isSome

/-- R227: `ACK` clears exactly the pending events of its mask, and the `FADE_DONE` mask with bit 1; nothing else changes. -/
def Obligations.AckClearsTheMaskedEvents : Prop :=
  ∀ (s : State) (mask : Byte), ∃ t, exec (.ack mask) s = .next t ∧
    t = { s with tele.evtPending := t.tele.evtPending, tele.fadeDone := t.tele.fadeDone } ∧
    (∀ e : Event, t.pending e = true ↔ s.pending e = true ∧ mask.getLsbD e.code = false) ∧
    t.tele.fadeDone = if mask.getLsbD 1 = true then 0#8 else s.tele.fadeDone

/-- R229, R63: `WREG` of a legal value to a writable number stores it: that number then reads as the value, every other number
reads as before, and only the configuration changes. Of any other number, or of a value above its bound, it raises
`EV_CMD_ERR` and changes nothing else. -/
def Obligations.WregStoresALegalValueAndRefusesTheRest : Prop :=
  ∀ (s : State) (n : Byte) (v : Word), s.params.Legal →
    (∀ bound, (n, bound) ∈ Spec.writableRegs s.params.levelMax → v.toNat ≤ bound →
      ∃ t, exec (.wreg n v) s = .next t ∧ t = { s with cfg := t.cfg } ∧ t.regRead n = some v ∧
        ∀ m : Byte, m ≠ n → t.regRead m = s.regRead m) ∧
    ((∀ bound, (n, bound) ∈ Spec.writableRegs s.params.levelMax → bound < v.toNat) →
      exec (.wreg n v) s = .next { s with tele.evtPending := s.tele.evtPending ||| 0x20#8 })

/-- R230, R62: `RREG` of a mapped number puts the register's value on the read port and changes nothing else; of an unmapped
number it raises `EV_CMD_ERR`, with `RDATA` unchanged and `RVALID` 0. -/
def Obligations.RregReadsWithoutSideEffect : Prop :=
  ∀ (s : State) (n : Byte),
    (∀ v, s.regRead n = some v → exec (.rreg n) s = .next { s with port := ⟨v, true⟩ }) ∧
    (s.regRead n = none → exec (.rreg n) s = .next { s with
      tele.evtPending := s.tele.evtPending ||| 0x20#8
      port.rvalid := false })

/-- R91 to R94: the whole register map. Every number of the map reads, zero-extended, the state it names: those outside the
indexed groups, the members of each group whose index is below its bound, and the status word field by field. Every other
number is unmapped, those of a group whose index is not below the bound among them. -/
def Obligations.RegisterMapReadsTheState : Prop :=
  ∀ s : State, s.params.Legal →
    (∀ r ∈ Spec.singleNumbers s, ∃ v, s.regRead r.1 = some v ∧ v.toNat = r.2) ∧
    (∀ g ∈ Spec.numberGroups s, ∀ i x, g.2[i]? = some x →
      ∃ v, s.regRead (BitVec.ofNat 8 (g.1 + i)) = some v ∧ v.toNat = x) ∧
    (∃ v, s.regRead 0x10#8 = some v ∧ v.toNat % 4 = s.phase.code.toNat ∧ v.toNat / 4 % 4 = s.eng.code.toNat ∧
      v.getLsbD 4 = s.time.cmpaEn ∧ v.getLsbD 5 = s.time.cmpbEn ∧ v.getLsbD 6 = s.mains.freqOvr ∧
      v.getLsbD 7 = s.sync.lastEdgeValid ∧ v.toNat / 256 % 16 = s.sched.idx.toNat ∧ v.getLsbD 12 = s.sync.zcPrev ∧
      v.toNat < 2 ^ 13) ∧
    ∀ n : Byte, n ≠ 0x10#8 → (∀ r ∈ Spec.singleNumbers s, r.1 ≠ n) →
      (∀ g ∈ Spec.numberGroups s, n.toNat < g.1 ∨ g.1 + g.2.length ≤ n.toNat) → s.regRead n = none

/-! ## Rules about every operation -/

/-- R251, R35: no operation but `ACK` clears a pending event. -/
def Obligations.OnlyAckClearsEvents : Prop :=
  ∀ (i : Instr) (s t : State) (e : Event), (∀ m, i ≠ .ack m) → exec i s = .next t → s.pending e = true →
    t.pending e = true

/-- R260: which operation can raise what, and in which phase or on which operand; an operation not listed raises nothing. A
word with a must-be-zero bit set is no operation (IllegalCommandOnlyRaisesCmdErr). -/
def Obligations.OperationsRaiseOnlyTheirEvents : Prop :=
  ∀ (i : Instr) (s t : State) (e : Event), exec i s = .next t → s.pending e = false → t.pending e = true →
    Spec.MayRaise s i e

/-- R24: `PHASE` moves only along the five arrows of its table, each by the operation named there. -/
def Obligations.PhaseMovesOnlyAlongItsArrows : Prop :=
  ∀ (i : Instr) (s t : State), (i = .measTimeout → s.phase = .measuring) → exec i s = .next t → t.phase ≠ s.phase →
    (i = .start ∧ (s.phase = .idle ∨ s.phase = .halted) ∧ s.mains.freqOvr = false ∧ t.phase = .measuring) ∨
    (i = .start ∧ (s.phase = .idle ∨ s.phase = .halted) ∧ s.mains.freqOvr = true ∧ t.phase = .running) ∨
    (i = .zcEdge ∧ s.phase = .measuring ∧ t.phase = .running ∧ t.pending .freqUpdated = true) ∨
    ((i = .zcEdge ∨ i = .measTimeout) ∧ s.phase = .measuring ∧ t.phase = .idle ∧ t.pending .freqInvalid = true) ∨
    (i = .zcEdge ∧ s.phase = .running ∧ t.phase = .halted ∧ t.pending .syncLost = true ∧
      t.cfg.oosLimit.toNat ≤ t.sync.invalidCnt.toNat)

/-- R21, R22, R23, R26, R29, R30, R32, R34, R35, R37, R38: both counters, both compare registers, `ZC_PREV`, the channel file, the
pins, the three schedule buffers, the engine state, `CH_STATE`, the configuration and the read port are written only by the
operations their rules name. The rest of the state is in ControlStateIsWrittenOnlyByItsWriters. -/
def Obligations.StateIsWrittenOnlyByItsWriters : Prop :=
  ∀ (i : Instr) (s t : State), exec i s = .next t →
    t.params = s.params ∧ t.inputs = s.inputs ∧ t.freeIdx = s.freeIdx ∧ t.sync.zcPrev = s.sync.zcPrev ∧
    (i ≠ .tick → t.time.now = s.time.now) ∧
    (i ≠ .tick → i ≠ .hwStart → t.time.hwTcnt = s.time.hwTcnt) ∧
    (i ≠ .zcEdge → t.time.ocra = s.time.ocra) ∧
    (i ≠ .hwStart → i ≠ .hwToggle → t.time.ocrb = s.time.ocrb) ∧
    (i ≠ .engCalc → (∀ ch l, i ≠ .setlvl ch l) → (∀ ch d f l, i ≠ .fade ch d f l) →
      (∀ ch d f l, i ≠ .fadea ch d f l) → t.chans = s.chans) ∧
    (i ≠ .hwStart → i ≠ .hwToggle → i ≠ .zcEdge → i ≠ .start → t.out = s.out) ∧
    (i ≠ .hwStart → i ≠ .zcEdge → i ≠ .start → t.sched.act = s.sched.act) ∧
    (i ≠ .engPublish → i ≠ .zcEdge → i ≠ .start → t.sched.next = s.sched.next) ∧
    (i ≠ .engCalc → t.sched.scratch = s.sched.scratch) ∧
    (i ≠ .hwStart → i ≠ .engCalc → i ≠ .engPublish → i ≠ .zcEdge → i ≠ .start → t.eng = s.eng) ∧
    (i ≠ .engPublish → t.tele.chState = s.tele.chState) ∧
    ((∀ m, i ≠ .setmode m) → (∀ n v, i ≠ .wreg n v) → t.cfg = s.cfg) ∧
    ((∀ n, i ≠ .rreg n) → t.port = s.port)

/-- R296: `FREQ` and `H_TICKS` do not change in a step from `RUNNING` to `RUNNING`. -/
def Obligations.FrequencyIsFixedWhileRunning : Prop :=
  ∀ s t : State, s.nextInput.rst = false → s.phase = .running → step s = .next t → t.phase = .running →
    t.mains.freq = s.mains.freq ∧ t.mains.hTicks = s.mains.hTicks

/-- R137, R73: a `HW_START` that finds the engine busy drops its request: `ENG_STATE` is as before. -/
def Obligations.BusyEngineDropsTheRequest : Prop :=
  ∀ s t : State, s.eng ≠ .idle → exec .hwStart s = .next t → t.eng = s.eng

/-- R23, R24, R27, R28, R33, R35, R36: `PHASE`, the two compare enables, the synchronizer's registers, the frequency, `IDX`, the
pending events, `FADE_DONE` with its levels and the measurement registers are written only by the operations their rules
name. -/
def Obligations.ControlStateIsWrittenOnlyByItsWriters : Prop :=
  ∀ (i : Instr) (s t : State), exec i s = .next t →
    (i ≠ .zcEdge → i ≠ .measTimeout → i ≠ .start → t.phase = s.phase) ∧
    (i ≠ .hwStart → i ≠ .zcEdge → i ≠ .start → t.time.cmpaEn = s.time.cmpaEn) ∧
    (i ≠ .hwStart → i ≠ .hwToggle → i ≠ .zcEdge → i ≠ .start → t.time.cmpbEn = s.time.cmpbEn) ∧
    (i ≠ .zcEdge → i ≠ .start → t.sync = s.sync) ∧
    (i ≠ .zcEdge → t.sync.lastEdge = s.sync.lastEdge ∧ t.sync.oosCnt = s.sync.oosCnt ∧ t.sync.oosDir = s.sync.oosDir) ∧
    (i ≠ .zcEdge → i ≠ .measTimeout → i ≠ .start → (∀ f, i ≠ .setfreq f) → t.mains = s.mains) ∧
    ((∀ f, i ≠ .setfreq f) → t.mains.freqOvr = s.mains.freqOvr) ∧
    (i ≠ .hwStart → i ≠ .hwToggle → i ≠ .zcEdge → i ≠ .start → t.sched.idx = s.sched.idx) ∧
    ((i = .tick ∨ i = .hwStart ∨ i = .hwToggle ∨ ∃ m, i = .setmode m) → t.tele.evtPending = s.tele.evtPending) ∧
    (i ≠ .engCalc → (∀ m, i ≠ .ack m) → t.tele.fadeDone = s.tele.fadeDone) ∧
    (i ≠ .engCalc → t.tele.fadeDoneLevel = s.tele.fadeDoneLevel) ∧
    (i ≠ .start → (i = .zcEdge → s.phase ≠ .measuring) → t.meas = s.meas) ∧
    (i ≠ .zcEdge → t.meas.buf = s.meas.buf ∧ t.meas.prev = s.meas.prev) ∧
    (i ≠ .start → t.meas.t0 = s.meas.t0)
end

