-- ==== Sys2Proof/Laws/State.lean ====
section
/-! SUPPORT. One lemma per field per shared update of the state, true by definition, so that no later proof unfolds a
record update. -/

namespace Sys2Proof.Machine

/-! ## `State.raise` -/

@[simp] theorem State.raise_params (s : State) (e : Event) : (s.raise e).params = s.params := rfl
@[simp] theorem State.raise_inputs (s : State) (e : Event) : (s.raise e).inputs = s.inputs := rfl
@[simp] theorem State.raise_freeIdx (s : State) (e : Event) : (s.raise e).freeIdx = s.freeIdx := rfl
@[simp] theorem State.raise_time (s : State) (e : Event) : (s.raise e).time = s.time := rfl
@[simp] theorem State.raise_phase (s : State) (e : Event) : (s.raise e).phase = s.phase := rfl
@[simp] theorem State.raise_sync (s : State) (e : Event) : (s.raise e).sync = s.sync := rfl
@[simp] theorem State.raise_mains (s : State) (e : Event) : (s.raise e).mains = s.mains := rfl
@[simp] theorem State.raise_chans (s : State) (e : Event) : (s.raise e).chans = s.chans := rfl
@[simp] theorem State.raise_out (s : State) (e : Event) : (s.raise e).out = s.out := rfl
@[simp] theorem State.raise_sched (s : State) (e : Event) : (s.raise e).sched = s.sched := rfl
@[simp] theorem State.raise_eng (s : State) (e : Event) : (s.raise e).eng = s.eng := rfl
@[simp] theorem State.raise_meas (s : State) (e : Event) : (s.raise e).meas = s.meas := rfl
@[simp] theorem State.raise_cfg (s : State) (e : Event) : (s.raise e).cfg = s.cfg := rfl
@[simp] theorem State.raise_port (s : State) (e : Event) : (s.raise e).port = s.port := rfl
@[simp] theorem State.raise_tele_evtPending (s : State) (e : Event) : (s.raise e).tele.evtPending = s.tele.evtPending ||| e.mask := rfl
@[simp] theorem State.raise_tele_chState (s : State) (e : Event) : (s.raise e).tele.chState = s.tele.chState := rfl
@[simp] theorem State.raise_tele_fadeDone (s : State) (e : Event) : (s.raise e).tele.fadeDone = s.tele.fadeDone := rfl
@[simp] theorem State.raise_tele_fadeDoneLevel (s : State) (e : Event) : (s.raise e).tele.fadeDoneLevel = s.tele.fadeDoneLevel := rfl

/-! ## `State.acknowledge` -/

@[simp] theorem State.acknowledge_params (s : State) (m : Byte) : (s.acknowledge m).params = s.params := rfl
@[simp] theorem State.acknowledge_inputs (s : State) (m : Byte) : (s.acknowledge m).inputs = s.inputs := rfl
@[simp] theorem State.acknowledge_freeIdx (s : State) (m : Byte) : (s.acknowledge m).freeIdx = s.freeIdx := rfl
@[simp] theorem State.acknowledge_time (s : State) (m : Byte) : (s.acknowledge m).time = s.time := rfl
@[simp] theorem State.acknowledge_phase (s : State) (m : Byte) : (s.acknowledge m).phase = s.phase := rfl
@[simp] theorem State.acknowledge_sync (s : State) (m : Byte) : (s.acknowledge m).sync = s.sync := rfl
@[simp] theorem State.acknowledge_mains (s : State) (m : Byte) : (s.acknowledge m).mains = s.mains := rfl
@[simp] theorem State.acknowledge_chans (s : State) (m : Byte) : (s.acknowledge m).chans = s.chans := rfl
@[simp] theorem State.acknowledge_out (s : State) (m : Byte) : (s.acknowledge m).out = s.out := rfl
@[simp] theorem State.acknowledge_sched (s : State) (m : Byte) : (s.acknowledge m).sched = s.sched := rfl
@[simp] theorem State.acknowledge_eng (s : State) (m : Byte) : (s.acknowledge m).eng = s.eng := rfl
@[simp] theorem State.acknowledge_meas (s : State) (m : Byte) : (s.acknowledge m).meas = s.meas := rfl
@[simp] theorem State.acknowledge_cfg (s : State) (m : Byte) : (s.acknowledge m).cfg = s.cfg := rfl
@[simp] theorem State.acknowledge_port (s : State) (m : Byte) : (s.acknowledge m).port = s.port := rfl
@[simp] theorem State.acknowledge_tele_evtPending (s : State) (m : Byte) : (s.acknowledge m).tele.evtPending = s.tele.evtPending &&& ~~~m := rfl
@[simp] theorem State.acknowledge_tele_chState (s : State) (m : Byte) : (s.acknowledge m).tele.chState = s.tele.chState := rfl
@[simp] theorem State.acknowledge_tele_fadeDone (s : State) (m : Byte) : (s.acknowledge m).tele.fadeDone = if m.getLsbD 1 then 0#8 else s.tele.fadeDone := rfl
@[simp] theorem State.acknowledge_tele_fadeDoneLevel (s : State) (m : Byte) : (s.acknowledge m).tele.fadeDoneLevel = s.tele.fadeDoneLevel := rfl

/-! ## `State.setFreq` -/

@[simp] theorem State.setFreq_params (s : State) (f : Word) (h : Nat) : (s.setFreq f h).params = s.params := rfl
@[simp] theorem State.setFreq_inputs (s : State) (f : Word) (h : Nat) : (s.setFreq f h).inputs = s.inputs := rfl
@[simp] theorem State.setFreq_freeIdx (s : State) (f : Word) (h : Nat) : (s.setFreq f h).freeIdx = s.freeIdx := rfl
@[simp] theorem State.setFreq_time (s : State) (f : Word) (h : Nat) : (s.setFreq f h).time = s.time := rfl
@[simp] theorem State.setFreq_phase (s : State) (f : Word) (h : Nat) : (s.setFreq f h).phase = s.phase := rfl
@[simp] theorem State.setFreq_sync (s : State) (f : Word) (h : Nat) : (s.setFreq f h).sync = s.sync := rfl
@[simp] theorem State.setFreq_chans (s : State) (f : Word) (h : Nat) : (s.setFreq f h).chans = s.chans := rfl
@[simp] theorem State.setFreq_out (s : State) (f : Word) (h : Nat) : (s.setFreq f h).out = s.out := rfl
@[simp] theorem State.setFreq_sched (s : State) (f : Word) (h : Nat) : (s.setFreq f h).sched = s.sched := rfl
@[simp] theorem State.setFreq_eng (s : State) (f : Word) (h : Nat) : (s.setFreq f h).eng = s.eng := rfl
@[simp] theorem State.setFreq_tele (s : State) (f : Word) (h : Nat) : (s.setFreq f h).tele = s.tele := rfl
@[simp] theorem State.setFreq_meas (s : State) (f : Word) (h : Nat) : (s.setFreq f h).meas = s.meas := rfl
@[simp] theorem State.setFreq_cfg (s : State) (f : Word) (h : Nat) : (s.setFreq f h).cfg = s.cfg := rfl
@[simp] theorem State.setFreq_port (s : State) (f : Word) (h : Nat) : (s.setFreq f h).port = s.port := rfl
@[simp] theorem State.setFreq_mains_freq (s : State) (f : Word) (h : Nat) : (s.setFreq f h).mains.freq = f := rfl
@[simp] theorem State.setFreq_mains_freqOvr (s : State) (f : Word) (h : Nat) : (s.setFreq f h).mains.freqOvr = s.mains.freqOvr := rfl
@[simp] theorem State.setFreq_mains_hTicks (s : State) (f : Word) (h : Nat) : (s.setFreq f h).mains.hTicks = BitVec.ofNat 16 h := rfl

/-! ## `State.clearFreq` -/

@[simp] theorem State.clearFreq_params (s : State) : s.clearFreq.params = s.params := rfl
@[simp] theorem State.clearFreq_inputs (s : State) : s.clearFreq.inputs = s.inputs := rfl
@[simp] theorem State.clearFreq_freeIdx (s : State) : s.clearFreq.freeIdx = s.freeIdx := rfl
@[simp] theorem State.clearFreq_time (s : State) : s.clearFreq.time = s.time := rfl
@[simp] theorem State.clearFreq_phase (s : State) : s.clearFreq.phase = s.phase := rfl
@[simp] theorem State.clearFreq_sync (s : State) : s.clearFreq.sync = s.sync := rfl
@[simp] theorem State.clearFreq_chans (s : State) : s.clearFreq.chans = s.chans := rfl
@[simp] theorem State.clearFreq_out (s : State) : s.clearFreq.out = s.out := rfl
@[simp] theorem State.clearFreq_sched (s : State) : s.clearFreq.sched = s.sched := rfl
@[simp] theorem State.clearFreq_eng (s : State) : s.clearFreq.eng = s.eng := rfl
@[simp] theorem State.clearFreq_tele (s : State) : s.clearFreq.tele = s.tele := rfl
@[simp] theorem State.clearFreq_meas (s : State) : s.clearFreq.meas = s.meas := rfl
@[simp] theorem State.clearFreq_cfg (s : State) : s.clearFreq.cfg = s.cfg := rfl
@[simp] theorem State.clearFreq_port (s : State) : s.clearFreq.port = s.port := rfl
@[simp] theorem State.clearFreq_mains_freq (s : State) : s.clearFreq.mains.freq = 0#32 := rfl
@[simp] theorem State.clearFreq_mains_freqOvr (s : State) : s.clearFreq.mains.freqOvr = s.mains.freqOvr := rfl
@[simp] theorem State.clearFreq_mains_hTicks (s : State) : s.clearFreq.mains.hTicks = 0#16 := rfl

/-! ## `State.stopSwitching` -/

@[simp] theorem State.stopSwitching_params (s : State) : s.stopSwitching.params = s.params := rfl
@[simp] theorem State.stopSwitching_inputs (s : State) : s.stopSwitching.inputs = s.inputs := rfl
@[simp] theorem State.stopSwitching_freeIdx (s : State) : s.stopSwitching.freeIdx = s.freeIdx := rfl
@[simp] theorem State.stopSwitching_phase (s : State) : s.stopSwitching.phase = s.phase := rfl
@[simp] theorem State.stopSwitching_sync (s : State) : s.stopSwitching.sync = s.sync := rfl
@[simp] theorem State.stopSwitching_mains (s : State) : s.stopSwitching.mains = s.mains := rfl
@[simp] theorem State.stopSwitching_chans (s : State) : s.stopSwitching.chans = s.chans := rfl
@[simp] theorem State.stopSwitching_tele (s : State) : s.stopSwitching.tele = s.tele := rfl
@[simp] theorem State.stopSwitching_meas (s : State) : s.stopSwitching.meas = s.meas := rfl
@[simp] theorem State.stopSwitching_cfg (s : State) : s.stopSwitching.cfg = s.cfg := rfl
@[simp] theorem State.stopSwitching_port (s : State) : s.stopSwitching.port = s.port := rfl
@[simp] theorem State.stopSwitching_time_now (s : State) : s.stopSwitching.time.now = s.time.now := rfl
@[simp] theorem State.stopSwitching_time_hwTcnt (s : State) : s.stopSwitching.time.hwTcnt = s.time.hwTcnt := rfl
@[simp] theorem State.stopSwitching_time_ocra (s : State) : s.stopSwitching.time.ocra = s.time.ocra := rfl
@[simp] theorem State.stopSwitching_time_cmpaEn (s : State) : s.stopSwitching.time.cmpaEn = false := rfl
@[simp] theorem State.stopSwitching_time_ocrb (s : State) : s.stopSwitching.time.ocrb = s.time.ocrb := rfl
@[simp] theorem State.stopSwitching_time_cmpbEn (s : State) : s.stopSwitching.time.cmpbEn = false := rfl
@[simp] theorem State.stopSwitching_out (s : State) : s.stopSwitching.out = 0#8 := rfl
@[simp] theorem State.stopSwitching_sched_act (s : State) : s.stopSwitching.sched.act = Buffer.empty s.params.nch := rfl
@[simp] theorem State.stopSwitching_sched_next (s : State) : s.stopSwitching.sched.next = Buffer.empty s.params.nch := rfl
@[simp] theorem State.stopSwitching_sched_scratch (s : State) : s.stopSwitching.sched.scratch = s.sched.scratch := rfl
@[simp] theorem State.stopSwitching_sched_idx (s : State) : s.stopSwitching.sched.idx = 0#4 := rfl
@[simp] theorem State.stopSwitching_eng (s : State) : s.stopSwitching.eng = .idle := rfl

/-! ## `State.sampleZc` -/

@[simp] theorem State.sampleZc_params (s : State) (zc : Bool) : (s.sampleZc zc).params = s.params := rfl
@[simp] theorem State.sampleZc_inputs (s : State) (zc : Bool) : (s.sampleZc zc).inputs = s.inputs := rfl
@[simp] theorem State.sampleZc_freeIdx (s : State) (zc : Bool) : (s.sampleZc zc).freeIdx = s.freeIdx := rfl
@[simp] theorem State.sampleZc_time (s : State) (zc : Bool) : (s.sampleZc zc).time = s.time := rfl
@[simp] theorem State.sampleZc_phase (s : State) (zc : Bool) : (s.sampleZc zc).phase = s.phase := rfl
@[simp] theorem State.sampleZc_mains (s : State) (zc : Bool) : (s.sampleZc zc).mains = s.mains := rfl
@[simp] theorem State.sampleZc_chans (s : State) (zc : Bool) : (s.sampleZc zc).chans = s.chans := rfl
@[simp] theorem State.sampleZc_out (s : State) (zc : Bool) : (s.sampleZc zc).out = s.out := rfl
@[simp] theorem State.sampleZc_sched (s : State) (zc : Bool) : (s.sampleZc zc).sched = s.sched := rfl
@[simp] theorem State.sampleZc_eng (s : State) (zc : Bool) : (s.sampleZc zc).eng = s.eng := rfl
@[simp] theorem State.sampleZc_tele (s : State) (zc : Bool) : (s.sampleZc zc).tele = s.tele := rfl
@[simp] theorem State.sampleZc_meas (s : State) (zc : Bool) : (s.sampleZc zc).meas = s.meas := rfl
@[simp] theorem State.sampleZc_cfg (s : State) (zc : Bool) : (s.sampleZc zc).cfg = s.cfg := rfl
@[simp] theorem State.sampleZc_port (s : State) (zc : Bool) : (s.sampleZc zc).port = s.port := rfl
@[simp] theorem State.sampleZc_sync_zcPrev (s : State) (zc : Bool) : (s.sampleZc zc).sync.zcPrev = normSample s.params zc := rfl
@[simp] theorem State.sampleZc_sync_lastEdge (s : State) (zc : Bool) : (s.sampleZc zc).sync.lastEdge = s.sync.lastEdge := rfl
@[simp] theorem State.sampleZc_sync_lastEdgeValid (s : State) (zc : Bool) : (s.sampleZc zc).sync.lastEdgeValid = s.sync.lastEdgeValid := rfl
@[simp] theorem State.sampleZc_sync_invalidCnt (s : State) (zc : Bool) : (s.sampleZc zc).sync.invalidCnt = s.sync.invalidCnt := rfl
@[simp] theorem State.sampleZc_sync_hwMin (s : State) (zc : Bool) : (s.sampleZc zc).sync.hwMin = s.sync.hwMin := rfl
@[simp] theorem State.sampleZc_sync_hwMax (s : State) (zc : Bool) : (s.sampleZc zc).sync.hwMax = s.sync.hwMax := rfl
@[simp] theorem State.sampleZc_sync_oosCnt (s : State) (zc : Bool) : (s.sampleZc zc).sync.oosCnt = s.sync.oosCnt := rfl
@[simp] theorem State.sampleZc_sync_oosDir (s : State) (zc : Bool) : (s.sampleZc zc).sync.oosDir = s.sync.oosDir := rfl

/-! ## `State.raiseIf` -/

@[simp] theorem State.raiseIf_true (s : State) (e : Event) : s.raiseIf true e = s.raise e := rfl
@[simp] theorem State.raiseIf_false (s : State) (e : Event) : s.raiseIf false e = s := rfl
@[simp] theorem State.raiseIf_params (s : State) (b : Bool) (e : Event) : (s.raiseIf b e).params = s.params := by cases b <;> rfl
@[simp] theorem State.raiseIf_inputs (s : State) (b : Bool) (e : Event) : (s.raiseIf b e).inputs = s.inputs := by cases b <;> rfl
@[simp] theorem State.raiseIf_freeIdx (s : State) (b : Bool) (e : Event) : (s.raiseIf b e).freeIdx = s.freeIdx := by cases b <;> rfl
@[simp] theorem State.raiseIf_time (s : State) (b : Bool) (e : Event) : (s.raiseIf b e).time = s.time := by cases b <;> rfl
@[simp] theorem State.raiseIf_phase (s : State) (b : Bool) (e : Event) : (s.raiseIf b e).phase = s.phase := by cases b <;> rfl
@[simp] theorem State.raiseIf_sync (s : State) (b : Bool) (e : Event) : (s.raiseIf b e).sync = s.sync := by cases b <;> rfl
@[simp] theorem State.raiseIf_mains (s : State) (b : Bool) (e : Event) : (s.raiseIf b e).mains = s.mains := by cases b <;> rfl
@[simp] theorem State.raiseIf_chans (s : State) (b : Bool) (e : Event) : (s.raiseIf b e).chans = s.chans := by cases b <;> rfl
@[simp] theorem State.raiseIf_out (s : State) (b : Bool) (e : Event) : (s.raiseIf b e).out = s.out := by cases b <;> rfl
@[simp] theorem State.raiseIf_sched (s : State) (b : Bool) (e : Event) : (s.raiseIf b e).sched = s.sched := by cases b <;> rfl
@[simp] theorem State.raiseIf_eng (s : State) (b : Bool) (e : Event) : (s.raiseIf b e).eng = s.eng := by cases b <;> rfl
@[simp] theorem State.raiseIf_meas (s : State) (b : Bool) (e : Event) : (s.raiseIf b e).meas = s.meas := by cases b <;> rfl
@[simp] theorem State.raiseIf_cfg (s : State) (b : Bool) (e : Event) : (s.raiseIf b e).cfg = s.cfg := by cases b <;> rfl
@[simp] theorem State.raiseIf_port (s : State) (b : Bool) (e : Event) : (s.raiseIf b e).port = s.port := by cases b <;> rfl
@[simp] theorem State.raiseIf_tele_chState (s : State) (b : Bool) (e : Event) : (s.raiseIf b e).tele.chState = s.tele.chState := by cases b <;> rfl
@[simp] theorem State.raiseIf_tele_fadeDone (s : State) (b : Bool) (e : Event) : (s.raiseIf b e).tele.fadeDone = s.tele.fadeDone := by cases b <;> rfl
@[simp] theorem State.raiseIf_tele_fadeDoneLevel (s : State) (b : Bool) (e : Event) : (s.raiseIf b e).tele.fadeDoneLevel = s.tele.fadeDoneLevel := by cases b <;> rfl

/-! ## `State.popInput` -/

@[simp] theorem State.popInput_params (s : State) : s.popInput.params = s.params := by unfold State.popInput; split <;> rfl
@[simp] theorem State.popInput_time (s : State) : s.popInput.time = s.time := by unfold State.popInput; split <;> rfl
@[simp] theorem State.popInput_phase (s : State) : s.popInput.phase = s.phase := by unfold State.popInput; split <;> rfl
@[simp] theorem State.popInput_sync (s : State) : s.popInput.sync = s.sync := by unfold State.popInput; split <;> rfl
@[simp] theorem State.popInput_mains (s : State) : s.popInput.mains = s.mains := by unfold State.popInput; split <;> rfl
@[simp] theorem State.popInput_chans (s : State) : s.popInput.chans = s.chans := by unfold State.popInput; split <;> rfl
@[simp] theorem State.popInput_out (s : State) : s.popInput.out = s.out := by unfold State.popInput; split <;> rfl
@[simp] theorem State.popInput_sched (s : State) : s.popInput.sched = s.sched := by unfold State.popInput; split <;> rfl
@[simp] theorem State.popInput_eng (s : State) : s.popInput.eng = s.eng := by unfold State.popInput; split <;> rfl
@[simp] theorem State.popInput_tele (s : State) : s.popInput.tele = s.tele := by unfold State.popInput; split <;> rfl
@[simp] theorem State.popInput_meas (s : State) : s.popInput.meas = s.meas := by unfold State.popInput; split <;> rfl
@[simp] theorem State.popInput_cfg (s : State) : s.popInput.cfg = s.cfg := by unfold State.popInput; split <;> rfl
@[simp] theorem State.popInput_port (s : State) : s.popInput.port = s.port := by unfold State.popInput; split <;> rfl

/-! ## `State.resetBlock` -/

@[simp] theorem State.resetBlock_params (s : State) : s.resetBlock.params = s.params := rfl
@[simp] theorem State.resetBlock_inputs (s : State) : s.resetBlock.inputs = s.inputs := rfl
@[simp] theorem State.resetBlock_freeIdx (s : State) : s.resetBlock.freeIdx = s.freeIdx := rfl
@[simp] theorem State.resetBlock_time (s : State) : s.resetBlock.time = (State.resetWith s.params).time := rfl
@[simp] theorem State.resetBlock_phase (s : State) : s.resetBlock.phase = (State.resetWith s.params).phase := rfl
@[simp] theorem State.resetBlock_sync (s : State) : s.resetBlock.sync = (State.resetWith s.params).sync := rfl
@[simp] theorem State.resetBlock_mains (s : State) : s.resetBlock.mains = (State.resetWith s.params).mains := rfl
@[simp] theorem State.resetBlock_chans (s : State) : s.resetBlock.chans = (State.resetWith s.params).chans := rfl
@[simp] theorem State.resetBlock_out (s : State) : s.resetBlock.out = (State.resetWith s.params).out := rfl
@[simp] theorem State.resetBlock_sched (s : State) : s.resetBlock.sched = (State.resetWith s.params).sched := rfl
@[simp] theorem State.resetBlock_eng (s : State) : s.resetBlock.eng = (State.resetWith s.params).eng := rfl
@[simp] theorem State.resetBlock_tele (s : State) : s.resetBlock.tele = (State.resetWith s.params).tele := rfl
@[simp] theorem State.resetBlock_meas (s : State) : s.resetBlock.meas = (State.resetWith s.params).meas := rfl
@[simp] theorem State.resetBlock_cfg (s : State) : s.resetBlock.cfg = (State.resetWith s.params).cfg := rfl
@[simp] theorem State.resetBlock_port (s : State) : s.resetBlock.port = (State.resetWith s.params).port := rfl

end Sys2Proof.Machine
end

