-- ==== Sys2Proof/Laws/Ops.lean ====
section
/-! SUPPORT. What each shared operation of Machine/Ops.lean does: outcomes, arithmetic, channel masks, events, the channel
file, the port samples. -/

namespace Sys2Proof.Machine

/-! ## Outcomes -/

@[simp] theorem andThen_next (s : State) (f : State → Result) : andThen (.next s) f = f s := rfl

/-- A chain of two operations answers a next state exactly when both do. -/
theorem andThen_eq_next {r : Result} {f : State → Result} {t : State} :
    andThen r f = .next t ↔ ∃ s, r = .next s ∧ f s = .next t := by
  cases r <;> simp [andThen]

/-! ## Arithmetic -/

theorem clamp_eq (v lo hi : Int) (h : lo ≤ hi) : clamp v lo hi = max lo (min v hi) := by
  unfold clamp; split <;> [skip; split] <;> omega

/-- The clamped quotient of the calculator needs no clamp when it is at most the bound. -/
theorem clamp_natCast (a r : Nat) : (clamp (a : Int) 0 r).toNat = min a r := by
  rw [clamp_eq _ _ _ (by omega)]; omega

/-- `norm` as a bound on a number (R177). -/
theorem norm_le (lm : Nat) (x : Half) : norm lm x ≤ lm := by
  unfold norm; rw [clamp_eq _ _ _ (by omega)]; omega

theorem norm_eq (lm : Nat) (x : Half) : (norm lm x : Int) = max 0 (min x.toInt lm) := by
  unfold norm; rw [clamp_eq _ _ _ (by omega)]; omega

theorem percentOf_le (h dev : Nat) (hd : dev ≤ 100) : percentOf h dev ≤ h := by
  unfold percentOf
  calc h * dev / 100 ≤ h * 100 / 100 := Nat.div_le_div_right (Nat.mul_le_mul_left h hd)
    _ = h := by simp

/-! ## Channel masks -/

theorem one_shiftLeft_getLsbD (n i : Nat) : (1#8 <<< n).getLsbD i = (decide (i = n) && decide (i < 8)) := by
  rw [Bool.eq_iff_iff]
  simp only [BitVec.getLsbD_shiftLeft, BitVec.getLsbD_one, Bool.and_eq_true, decide_eq_true_eq, Bool.not_eq_true',
    decide_eq_false_iff_not]
  omega

/-- The bits of a mask built from a predicate on the channels. -/
theorem maskOf_getLsbD (n : Nat) (f : Nat → Bool) (i : Nat) :
    (maskOf n f).getLsbD i = (decide (i < n) && decide (i < 8) && f i) := by
  induction n with
  | zero => simp [maskOf]
  | succ n ih =>
    rw [maskOf, BitVec.getLsbD_or, ih]
    by_cases hf : f n = true
    · rw [if_pos hf, one_shiftLeft_getLsbD, Bool.eq_iff_iff]
      by_cases hi : i = n
      · subst hi; simp [hf]
      · have : (i < n + 1) ↔ i < n := by omega
        simp [hi, this]
    · rw [if_neg hf, Bool.eq_iff_iff]
      by_cases hi : i = n
      · subst hi; simp [hf]
      · have : (i < n + 1) ↔ i < n := by omega
        simp [this]

/-- A byte whose bits from `n` on are 0 is below `2 ^ n`. -/
theorem toNat_lt_of_getLsbD (b : Byte) (n : Nat) (h : ∀ i, n ≤ i → b.getLsbD i = false) : b.toNat < 2 ^ n :=
  Nat.lt_pow_two_of_testBit _ fun i hi => by simpa [BitVec.getLsbD] using h i hi

/-- A byte below `2 ^ n` has no bit from `n` on. -/
theorem getLsbD_of_toNat_lt {b : Byte} {n i : Nat} (h : b.toNat < 2 ^ n) (hi : n ≤ i) : b.getLsbD i = false := by
  rw [BitVec.getLsbD]
  exact Nat.testBit_lt_two_pow (Nat.lt_of_lt_of_le h (Nat.pow_le_pow_right (by omega) hi))

theorem maskOf_lt (n : Nat) (f : Nat → Bool) : (maskOf n f).toNat < 2 ^ n :=
  toNat_lt_of_getLsbD _ _ fun i hi => by rw [maskOf_getLsbD]; simp [Nat.not_lt.mpr hi]

/-- Toggling one pin changes that pin alone. -/
theorem toggleBit_getLsbD (out c : Byte) (i : Nat) :
    (toggleBit out c).getLsbD i = Bool.xor (out.getLsbD i) (decide (i = c.toNat) && decide (i < 8)) := by
  rw [toggleBit, BitVec.getLsbD_xor, one_shiftLeft_getLsbD]

/-- Toggling distinct channels flips exactly their pins. -/
theorem toggleAll_getLsbD (es : List Entry) (out : Byte) (i : Nat) (hi : i < 8) (hd : (es.map Entry.ch).Nodup) :
    (toggleAll es out).getLsbD i = Bool.xor (out.getLsbD i) (es.any fun e => e.ch.toNat == i) := by
  induction es generalizing out with
  | nil => simp [toggleAll]
  | cons e es ih =>
    simp only [List.map_cons, List.nodup_cons, List.mem_map, not_exists, not_and] at hd
    have h := ih (toggleBit out e.ch) hd.2
    simp only [toggleAll, List.foldl_cons] at h ⊢
    rw [h, toggleBit_getLsbD, List.any_cons]
    by_cases hc : i = e.ch.toNat
    · have : (es.any fun x => x.ch.toNat == i) = false := by
        rw [List.any_eq_false]
        intro x hx
        have := hd.1 x hx
        simp only [beq_iff_eq]
        intro hxc
        exact this (BitVec.eq_of_toNat_eq (by omega))
      have h8 : e.ch.toNat < 8 := hc ▸ hi
      rw [this]; simp [hc, h8]
    · have h2 : (e.ch.toNat == i) = false := by simp; omega
      simp [hc, h2]

/-- Toggling channels below `n` leaves the pins from `n` on as they are. -/
theorem toggleAll_lt (es : List Entry) (out : Byte) (n : Nat) (hout : out.toNat < 2 ^ n)
    (hes : ∀ e ∈ es, e.ch.toNat < n) : (toggleAll es out).toNat < 2 ^ n := by
  induction es generalizing out with
  | nil => simpa [toggleAll] using hout
  | cons e es ih =>
    simp only [toggleAll, List.foldl_cons]
    refine ih _ ?_ fun x hx => hes x (List.mem_cons_of_mem _ hx)
    refine toNat_lt_of_getLsbD _ _ fun i hi => ?_
    have := hes e List.mem_cons_self
    rw [toggleBit_getLsbD, getLsbD_of_toNat_lt hout hi]
    have : i ≠ e.ch.toNat := by omega
    simp [this]

/-! ## Events -/

theorem Event.code_lt (e : Event) : e.code < 7 := by cases e <;> decide

theorem Event.code_injective {e f : Event} (h : e.code = f.code) : e = f := by
  cases e <;> cases f <;> simp_all [Event.code]

/-- The mask of an event has its bit alone. -/
theorem Event.mask_getLsbD (e : Event) (i : Nat) : e.mask.getLsbD i = decide (i = e.code) := by
  have := e.code_lt
  rw [Event.mask, one_shiftLeft_getLsbD, Bool.eq_iff_iff]
  simp; omega

/-- Raising an event makes it pending and changes no other event (R251). -/
@[simp] theorem State.pending_raise (s : State) (e f : Event) :
    (s.raise e).pending f = (s.pending f || decide (f = e)) := by
  rw [State.pending, State.raise_tele_evtPending, BitVec.getLsbD_or, Event.mask_getLsbD, Bool.eq_iff_iff]
  simp only [Bool.or_eq_true, decide_eq_true_eq]
  constructor
  · rintro (h | h)
    · exact .inl h
    · exact .inr (Event.code_injective h)
  · rintro (h | h)
    · exact .inl h
    · exact .inr (by rw [h])

/-- Raising an event under a condition (R251). -/
theorem State.pending_raiseIf (s : State) (b : Bool) (e f : Event) :
    (s.raiseIf b e).pending f = (s.pending f || (b && decide (f = e))) := by
  cases b <;> simp

/-- Acknowledging clears exactly the events of the mask (R227). -/
theorem State.pending_acknowledge (s : State) (m : Byte) (e : Event) :
    (s.acknowledge m).pending e = (s.pending e && !m.getLsbD e.code) := by
  have := e.code_lt
  rw [State.pending, State.acknowledge_tele_evtPending, BitVec.getLsbD_and, BitVec.getLsbD_not]
  have h : decide (e.code < 8) = true := by simp; omega
  simp [h, State.pending]

/-- Bit 7 of `EVT_PENDING` stays 0 when an event is raised (R250). -/
theorem raise_bit7 (s : State) (e : Event) : (s.raise e).tele.evtPending.getLsbD 7 = s.tele.evtPending.getLsbD 7 := by
  have := e.code_lt
  rw [State.raise_tele_evtPending, BitVec.getLsbD_or, Event.mask_getLsbD]
  have : ¬ 7 = e.code := by omega
  simp [this]

theorem raiseIf_bit7 (s : State) (b : Bool) (e : Event) :
    (s.raiseIf b e).tele.evtPending.getLsbD 7 = s.tele.evtPending.getLsbD 7 := by
  cases b
  · rfl
  · exact raise_bit7 s e

/-! ## The channel file -/

/-- A channel below the number of elements is an element. -/
theorem State.chan_mem (s : State) {c : Nat} (h : c < s.chans.length) : s.chan c ∈ s.chans := by
  rw [State.chan, List.getD_eq_getElem _ _ h]; exact List.getElem_mem h

/-- A channel after a procedure ran on every channel. -/
theorem chan_map (s : State) (f : Channel → Channel) (c : Nat) (h : c < s.chans.length) :
    ({ s with chans := s.chans.map f } : State).chan c = f (s.chan c) := by
  simp [State.chan, List.getD_eq_getElem?_getD, List.getElem?_map, List.getElem?_eq_getElem h]

/-- A channel after a procedure ran on the selected channels (R175). -/
theorem chan_mapSelected (s : State) (sel : ChanSel) (f : Channel → Channel) (c : Nat) (h : c < s.chans.length) :
    ({ s with chans := mapSelected sel f s.chans } : State).chan c =
      if sel = .all ∨ sel = .one c then f (s.chan c) else s.chan c := by
  cases sel with
  | all => rw [if_pos (.inl rfl)]; exact chan_map s f c h
  | one k =>
    simp only [mapSelected, State.chan, List.getD_eq_getElem?_getD, List.getElem?_modify,
      List.getElem?_eq_getElem h, reduceCtorEq, false_or, ChanSel.one.injEq]
    by_cases hk : k = c <;> simp [hk]

@[simp] theorem mapSelected_length (sel : ChanSel) (f : Channel → Channel) (l : List Channel) :
    (mapSelected sel f l).length = l.length := by
  cases sel <;> simp [mapSelected]

/-- Every channel after a procedure on some is a channel before or what the procedure made of one. -/
theorem mem_mapSelected {sel : ChanSel} {f : Channel → Channel} {l : List Channel} {y : Channel}
    (h : y ∈ mapSelected sel f l) : y ∈ l ∨ ∃ x ∈ l, y = f x := by
  cases sel with
  | all =>
    obtain ⟨x, hx, rfl⟩ := List.mem_map.mp h
    exact .inr ⟨x, hx, rfl⟩
  | one c =>
    obtain ⟨n, hn, rfl⟩ := List.mem_iff_getElem.mp h
    rw [mapSelected, List.length_modify] at hn
    simp only [mapSelected, List.getElem_modify]
    by_cases hc : c = n
    · exact .inr ⟨l[n], List.getElem_mem hn, by simp [hc]⟩
    · exact .inl (by simp [hc])

/-- The integer level is the level divided by 65536 (R29). -/
theorem Channel.level_eq (x : Channel) : x.level = x.levelFp.toNat / 65536 := by
  have := x.levelFp.isLt
  rw [Channel.level, BitVec.extractLsb'_toNat, Nat.shiftRight_eq_div_pow]
  exact Nat.mod_eq_of_lt (by omega)

/-- A channel at an integer level has that level (R178). -/
theorem Channel.atLevel_level (v : Nat) (h : v < 65536) : (Channel.atLevel v).level = v := by
  rw [Channel.level_eq, Channel.atLevel, BitVec.toNat_ofNat, Nat.mod_eq_of_lt (by omega)]
  omega

/-! ## The channel operand (R175) -/

theorem chanOperand_eq_none {nch : Nat} {ch : Byte} : chanOperand nch ch = none ↔ chLegal nch ch = false := by
  unfold chanOperand chLegal
  split
  · rename_i h1; simp [h1]
  · rename_i h1
    split
    · rename_i h2; simp [h2]
    · rename_i h2; simp [h1, h2]

/-- An operation on a legal channel operand changes the channel file alone. -/
theorem onChannels_legal {nch : Nat} {ch : Byte} {sel : ChanSel} (f : Channel → Channel) {s : State}
    (hn : s.params.nch = nch) (h : chanOperand nch ch = some sel) :
    onChannels ch f s = { s with chans := mapSelected sel f s.chans } := by
  subst hn; simp [onChannels, h]

/-- An operation on an illegal channel operand raises `EV_CMD_ERR` alone (R175). -/
theorem onChannels_illegal {ch : Byte} (f : Channel → Channel) {s : State}
    (h : chanOperand s.params.nch ch = none) : onChannels ch f s = s.raise .cmdErr := by
  simp [onChannels, h]

/-! ## The port samples -/

/-- With samples waiting, the next step takes the first. -/
theorem nextInput_cons {s : State} {i : TickInput} {rest : List TickInput} (h : s.inputs = i :: rest) :
    s.nextInput = i := by simp [State.nextInput, h]

theorem popInput_cons {s : State} {i : TickInput} {rest : List TickInput} (h : s.inputs = i :: rest) :
    s.popInput = { s with inputs := rest } := by simp [State.popInput, h]

end Sys2Proof.Machine
end

