-- ==== Sys2Proof/Laws/Calculator.lean ====
section
/-! SUPPORT. What the calculator computes (Machine/Calculator.lean): the ranges of `rescale`, `on_ticks` and `sw_ticks`,
the entries of a schedule, and the buffer that `calc()` returns. -/

namespace Sys2Proof.Machine

/-! ## The range mapping and the offsets -/

/-- Each other mapping stays in range (R152). -/
theorem otherRescale_le (lm rb dv l : Nat) : otherRescale lm rb dv l ≤ lm := by
  induction l with
  | zero => exact Nat.min_le_right _ _
  | succ l ih => exact Nat.max_le.mpr ⟨ih, Nat.min_le_right _ _⟩

/-- Each other mapping is non-decreasing (R152). -/
theorem otherRescale_mono (lm rb dv : Nat) {l l' : Nat} (h : l ≤ l') :
    otherRescale lm rb dv l ≤ otherRescale lm rb dv l' := by
  induction h with
  | refl => exact Nat.le_refl _
  | step _ ih => exact Nat.le_trans ih (Nat.le_max_left _ _)

/-- The mapping R152 writes out, with its clamp as a minimum. -/
theorem rescale_rule152 {p : Params} {cfg : CfgRegs} (hr : p.rescale = .rule152) (hd : cfg.rangeDiv ≠ 0#16) (l : Nat) :
    rescale p cfg l = min (cfg.rangeBegin.toNat + l * p.levelMax / cfg.rangeDiv.toNat) p.levelMax := by
  rw [rescale, if_neg hd, hr]
  dsimp only
  generalize cfg.rangeBegin.toNat + l * p.levelMax / cfg.rangeDiv.toNat = z
  unfold clamp
  split <;> (try split) <;> omega

/-- `rescale` stays in `[0, LEVEL_MAX]` (R152). -/
theorem rescale_le (p : Params) (cfg : CfgRegs) {l : Nat} (h : l ≤ p.levelMax) : rescale p cfg l ≤ p.levelMax := by
  unfold rescale
  split
  · exact h
  · split
    · rw [clamp_natCast]; exact Nat.min_le_right _ _
    · exact otherRescale_le _ _ _ _

/-- `rescale` is non-decreasing (R152). -/
theorem rescale_mono (p : Params) (cfg : CfgRegs) {l l' : Nat} (h : l ≤ l') : rescale p cfg l ≤ rescale p cfg l' := by
  unfold rescale
  split
  · exact h
  · split
    · rw [clamp_natCast, clamp_natCast]
      have : l * p.levelMax / cfg.rangeDiv.toNat ≤ l' * p.levelMax / cfg.rangeDiv.toNat :=
        Nat.div_le_div_right (Nat.mul_le_mul_right _ h)
      omega
    · exact otherRescale_mono _ _ _ h

/-- `on_ticks` with its clamp written as a minimum (R151). -/
theorem onTicks_eq (p : Params) (cfg : CfgRegs) (l h : Nat) :
    onTicks p cfg l h = cfg.minOn.toNat +
      min ((h - cfg.minOn.toNat - cfg.minOff.toNat) * rescale p cfg l / p.levelMax)
        (h - cfg.minOn.toNat - cfg.minOff.toNat) := by
  simp only [onTicks, clamp_natCast]

/-- An offset never lies beyond the half-wave (R153). -/
theorem swTicks_le (p : Params) (cfg : CfgRegs) (l h : Nat) (hg : cfg.minOn.toNat + cfg.minOff.toNat ≤ h) :
    swTicks p cfg l h ≤ h := by
  unfold swTicks
  split
  · omega
  · rw [onTicks_eq]; omega

/-! ## The entries of a schedule -/

/-- The order of a schedule, as a proposition (R155). -/
theorem entryLe_iff (a b : Entry) : entryLe a b = true ↔
    a.ticks.toNat < b.ticks.toNat ∨ (a.ticks.toNat = b.ticks.toNat ∧ a.ch.toNat ≤ b.ch.toNat) := by
  simp [entryLe]

theorem sortEntries_perm (es : List Entry) : (sortEntries es).Perm es := List.perm_insertionSort _ es

/-- The sorted entries are in the order of R155. -/
theorem sortEntries_pairwise (es : List Entry) : (sortEntries es).Pairwise fun a b => entryLe a b = true := by
  have : Std.Total fun a b : Entry => entryLe a b = true :=
    ⟨fun a b => by simp only [entryLe_iff]; omega⟩
  have : IsTrans Entry fun a b => entryLe a b = true :=
    ⟨fun a b c => by simp only [entryLe_iff]; omega⟩
  exact List.pairwise_insertionSort _ es

/-- The entries before sorting: one for each partly-on channel, at its offset (R154, R156). -/
theorem mem_rawEntries {s : State} {e : Entry} (hn : s.params.nch ≤ 8) : e ∈ rawEntries s ↔
    e.ch.toNat < s.params.nch ∧ partlyOn s.params (s.chan e.ch.toNat).level = true ∧
      e.ticks = BitVec.ofNat 16 (swTicks s.params s.cfg (s.chan e.ch.toNat).level s.mains.hTicks.toNat) := by
  simp only [rawEntries, List.mem_map, List.mem_filter, List.mem_range]
  constructor
  · rintro ⟨c, ⟨hc, hp⟩, rfl⟩
    have : (BitVec.ofNat 8 c).toNat = c := by simp; omega
    simp only [this]
    exact ⟨hc, hp, trivial⟩
  · rintro ⟨hc, hp, ht⟩
    refine ⟨e.ch.toNat, ⟨hc, hp⟩, ?_⟩
    rw [← ht]; simp

/-- The entries' channels, before sorting. -/
theorem rawEntries_ch (s : State) : (rawEntries s).map Entry.ch =
    ((List.range s.params.nch).filter fun c => partlyOn s.params (s.chan c).level).map (BitVec.ofNat 8) := by
  simp only [rawEntries, List.map_map]; rfl

theorem rawEntries_nodup {s : State} (hn : s.params.nch ≤ 8) : ((rawEntries s).map Entry.ch).Nodup := by
  rw [rawEntries_ch]
  refine List.Nodup.map_on ?_ (List.nodup_range.filter _)
  intro a ha b hb hab
  have ha := List.mem_range.mp (List.mem_filter.mp ha).1
  have hb := List.mem_range.mp (List.mem_filter.mp hb).1
  have := congrArg BitVec.toNat hab
  simp only [BitVec.toNat_ofNat] at this
  omega

theorem rawEntries_length_le (s : State) : (rawEntries s).length ≤ s.params.nch := by
  simp only [rawEntries, List.length_map]
  exact Nat.le_trans (List.length_filter_le _ _) (by simp)

theorem sortEntries_length (es : List Entry) : (sortEntries es).length = es.length := (sortEntries_perm es).length_eq

/-! ## The buffer -/

/-- The fields of a buffer built from entries: the real entries are those, every slot after them the sentinel (R156). -/
theorem ofEntries_real (nch : Nat) (es : List Entry) (m : Byte) (b : Bool) (h : es.length ≤ 15) :
    (Buffer.ofEntries nch es m b).real = es := by
  have : (BitVec.ofNat 4 es.length).toNat = es.length := by simp; omega
  simp only [Buffer.real, Buffer.ofEntries, this, List.take_left']

theorem ofEntries_count (nch : Nat) (es : List Entry) (m : Byte) (b : Bool) (h : es.length ≤ 15) :
    (Buffer.ofEntries nch es m b).count.toNat = es.length := by
  simp only [Buffer.ofEntries, BitVec.toNat_ofNat]; omega

/-- A buffer built from distinct channels with their mask bits, in ascending order, is well-formed (R31). -/
theorem ofEntries_wellFormed {nch : Nat} {es : List Entry} {m : Byte} {b : Bool} (hn : nch ≤ 8)
    (hl : es.length ≤ nch) (hd : (es.map Entry.ch).Nodup) (hc : ∀ e ∈ es, e.ch.toNat < nch)
    (hs : es.Pairwise fun x y => x.ticks ≤ y.ticks) (hm : ∀ e ∈ es, m.getLsbD e.ch.toNat = true)
    (hmn : m.toNat < 2 ^ nch) : (Buffer.ofEntries nch es m b).WellFormed nch := by
  have hreal := ofEntries_real nch es m b (by omega)
  have hcount := ofEntries_count nch es m b (by omega)
  refine ⟨by omega, ?_, by rw [hreal]; exact hd, by rw [hreal]; exact hc, by rw [hreal]; exact hs,
    by rw [hreal]; exact hm, ?_, hmn⟩
  · simp only [Buffer.ofEntries, List.length_append, List.length_replicate]; omega
  · rw [hcount]; simp only [Buffer.ofEntries, List.drop_left']

/-- The empty buffer has no real entry and is well-formed (R31). -/
theorem empty_wellFormed (nch : Nat) : (Buffer.empty nch).WellFormed nch := by
  refine ⟨?_, ?_, ?_, ?_, ?_, ?_, ?_, ?_⟩ <;> simp [Buffer.empty, Buffer.real]

@[simp] theorem empty_real (nch : Nat) : (Buffer.empty nch).real = [] := by simp [Buffer.empty, Buffer.real]

/-- The real entries of a well-formed buffer are as many as `count` says (R31). -/
theorem real_length {nch : Nat} {b : Buffer} (h : b.WellFormed nch) : b.real.length = b.count.toNat := by
  rw [Buffer.real, List.length_take, h.2.1]; have := h.1; omega

/-- A slot below `count` holds the real entry of its number (R31). -/
theorem slot_eq_real {nch : Nat} {b : Buffer} (h : b.WellFormed nch) {i : Nat} (hi : i < b.count.toNat) :
    b.slot i = b.real[i]'(by rw [real_length h]; exact hi) := by
  have hlen := h.2.1
  have hc := h.1
  rw [Buffer.slot, List.getD_eq_getElem _ _ (by omega)]
  simp only [Buffer.real, List.getElem_take]

/-! ## `calc()` -/

/-- The mask of the channels with a non-zero level (R154). -/
theorem nonZeroMask_getLsbD (s : State) (hn : s.params.nch ≤ 8) {c : Nat} (hc : c < s.params.nch) :
    (nonZeroMask s).getLsbD c = decide (0 < (s.chan c).level) := by
  rw [nonZeroMask, maskOf_getLsbD]
  have h8 : c < 8 := by omega
  simp [hc, h8]

/-- `calc()` with guard bands that fit: the sorted entries, the mask, the mode, no error (R156). -/
theorem calcSchedule_fits {s : State} (h : s.cfg.minOn.toNat + s.cfg.minOff.toNat ≤ s.mains.hTicks.toNat) :
    calcSchedule s =
      (Buffer.ofEntries s.params.nch (sortEntries (rawEntries s)) (nonZeroMask s) s.cfg.mode, false) := by
  have : guardsTooWide s.cfg s.mains.hTicks.toNat = false := by simp [guardsTooWide]; omega
  simp [calcSchedule, this]

/-- `calc()` with guard bands that do not fit: the empty buffer and the error (R156). -/
theorem calcSchedule_tooWide {s : State} (h : s.mains.hTicks.toNat < s.cfg.minOn.toNat + s.cfg.minOff.toNat) :
    calcSchedule s = (Buffer.empty s.params.nch, true) := by
  have : guardsTooWide s.cfg s.mains.hTicks.toNat = true := by simp [guardsTooWide]; omega
  simp [calcSchedule, this]

/-- The buffer of `calc()` is always well-formed (R156). -/
theorem calcSchedule_wellFormed {s : State} (hn : s.params.nch ≤ 8) :
    (calcSchedule s).1.WellFormed s.params.nch := by
  by_cases h : s.mains.hTicks.toNat < s.cfg.minOn.toNat + s.cfg.minOff.toNat
  · rw [calcSchedule_tooWide h]; exact empty_wellFormed _
  · rw [calcSchedule_fits (by omega)]
    have hp := sortEntries_perm (rawEntries s)
    refine ofEntries_wellFormed hn ?_ ?_ ?_ ?_ ?_ (maskOf_lt _ _)
    · rw [sortEntries_length]; exact rawEntries_length_le s
    · exact (hp.map _).nodup_iff.mpr (rawEntries_nodup hn)
    · intro e he; exact ((mem_rawEntries hn).mp (hp.mem_iff.mp he)).1
    · exact (sortEntries_pairwise _).imp fun {a b} h => by
        rw [entryLe_iff] at h; rw [BitVec.le_def]; omega
    · intro e he
      obtain ⟨hc, hl, -⟩ := (mem_rawEntries hn).mp (hp.mem_iff.mp he)
      rw [nonZeroMask_getLsbD s hn hc]
      simp only [partlyOn, decide_eq_true_eq] at hl ⊢
      exact hl.1

end Sys2Proof.Machine
end

