-- ==== Sys2Proof/Laws/Fading.lean ====
section
/-! SUPPORT. What the fading engine does to one channel (Machine/Fading.lean): a direct level, the set-up of a fade, one
fade step, each within the bounds of 43_fading_engine.md R184; and the fade part of `ENG_CALC`. -/

namespace Sys2Proof.Machine

/-! ## Arithmetic of the step size (R173, R157 (d)) -/

/-- The step size is bounded by its dividend and never overshoots: `n` steps of it go no further than the distance. -/
theorem tdiv_mul_between (a : Int) (n : Nat) (hn : 0 < n) (k : Nat) (hk : k ≤ n) :
    (0 ≤ a → 0 ≤ k * a.tdiv n ∧ k * a.tdiv n ≤ a) ∧ (a ≤ 0 → a ≤ k * a.tdiv n ∧ k * a.tdiv n ≤ 0) := by
  have pos : ∀ b : Int, 0 ≤ b → 0 ≤ (k : Int) * b.tdiv n ∧ (k : Int) * b.tdiv n ≤ b := by
    intro b hb
    have hq : 0 ≤ b.tdiv n := Int.tdiv_nonneg hb (by omega)
    have hm : b.tdiv n * (n : Int) ≤ b := by
      rw [Int.tdiv_eq_ediv_of_nonneg hb]; exact Int.ediv_mul_le b (by omega)
    refine ⟨Int.mul_nonneg (by omega) hq, ?_⟩
    calc (k : Int) * b.tdiv n ≤ n * b.tdiv n := Int.mul_le_mul_of_nonneg_right (by omega) hq
      _ = b.tdiv n * n := Int.mul_comm _ _
      _ ≤ b := hm
  refine ⟨pos a, fun ha => ?_⟩
  have := pos (-a) (by omega)
  rw [Int.neg_tdiv, Int.mul_neg] at this
  omega

/-- A signed number of 32 bits is read back as it was written. -/
theorem toInt_ofInt32 {v : Int} (h1 : -2 ^ 31 ≤ v) (h2 : v < 2 ^ 31) : (BitVec.ofInt 32 v).toInt = v := by
  rw [BitVec.toInt_ofInt]; exact Int.bmod_eq_of_le (by omega) (by omega)

/-- A level of at most 32767, as a Q16.16 word. -/
theorem levelWord_toInt {v : Nat} (h : v ≤ 32767) : (BitVec.ofNat 32 (v * 65536)).toInt = v * 65536 := by
  rw [BitVec.toInt_eq_toNat_of_lt] <;> rw [BitVec.toNat_ofNat, Nat.mod_eq_of_lt (by omega)] <;> omega

theorem levelWord_toNat {v : Nat} (h : v ≤ 32767) : (BitVec.ofNat 32 (v * 65536)).toNat = v * 65536 := by
  rw [BitVec.toNat_ofNat, Nat.mod_eq_of_lt (by omega)]

theorem target_toNat {v : Nat} (h : v ≤ 32767) : (BitVec.ofNat 16 v).toNat = v := by
  rw [BitVec.toNat_ofNat, Nat.mod_eq_of_lt (by omega)]

/-! ## One channel -/

/-- The integer level of a channel in range is at most `LEVEL_MAX` (R184). -/
theorem Channel.InRange.level_le {lm : Nat} {x : Channel} (h : x.InRange lm) : x.level ≤ lm := by
  have h1 := h.1
  rw [Channel.level_eq]
  have : x.levelFp.toInt = x.levelFp.toNat := by
    have := x.levelFp.isLt
    rw [BitVec.toInt_eq_toNat_cond] at h1 ⊢
    split at h1 <;> rename_i hc
    · rw [if_pos hc]
    · omega
  omega

/-- A channel set to a level in range is in range (R178). -/
theorem atLevel_inRange {lm v : Nat} (hlm : lm ≤ 32767) (hv : v ≤ lm) : (Channel.atLevel v).InRange lm := by
  have h1 := levelWord_toInt (v := v) (by omega)
  have h2 := levelWord_toNat (v := v) (by omega)
  have h3 := target_toNat (v := v) (by omega)
  refine ⟨?_, ?_, ?_, ?_⟩
  · simp only [Channel.atLevel, h1]; omega
  · simp only [Channel.atLevel, h1]; simp; omega
  · simp only [Channel.atLevel, h3]; exact hv
  · intro _
    simp only [Channel.atLevel, h2]
    exact ⟨Nat.mul_mod_left _ _, rfl⟩

/-- A frozen channel is in range (R174). -/
theorem freezeChannel_inRange {lm : Nat} {x : Channel} (hlm : lm ≤ 32767) (h : x.InRange lm) :
    (freezeChannel x).InRange lm := by
  unfold freezeChannel
  split
  · exact h
  · exact atLevel_inRange hlm h.level_le

/-- What a fade set-up stores, read back (R173). -/
theorem fading_spec {f t n : Nat} (hf : f ≤ 32767) (ht : t ≤ 32767) (hn : 0 < n) (hn2 : n < 2 ^ 32) :
    (Channel.fading f t n).levelFp.toInt = f * 65536 ∧
    (Channel.fading f t n).step.toInt = (((t : Int) - f) * 65536).tdiv n ∧
    (Channel.fading f t n).remain.toNat = n ∧ (Channel.fading f t n).target.toNat = t := by
  refine ⟨levelWord_toInt hf, ?_, ?_, target_toNat ht⟩
  · have h := tdiv_mul_between (((t : Int) - f) * 65536) n hn 1 hn
    rw [Channel.fading]
    refine toInt_ofInt32 ?_ ?_
    · rcases Int.le_total 0 (((t : Int) - f) * 65536) with h0 | h0
      · have := h.1 h0; omega
      · have := h.2 h0; omega
    · rcases Int.le_total 0 (((t : Int) - f) * 65536) with h0 | h0
      · have := h.1 h0; omega
      · have := h.2 h0; omega
  · rw [Channel.fading, BitVec.toNat_ofNat, Nat.mod_eq_of_lt hn2]

/-- A channel whose fade has been set up is in range (R184). -/
theorem fading_inRange {lm f t n : Nat} (hlm : lm ≤ 32767) (hf : f ≤ lm) (ht : t ≤ lm) (hn : 0 < n)
    (hn2 : n < 2 ^ 32) : (Channel.fading f t n).InRange lm := by
  obtain ⟨h1, h2, h3, h4⟩ := fading_spec (f := f) (t := t) (by omega) (by omega) hn hn2
  have hb := tdiv_mul_between (((t : Int) - f) * 65536) n hn n (Nat.le_refl _)
  refine ⟨by omega, ?_, by omega, ?_⟩
  · rw [h1, h2, h3]
    rcases Int.le_total 0 (((t : Int) - f) * 65536) with h0 | h0
    · have := hb.1 h0; omega
    · have := hb.2 h0; omega
  · intro h0
    have : n = 0 := by rw [← h3, h0]; rfl
    omega

/-- The step count fits its 32-bit register (R176). -/
theorem stepCount_lt (lm freq dur d : Nat) (abs : Bool) : stepCount lm freq dur d abs < 2 ^ 32 := by
  unfold stepCount
  split
  · omega
  · split <;> (unfold sat32; omega)

/-- A channel after `fade_one` is in range (R173, R184). -/
theorem fadeOne_inRange {lm freq : Nat} {a b dur : Half} {abs : Bool} {x : Channel} (hlm : lm ≤ 32767)
    (h : x.InRange lm) : (fadeOne lm freq a b dur abs x).InRange lm := by
  have hf : fadeStart lm a x ≤ lm := by
    unfold fadeStart; split
    · exact h.level_le
    · exact norm_le _ _
  unfold fadeOne
  split
  · exact freezeChannel_inRange hlm h
  · dsimp only
    split
    · exact atLevel_inRange hlm (norm_le _ _)
    · rename_i hc
      exact fading_inRange hlm hf (norm_le _ _) (by omega) (stepCount_lt _ _ _ _ _)

/-! ## One fade step (R180) -/

/-- A channel with no fade is left alone. -/
theorem fadeStep_idle {x : Channel} (h : x.remain = 0#32) : fadeStep x = x := by simp [fadeStep, h]

/-- The last step snaps to the target. -/
theorem fadeStep_last {x : Channel} (h : x.remain = 1#32) : fadeStep x = Channel.atLevel x.target.toNat := by
  simp [fadeStep, Channel.completes, Channel.atLevel, h]

/-- Every other step adds the step size and counts down. -/
theorem fadeStep_more {x : Channel} (h : 2 ≤ x.remain.toNat) :
    fadeStep x = { x with levelFp := x.levelFp + x.step, remain := x.remain - 1 } := by
  have h0 : x.remain ≠ 0#32 := by intro e; simp [e] at h
  have h1 : x.completes = false := by
    simp only [Channel.completes, beq_eq_false_iff_ne]; intro e; simp [e] at h
  simp [fadeStep, h0, h1]

/-- The sum of level and step is exact: it never leaves the level range (R184). -/
theorem add_step_toInt {lm : Nat} {x : Channel} (hlm : lm ≤ 32767) (h : x.InRange lm) (hr : 0 < x.remain.toNat) :
    (x.levelFp + x.step).toInt = x.levelFp.toInt + x.step.toInt ∧
      0 ≤ x.levelFp.toInt + x.step.toInt ∧ x.levelFp.toInt + x.step.toInt ≤ lm * 65536 := by
  obtain ⟨⟨a1, a2⟩, ⟨b1, b2⟩, -, -⟩ := h
  have key : 0 ≤ x.levelFp.toInt + x.step.toInt ∧ x.levelFp.toInt + x.step.toInt ≤ lm * 65536 := by
    rcases Int.le_total 0 x.step.toInt with h0 | h0
    · have : x.step.toInt ≤ x.remain.toNat * x.step.toInt := by
        have := Int.mul_le_mul_of_nonneg_right (show (1 : Int) ≤ x.remain.toNat by omega) h0
        simpa using this
      omega
    · have : x.remain.toNat * x.step.toInt ≤ x.step.toInt := by
        have := Int.mul_le_mul_of_nonpos_right (show (1 : Int) ≤ x.remain.toNat by omega) h0
        simpa using this
      omega
  refine ⟨?_, key⟩
  rw [BitVec.toInt_add]
  exact Int.bmod_eq_of_le (by omega) (by omega)

/-- A fade step keeps a channel in range (R184). -/
theorem fadeStep_inRange {lm : Nat} {x : Channel} (hlm : lm ≤ 32767) (h : x.InRange lm) :
    (fadeStep x).InRange lm := by
  by_cases h0 : x.remain = 0#32
  · rw [fadeStep_idle h0]; exact h
  · by_cases h1 : x.remain = 1#32
    · rw [fadeStep_last h1]; exact atLevel_inRange hlm h.2.2.1
    · have hr : 2 ≤ x.remain.toNat := by
        have n0 : x.remain.toNat ≠ 0 := fun e => h0 (BitVec.eq_of_toNat_eq (by simpa using e))
        have n1 : x.remain.toNat ≠ 1 := fun e => h1 (BitVec.eq_of_toNat_eq (by simpa using e))
        omega
      rw [fadeStep_more hr]
      obtain ⟨s1, s2, s3⟩ := add_step_toInt hlm h (by omega)
      have hrem : (x.remain - 1).toNat = x.remain.toNat - 1 := by
        rw [BitVec.toNat_sub_of_le (by rw [BitVec.le_def]; simp; omega)]; simp
      obtain ⟨-, ⟨b1, b2⟩, c, -⟩ := h
      refine ⟨by simp only [s1]; omega, ?_, c, ?_⟩
      · simp only [s1, hrem]
        have : ((x.remain.toNat - 1 : Nat) : Int) * x.step.toInt = x.remain.toNat * x.step.toInt - x.step.toInt := by
          rw [show ((x.remain.toNat - 1 : Nat) : Int) = (x.remain.toNat : Int) - 1 by omega, Int.sub_mul]; simp
        rw [this]; omega
      · intro e
        have := congrArg BitVec.toNat e
        simp only [hrem] at this
        simp at this; omega

/-! ## The fade part of `ENG_CALC` (R180) -/

theorem raiseIf_frame (s : State) (b : Bool) (e : Event) :
    s.raiseIf b e = { s with tele.evtPending := (s.raiseIf b e).tele.evtPending } := by cases b <;> rfl

@[simp] theorem advanceFades_chans (s : State) : (advanceFades s).chans = s.chans.map fadeStep := by
  simp [advanceFades]

@[simp] theorem advanceFades_fadeDone (s : State) : (advanceFades s).tele.fadeDone =
    s.tele.fadeDone ||| maskOf s.params.nch fun c => (s.chan c).completes := by simp [advanceFades]

@[simp] theorem advanceFades_fadeDoneLevel (s : State) : (advanceFades s).tele.fadeDoneLevel =
    List.zipWith (fun l x => if Channel.completes x then x.target else l) s.tele.fadeDoneLevel s.chans := by
  simp [advanceFades]

/-- The fade part changes the channel file and the completion registers alone. -/
theorem advanceFades_frame (s : State) : advanceFades s = { s with
    chans := (advanceFades s).chans
    tele.evtPending := (advanceFades s).tele.evtPending
    tele.fadeDone := (advanceFades s).tele.fadeDone
    tele.fadeDoneLevel := (advanceFades s).tele.fadeDoneLevel } := by
  unfold advanceFades
  rw [raiseIf_frame]

end Sys2Proof.Machine
end

