-- ==== Sys2Proof/Laws/PerInstr.lean ====
section
/-! SUPPORT. Facts stated per operation: each operation's encoding is a code of its own row of the opcode table
(30_encoding.md R87, R95). -/

namespace Sys2Proof.Laws.TableRow

/-- The codes of a row of the opcode table: the words that pass a match/mask pair, or one event code. -/
inductive Row where
  | words (mask pattern : CmdWord)
  | event (code : Byte)

/-- The row an operation stands in, as R87 and R95 write it. -/
def rowOf : Instr → Row
  | .setlvl _ _ => .words 0xFF00FFFFFFFF0000#64 0x0100000000000000#64
  | .fade _ _ _ _ => .words 0xFF00000000000000#64 0x0200000000000000#64
  | .fadea _ _ _ _ => .words 0xFF00000000000000#64 0x0300000000000000#64
  | .setmode _ => .words 0xFFFFFFFFFFFFFFFE#64 0x0400000000000000#64
  | .setfreq _ => .words 0xFFFFFFFF00000000#64 0x0500000000000000#64
  | .start => .words 0xFFFFFFFFFFFFFFFF#64 0x0600000000000000#64
  | .ack _ => .words 0xFFFFFFFFFFFFFF00#64 0x0700000000000000#64
  | .wreg _ _ => .words 0xFF00FFFF00000000#64 0x0800000000000000#64
  | .rreg _ => .words 0xFF00FFFFFFFFFFFF#64 0x0900000000000000#64
  | .tick => .event 0x01#8
  | .hwStart => .event 0x02#8
  | .hwToggle => .event 0x04#8
  | .zcEdge => .event 0x08#8
  | .measTimeout => .event 0x10#8
  | .engCalc => .event 0x20#8
  | .engPublish => .event 0x40#8

/-- A code belongs to a row. -/
def Row.has : Row → Code → Prop
  | .words mask pattern, .cmd w => passes w mask pattern = true
  | .event code, .evt e => e = code
  | _, _ => False

/-- The encoding of an operation belongs to the operation's row. -/
def Statement (i : Instr) : Prop := (rowOf i).has (encode i)

theorem setlvl (ch : Byte) (level : Half) : Statement (.setlvl ch level) := by
  have h : (0x01#8 ++ ch ++ 0#32 ++ level : CmdWord) &&& (0xFF#8 ++ 0#8 ++ 0xFFFFFFFF#32 ++ 0#16) = 0x01#8 ++ 0#8 ++ 0#32 ++ 0#16 := by
    simp only [BitVec.and_append, BitVec.and_zero]
    rfl
  exact beq_iff_eq.mpr h

theorem fade (ch : Byte) (dur fromLvl toLvl : Half) : Statement (.fade ch dur fromLvl toLvl) := by
  have h : (0x02#8 ++ ch ++ dur ++ fromLvl ++ toLvl : CmdWord) &&& (0xFF#8 ++ 0#8 ++ 0#16 ++ 0#16 ++ 0#16) = 0x02#8 ++ 0#8 ++ 0#16 ++ 0#16 ++ 0#16 := by
    simp only [BitVec.and_append, BitVec.and_zero]
    rfl
  exact beq_iff_eq.mpr h

theorem fadea (ch : Byte) (dur fromLvl toLvl : Half) : Statement (.fadea ch dur fromLvl toLvl) := by
  have h : (0x03#8 ++ ch ++ dur ++ fromLvl ++ toLvl : CmdWord) &&& (0xFF#8 ++ 0#8 ++ 0#16 ++ 0#16 ++ 0#16) = 0x03#8 ++ 0#8 ++ 0#16 ++ 0#16 ++ 0#16 := by
    simp only [BitVec.and_append, BitVec.and_zero]
    rfl
  exact beq_iff_eq.mpr h

theorem setmode (mode : Bool) : Statement (.setmode mode) := by cases mode <;> rfl

theorem setfreq (imm : Word) : Statement (.setfreq imm) := by
  have h : (0x05#8 ++ 0#24 ++ imm : CmdWord) &&& (0xFF#8 ++ 0xFFFFFF#24 ++ 0#32) = 0x05#8 ++ 0#24 ++ 0#32 := by
    simp only [BitVec.and_append, BitVec.and_zero]
    rfl
  exact beq_iff_eq.mpr h

theorem start : Statement .start := rfl

theorem ack (mask : Byte) : Statement (.ack mask) := by
  have h : (0x07#8 ++ 0#24 ++ (0#24 ++ mask) : CmdWord) &&& (0xFF#8 ++ 0xFFFFFF#24 ++ (0xFFFFFF#24 ++ 0#8)) = 0x07#8 ++ 0#24 ++ (0#24 ++ 0#8) := by
    simp only [BitVec.and_append, BitVec.and_zero]
    rfl
  exact beq_iff_eq.mpr h

theorem wreg (reg : Byte) (value : Word) : Statement (.wreg reg value) := by
  have h : (0x08#8 ++ reg ++ 0#16 ++ value : CmdWord) &&& (0xFF#8 ++ 0#8 ++ 0xFFFF#16 ++ 0#32) = 0x08#8 ++ 0#8 ++ 0#16 ++ 0#32 := by
    simp only [BitVec.and_append, BitVec.and_zero]
    rfl
  exact beq_iff_eq.mpr h

theorem rreg (reg : Byte) : Statement (.rreg reg) := by
  have h : (0x09#8 ++ reg ++ 0#16 ++ 0#32 : CmdWord) &&& (0xFF#8 ++ 0#8 ++ 0xFFFF#16 ++ 0xFFFFFFFF#32) = 0x09#8 ++ 0#8 ++ 0#16 ++ 0#32 := by
    simp only [BitVec.and_append, BitVec.and_zero]
    rfl
  exact beq_iff_eq.mpr h

theorem tick : Statement .tick := rfl

theorem hwStart : Statement .hwStart := rfl

theorem hwToggle : Statement .hwToggle := rfl

theorem zcEdge : Statement .zcEdge := rfl

theorem measTimeout : Statement .measTimeout := rfl

theorem engCalc : Statement .engCalc := rfl

theorem engPublish : Statement .engPublish := rfl

end Sys2Proof.Laws.TableRow
end

