-- ==== Sys2Proof/Laws/Registers.lean ====
section
/-! SUPPORT. The register space (Machine/Registers.lean): which numbers a group holds, and what the assembled views of
30_encoding.md R93 and R94 are as numbers and bits. -/

namespace Sys2Proof.Machine

/-- A group holds exactly the numbers from its base on, one for each index below its bound (R91). -/
theorem groupAt_eq_some {k base bound : Nat} {f : Nat → Reg} {r : Reg} :
    groupAt k base bound f = some r ↔ ∃ i < bound, k = base + i ∧ r = f i := by
  unfold groupAt
  constructor
  · intro h
    split at h
    · cases h
      exact ⟨k - base, by omega, by omega, rfl⟩
    · cases h
  · rintro ⟨i, hi, rfl, rfl⟩
    rw [if_pos (by omega), Nat.add_sub_cancel_left]

/-- A number outside a group's range is not in the group (R91). -/
theorem groupAt_eq_none {k base bound : Nat} {f : Nat → Reg} (h : k < base ∨ base + bound ≤ k) :
    groupAt k base bound f = none := if_neg (by omega)

/-- The member of index `i` of a group has the number `base + i` (R91). -/
theorem groupAt_add {base bound i : Nat} (f : Nat → Reg) (h : i < bound) :
    groupAt (base + i) base bound f = some (f i) := groupAt_eq_some.mpr ⟨i, h, rfl, rfl⟩

/-- The numbers of the map outside the indexed groups (R92). -/
def singleNumber (k : Nat) : Bool :=
  decide (k ≤ 0x08) || decide (0x10 ≤ k ∧ k ≤ 0x1F) || k == 0x59 || k == 0x69 || k == 0x79 ||
    decide (0xC0 ≤ k ∧ k ≤ 0xC3)

/-- Every other number is looked up in the indexed groups (R92). -/
theorem regAt_group (p : Params) {n : Byte} (h : singleNumber n.toNat = false) : regAt p n = groupReg p n.toNat := by
  unfold regAt
  split <;> first | rfl | (rename_i hn; rw [hn] at h; exact absurd h (by decide))

/-- A concatenation as a number: the upper part shifted past the lower. -/
theorem append_toNat {m n : Nat} (x : BitVec m) (y : BitVec n) : (x ++ y).toNat = x.toNat * 2 ^ n + y.toNat := by
  rw [BitVec.toNat_append, ← Nat.shiftLeft_add_eq_or_of_lt y.isLt, Nat.shiftLeft_eq]

/-- A schedule entry reads as its channel in the upper half and its offset in the lower (R94). -/
theorem Entry.word_toNat (e : Entry) : e.word.toNat = e.ch.toNat * 65536 + e.ticks.toNat := by
  rw [Entry.word, append_toNat, append_toNat]
  simp

/-- A `*_META` register reads as its mask, its mode bit and its count (R94). -/
theorem Buffer.metaWord_toNat (b : Buffer) :
    b.metaWord.toNat = b.nzMask.toNat * 256 + (if b.lead then 16 else 0) + b.count.toNat := by
  rw [Buffer.metaWord, append_toNat, append_toNat, append_toNat, append_toNat]
  cases b.lead <;> simp <;> omega

/-- `OOS_INFO` reads as the direction above the count (R92). -/
theorem oosInfo_toNat (d : Bool) (c : Half) :
    ((BitVec.ofBool d ++ c).setWidth 32).toNat = (if d then 65536 else 0) + c.toNat := by
  have := c.isLt
  cases d <;> simp only [BitVec.toNat_setWidth, append_toNat] <;> simp <;> omega

/-- A one-bit register reads as 0 or 1 (R91). -/
theorem bitWord_toNat (b : Bool) : (bitWord b).toNat = if b then 1 else 0 := by cases b <;> rfl

/-- `STATUS` as a number: its fields at their places (R93). -/
theorem status_toNat (s : State) :
    s.status.toNat = s.phase.code.toNat + 4 * s.eng.code.toNat + 16 * s.time.cmpaEn.toNat + 32 * s.time.cmpbEn.toNat +
      64 * s.mains.freqOvr.toNat + 128 * s.sync.lastEdgeValid.toNat + 256 * s.sched.idx.toNat +
      4096 * s.sync.zcPrev.toNat := by
  have h1 := s.phase.code.isLt
  have h2 := s.eng.code.isLt
  have h3 := s.sched.idx.isLt
  have h4 := s.time.cmpaEn.toNat_le
  have h5 := s.time.cmpbEn.toNat_le
  have h6 := s.mains.freqOvr.toNat_le
  have h7 := s.sync.lastEdgeValid.toNat_le
  have h8 := s.sync.zcPrev.toNat_le
  simp only [State.status, BitVec.toNat_setWidth, append_toNat, BitVec.toNat_ofBool]
  omega

/-- A bit of a word, from the word as a number. -/
theorem getLsbD_of_toNat {v : Word} {k : Nat} {b : Bool} (h : v.toNat / 2 ^ k % 2 = b.toNat) : v.getLsbD k = b := by
  rw [BitVec.getLsbD, Nat.testBit_eq_decide_div_mod_eq, h]
  cases b <;> rfl

/-- The one-bit fields of `STATUS` (R93). -/
theorem status_bits (s : State) :
    s.status.getLsbD 4 = s.time.cmpaEn ∧ s.status.getLsbD 5 = s.time.cmpbEn ∧ s.status.getLsbD 6 = s.mains.freqOvr ∧
      s.status.getLsbD 7 = s.sync.lastEdgeValid ∧ s.status.getLsbD 12 = s.sync.zcPrev := by
  have h1 := s.phase.code.isLt
  have h2 := s.eng.code.isLt
  have h3 := s.sched.idx.isLt
  have h4 := s.time.cmpaEn.toNat_le
  have h5 := s.time.cmpbEn.toNat_le
  have h6 := s.mains.freqOvr.toNat_le
  have h7 := s.sync.lastEdgeValid.toNat_le
  have h8 := s.sync.zcPrev.toNat_le
  have h := status_toNat s
  refine ⟨?_, ?_, ?_, ?_, ?_⟩ <;> apply getLsbD_of_toNat <;> omega

end Sys2Proof.Machine
end

