-- ==== Sys2Proof/Laws/Scheduler.lean ====
section
/-! SUPPORT. What the half-wave scheduler does to a well-formed schedule (Machine/Scheduler.lean): which entries a
half-wave has passed, the levels it starts at, and the group of entries that one `HW_TOGGLE` toggles. -/

namespace Sys2Proof.Machine

/-! ## Prefixes of a sorted list -/

/-- In a list where a property, once lost, stays lost, an element has it exactly when it lies in the leading run. -/
theorem takeWhile_iff {α : Type} (p : α → Bool) (l : List α) (h : l.Pairwise fun x y => p y = true → p x = true)
    (i : Nat) (hi : i < l.length) : p l[i] = true ↔ i < (l.takeWhile p).length := by
  induction l generalizing i with
  | nil => simp at hi
  | cons x l ih =>
    have hx := (List.pairwise_cons.mp h).1
    by_cases hp : p x = true
    · rw [List.takeWhile_cons_of_pos hp]
      cases i with
      | zero => simp [hp]
      | succ i =>
        rw [List.length_cons] at hi
        simpa using ih (List.pairwise_cons.mp h).2 i (by omega)
    · rw [List.takeWhile_cons_of_neg hp]
      constructor
      · intro hy
        exact absurd (by
          cases i with
          | zero => exact hy
          | succ i => exact hx _ (List.getElem_mem _) hy) hp
      · intro hlt; simp at hlt

/-- The leading run is the elements with the property, under the same condition. -/
theorem takeWhile_eq_filter {α : Type} (p : α → Bool) (l : List α)
    (h : l.Pairwise fun x y => p y = true → p x = true) : l.takeWhile p = l.filter p := by
  induction l with
  | nil => rfl
  | cons x l ih =>
    have hc := List.pairwise_cons.mp h
    by_cases hp : p x = true
    · rw [List.takeWhile_cons_of_pos hp, List.filter_cons_of_pos hp, ih hc.2]
    · rw [List.takeWhile_cons_of_neg hp, List.filter_cons_of_neg hp]
      exact (List.filter_eq_nil_iff.mpr fun y hy hpy => hp (hc.1 y hy hpy)).symm

/-- The leading run is an initial part of the list. -/
theorem takeWhile_eq_take {α : Type} (p : α → Bool) (l : List α) : l.takeWhile p = l.take (l.takeWhile p).length :=
  List.prefix_iff_eq_take.mp (List.takeWhile_prefix p)

/-! ## The entries a half-wave has passed (R140) -/

/-- The entries of a well-formed schedule are in ascending order of offset (R31). -/
theorem real_sorted {nch : Nat} {b : Buffer} (h : b.WellFormed nch) :
    b.real.Pairwise fun x y => x.ticks.toNat ≤ y.ticks.toNat :=
  h.2.2.2.2.1.imp fun hxy => BitVec.le_def.mp hxy

/-- The entries passed at tick `k` are the leading ones with offset at most `k`. -/
theorem passed_eq {nch : Nat} {b : Buffer} (h : b.WellFormed nch) (k : Nat) :
    b.passed k = (b.real.takeWhile fun e => decide (e.ticks.toNat ≤ k)).length := by
  rw [Buffer.passed, takeWhile_eq_filter]
  exact (real_sorted h).imp fun hxy => by simp only [decide_eq_true_eq]; omega

/-- An entry is passed at tick `k` exactly when its offset is at most `k`. -/
theorem lt_passed_iff {nch : Nat} {b : Buffer} (h : b.WellFormed nch) (k : Nat) {i : Nat} (hi : i < b.count.toNat) :
    i < b.passed k ↔ (b.slot i).ticks.toNat ≤ k := by
  rw [passed_eq h, slot_eq_real h hi,
    ← takeWhile_iff (fun e => decide (e.ticks.toNat ≤ k)) b.real
      ((real_sorted h).imp fun hxy => by simp only [decide_eq_true_eq]; omega) i
      (by rw [real_length h]; exact hi)]
  simp

/-- No more entries are passed than there are. -/
theorem passed_le {nch : Nat} {b : Buffer} (h : b.WellFormed nch) (k : Nat) : b.passed k ≤ b.count.toNat := by
  rw [← real_length h, Buffer.passed]; exact List.length_filter_le _ _

/-- Entry `i` and the entries from it on are apart by their number: the offsets never decrease. -/
theorem slot_mono {nch : Nat} {b : Buffer} (h : b.WellFormed nch) {i j : Nat} (hij : i ≤ j) (hj : j < b.count.toNat) :
    (b.slot i).ticks.toNat ≤ (b.slot j).ticks.toNat := by
  rcases Nat.lt_or_eq_of_le hij with hlt | rfl
  · rw [slot_eq_real h (by omega), slot_eq_real h hj]
    exact List.pairwise_iff_getElem.mp (real_sorted h) i j _ _ hlt
  · exact Nat.le_refl _

/-- A number of entries is the number passed at `k` when it splits the offsets at `k`. -/
theorem eq_passed {nch : Nat} {b : Buffer} (h : b.WellFormed nch) (k n : Nat) (hn : n ≤ b.count.toNat)
    (hlo : ∀ i < n, (b.slot i).ticks.toNat ≤ k)
    (hhi : n < b.count.toNat → k < (b.slot n).ticks.toNat) : n = b.passed k := by
  have hp := passed_le h k
  rcases Nat.lt_trichotomy n (b.passed k) with hlt | heq | hgt
  · have := (lt_passed_iff h k (by omega)).mp hlt
    have := hhi (by omega); omega
  · exact heq
  · have := hlo _ hgt
    have := (lt_passed_iff h k (by omega)).mpr this
    omega

/-! ## The channels of the entries -/

/-- A channel is scheduled exactly when a real entry has it. -/
theorem schedules_iff (b : Buffer) (c : Nat) : b.schedules c = true ↔ ∃ e ∈ b.real, e.ch.toNat = c := by
  simp [Buffer.schedules]

/-- Distinct entries of a well-formed schedule have distinct channels (R31). -/
theorem real_ch_inj {nch : Nat} {b : Buffer} (h : b.WellFormed nch) {i j : Nat} (hi : i < b.count.toNat)
    (hj : j < b.count.toNat) (he : (b.slot i).ch = (b.slot j).ch) : i = j := by
  have hl := real_length h
  rw [slot_eq_real h hi, slot_eq_real h hj] at he
  have := List.pairwise_iff_getElem.mp h.2.2.1
  rcases Nat.lt_trichotomy i j with hlt | heq | hgt
  · exact absurd (by rw [List.getElem_map, List.getElem_map]; exact he) (this i j (by simpa [hl] using hi) (by simpa [hl] using hj) hlt)
  · exact heq
  · exact absurd (by rw [List.getElem_map, List.getElem_map]; exact he.symm) (this j i (by simpa [hl] using hj) (by simpa [hl] using hi) hgt)

/-- A real entry is the slot of some number below `count`. -/
theorem mem_real_iff {nch : Nat} {b : Buffer} (h : b.WellFormed nch) (e : Entry) :
    e ∈ b.real ↔ ∃ i < b.count.toNat, e = b.slot i := by
  rw [List.mem_iff_getElem]
  constructor
  · rintro ⟨i, hi, rfl⟩
    exact ⟨i, by rw [← real_length h]; exact hi, (slot_eq_real h (by rw [← real_length h]; exact hi)).symm⟩
  · rintro ⟨i, hi, rfl⟩
    exact ⟨i, by rw [real_length h]; exact hi, (slot_eq_real h hi).symm⟩

/-- Toggling the entries from number `i` up to (not including) `j`: the pins of exactly their channels flip. -/
theorem toggleAll_range {nch : Nat} {b : Buffer} (h : b.WellFormed nch) (out : Byte) {i j c : Nat} (hij : i ≤ j)
    (hj : j ≤ b.count.toNat) (hc : c < 8) :
    (toggleAll ((b.real.drop i).take (j - i)) out).getLsbD c = Bool.xor (out.getLsbD c)
      (decide (∃ k, k < j ∧ i ≤ k ∧ (b.slot k).ch.toNat = c)) := by
  have hl := real_length h
  rw [toggleAll_getLsbD _ _ _ hc]
  · congr 1
    rw [Bool.eq_iff_iff, decide_eq_true_eq, List.any_eq_true]
    constructor
    · rintro ⟨e, he, hec⟩
      obtain ⟨n, hn, rfl⟩ := List.mem_iff_getElem.mp he
      rw [List.length_take, List.length_drop] at hn
      refine ⟨i + n, by omega, by omega, ?_⟩
      rw [slot_eq_real h (by omega)]
      simpa using hec
    · rintro ⟨k, hk, hik, hkc⟩
      refine ⟨b.slot k, List.mem_iff_getElem.mpr ⟨k - i, by simp; omega, ?_⟩, by simpa using hkc⟩
      rw [slot_eq_real h (by omega), List.getElem_take, List.getElem_drop]
      congr 1; omega
  · rw [List.map_take, List.map_drop]
    exact (h.2.2.1.sublist (List.drop_sublist _ _)).sublist (List.take_sublist _ _)

/-! ## The start of a half-wave (R131 to R134) -/

/-- The pins a half-wave starts at (R133, R136). -/
theorem startLevels_getLsbD (nch : Nat) (b : Buffer) (c : Nat) (hn : nch ≤ 8) :
    (startLevels nch b).getLsbD c =
      (decide (c < nch) && (if b.schedules c then !b.lead else b.nzMask.getLsbD c)) := by
  rw [startLevels, maskOf_getLsbD]
  by_cases h : c < nch
  · have : c < 8 := by omega
    simp [h, this]
  · simp [h]

/-- The tick-zero entries are those passed at tick 0 (R134). -/
theorem zeroEntries_eq {nch : Nat} {b : Buffer} (h : b.WellFormed nch) :
    zeroEntries b = (b.real.drop 0).take (b.passed 0 - 0) := by
  have hp : (fun e : Entry => e.ticks == 0#16) = fun e => decide (e.ticks.toNat ≤ 0) := by
    funext e; rw [Bool.eq_iff_iff, beq_iff_eq, decide_eq_true_eq, Nat.le_zero]
    exact ⟨fun h => by simp [h], fun h => BitVec.eq_of_toNat_eq (by simpa using h)⟩
  rw [zeroEntries, hp, passed_eq h, List.drop_zero, Nat.sub_zero]
  exact takeWhile_eq_take _ _

theorem zeroEntries_length {nch : Nat} {b : Buffer} (h : b.WellFormed nch) : (zeroEntries b).length = b.passed 0 := by
  have := passed_le h 0
  rw [zeroEntries_eq h, List.length_take, List.length_drop, real_length h]; omega

/-! ## One toggle event (R138) -/

/-- The group of entries that one `HW_TOGGLE` toggles: from entry `i` on, those up to number `j`, where `j` is past `i` and
splits the offsets just above that of entry `i`. -/
theorem toggleGroup_spec {nch : Nat} {b : Buffer} (h : b.WellFormed nch) {i : Nat} (hi : i < b.count.toNat) :
    ∃ j, i < j ∧ j ≤ b.count.toNat ∧ toggleGroup (b.real.drop i) = (b.real.drop i).take (j - i) ∧
      (toggleGroup (b.real.drop i)).length = j - i ∧
      ∀ k, i ≤ k → k < b.count.toNat → ((b.slot k).ticks = (b.slot i).ticks ↔ k < j) := by
  have hl := real_length h
  have hdrop : b.real.drop i = b.real[i]'(by omega) :: b.real.drop (i + 1) := List.drop_eq_getElem_cons (by omega)
  have hsi := slot_eq_real h hi
  obtain ⟨e, he⟩ : ∃ e, e = b.real[i]'(by omega) := ⟨_, rfl⟩
  obtain ⟨p, hp⟩ : ∃ p : Entry → Bool, p = fun x => x.ticks == e.ticks := ⟨_, rfl⟩
  have hgroup : toggleGroup (b.real.drop i) = e :: (b.real.drop (i + 1)).takeWhile p := by
    rw [hdrop, ← he]; simp [toggleGroup, hp]
  obtain ⟨n, hn⟩ : ∃ n, n = ((b.real.drop (i + 1)).takeWhile p).length := ⟨_, rfl⟩
  have hnle : n ≤ b.count.toNat - (i + 1) := by
    rw [hn, ← hl, ← List.length_drop]; exact (List.takeWhile_prefix p).length_le
  refine ⟨i + 1 + n, by omega, by omega, ?_, ?_, ?_⟩
  · rw [hgroup, hdrop, ← he, show i + 1 + n - i = n + 1 from by omega, List.take_succ_cons, hn,
      ← takeWhile_eq_take]
  · rw [hgroup, List.length_cons, ← hn]; omega
  · intro k hik hk
    rcases Nat.lt_or_eq_of_le hik with hlt | rfl
    · have hkd : k - (i + 1) < (b.real.drop (i + 1)).length := by rw [List.length_drop]; omega
      have hge : (b.real.drop (i + 1))[k - (i + 1)] = b.slot k := by
        rw [slot_eq_real h hk, List.getElem_drop]; congr 1; omega
      have hmono : (b.real.drop (i + 1)).Pairwise fun x y => p y = true → p x = true := by
        rw [List.pairwise_iff_getElem]
        intro a c ha hc hac hpc
        rw [List.length_drop] at ha hc
        have h1 : (b.real.drop (i + 1))[a] = b.slot (i + 1 + a) := by
          rw [slot_eq_real h (by omega), List.getElem_drop]
        have h2 : (b.real.drop (i + 1))[c] = b.slot (i + 1 + c) := by
          rw [slot_eq_real h (by omega), List.getElem_drop]
        rw [h2] at hpc
        rw [h1]
        have hei : e = b.slot i := by rw [he, hsi]
        have m1 := slot_mono h (show i ≤ i + 1 + a by omega) (by omega)
        have m2 := slot_mono h (show i + 1 + a ≤ i + 1 + c by omega) (by omega)
        simp only [hp, beq_iff_eq] at hpc ⊢
        rw [hpc, hei] at m2
        rw [hei]
        exact BitVec.eq_of_toNat_eq (by omega)
      have := takeWhile_iff p _ hmono _ hkd
      rw [hge, ← hn] at this
      have hei : e = b.slot i := by rw [he, hsi]
      simp only [hp, beq_iff_eq, hei] at this
      rw [this]; omega
    · simp; omega

/-- `HW_TOGGLE` with an entry left (R138). -/
theorem execHwToggle_more {s : State} (h : s.sched.idx.toNat < s.sched.act.count.toNat) :
    execHwToggle s =
      let group := toggleGroup (s.sched.act.real.drop s.sched.idx.toNat)
      let idx := s.sched.idx.toNat + group.length
      .next { s with
        out := toggleAll group s.out
        sched.idx := BitVec.ofNat 4 idx
        time.ocrb := if idx < s.sched.act.count.toNat then
          rearmValue s.params (s.sched.act.slot idx).ticks s.time.hwTcnt else s.time.ocrb
        time.cmpbEn := if idx < s.sched.act.count.toNat then s.time.cmpbEn else false } := by
  simp only [execHwToggle, if_neg (Nat.not_le.mpr h), decide_eq_true_eq]

/-- `HW_TOGGLE` with no entry left (R138, first line). -/
theorem execHwToggle_done {s : State} (h : s.sched.act.count.toNat ≤ s.sched.idx.toNat) :
    execHwToggle s = .next { s with time.cmpbEn := false } := by
  simp only [execHwToggle, if_pos h]

end Sys2Proof.Machine
end

