-- ==== Sys2Proof/Laws/Slots.lean ====
section
/-! SUPPORT. The tick taken apart (Machine/Slots.lean, Machine/Step.lean): what one slot, slots 1 to 7, slot 8 and a step
can do, and the one induction over a step that an invariant needs. -/

namespace Sys2Proof.Machine

/-- A slot runs its operation when it is due, and else leaves the state as it is (R262). -/
theorem slot_eq_next {due : Bool} {i : Instr} {s t : State} :
    slot due i s = .next t ↔ (due = true ∧ exec i s = .next t) ∨ (due = false ∧ s = t) := by
  cases due <;> simp [slot]

/-- Slots 1 to 7, one after the other (R262). -/
theorem eventSlots_eq_next {i : TickInput} {s t : State} : eventSlots i s = .next t ↔
    ∃ s1 s2 s3 s4 s5 s6,
      exec .tick s = .next s1 ∧ slot (startDue s1) .hwStart s1 = .next s2 ∧
      slot (toggleDue s2) .hwToggle s2 = .next s3 ∧ edgeSlot i.zc s3 = .next s4 ∧
      slot (timeoutDue s4) .measTimeout s4 = .next s5 ∧ slot (calcDue s5 i.calcGo) .engCalc s5 = .next s6 ∧
      slot (publishDue s6 i.pubGo) .engPublish s6 = .next t := by
  constructor
  · intro h
    obtain ⟨s1, h1, h⟩ := andThen_eq_next.mp h
    obtain ⟨s2, h2, h⟩ := andThen_eq_next.mp h
    obtain ⟨s3, h3, h⟩ := andThen_eq_next.mp h
    obtain ⟨s4, h4, h⟩ := andThen_eq_next.mp h
    obtain ⟨s5, h5, h⟩ := andThen_eq_next.mp h
    obtain ⟨s6, h6, h⟩ := andThen_eq_next.mp h
    exact ⟨s1, s2, s3, s4, s5, s6, h1, h2, h3, h4, h5, h6, h⟩
  · rintro ⟨s1, s2, s3, s4, s5, s6, h1, h2, h3, h4, h5, h6, h⟩
    refine andThen_eq_next.mpr ⟨s1, h1, andThen_eq_next.mpr ⟨s2, h2, andThen_eq_next.mpr ⟨s3, h3,
      andThen_eq_next.mpr ⟨s4, h4, andThen_eq_next.mpr ⟨s5, h5, andThen_eq_next.mpr ⟨s6, h6, h⟩⟩⟩⟩⟩⟩

/-- Slot 8: no command, an illegal word, or the operation the word decodes to; `RVALID` is cleared first (R38, R89). -/
theorem commandSlot_eq_next {c : Option CmdWord} {s t : State} : commandSlot c s = .next t ↔
    (c = none ∧ t = { s with port.rvalid := false }) ∨
    (∃ w e, c = some w ∧ decodeCmd w = .error e ∧ t = { s with port.rvalid := false }.raise .cmdErr) ∨
    (∃ w i, c = some w ∧ decodeCmd w = .ok i ∧ exec i { s with port.rvalid := false } = .next t) := by
  cases c with
  | none => simp [commandSlot, eq_comm]
  | some w =>
    simp only [commandSlot, runCommand, reduceCtorEq, false_and, Option.some.injEq, false_or]
    cases h : decodeCmd w with
    | error e => simp [h, eq_comm]
    | ok i => simp [h]

/-- A step takes the next port samples; it is a reset or a tick (R10, R280). -/
theorem step_eq_next {s t : State} : step s = .next t ↔
    (s.nextInput.rst = true ∧ t = s.popInput.resetBlock) ∨
    (s.nextInput.rst = false ∧
      ∃ u, eventSlots s.nextInput s.popInput = .next u ∧ commandSlot s.nextInput.cmd u = .next t) := by
  simp only [step, clockEdge, tick]
  cases s.nextInput.rst
  · simp [andThen_eq_next]
  · simp [eq_comm]

/-- The condition under which the tick runs an operation (R95); a command and the edge detector's operation run on input. -/
def Enabled (i : Instr) (s : State) : Prop :=
  (i = .hwStart → s.time.cmpaEn = true ∧ s.time.hwTcnt = s.time.ocra) ∧
  (i = .hwToggle → s.time.cmpbEn = true ∧ s.time.hwTcnt = s.time.ocrb) ∧
  (i = .measTimeout → s.phase = .measuring ∧ s.params.measTimeout ≤ elapsed s.time.now s.meas.t0) ∧
  (i = .engCalc → s.eng = .calcPending) ∧
  (i = .engPublish → s.eng = .publishPending)

theorem startDue_iff {s : State} : startDue s = true ↔ s.time.cmpaEn = true ∧ s.time.hwTcnt = s.time.ocra := by
  simp [startDue]

theorem toggleDue_iff {s : State} : toggleDue s = true ↔ s.time.cmpbEn = true ∧ s.time.hwTcnt = s.time.ocrb := by
  simp [toggleDue]

theorem timeoutDue_iff {s : State} : timeoutDue s = true ↔
    s.phase = .measuring ∧ s.params.measTimeout ≤ elapsed s.time.now s.meas.t0 := by
  simp [timeoutDue]

theorem calcDue_iff {s : State} {b : Bool} : calcDue s b = true ↔
    s.eng = .calcPending ∧ (s.params.engSched = .eager ∨ b = true) := by
  simp [calcDue]

theorem publishDue_iff {s : State} {b : Bool} : publishDue s b = true ↔
    s.eng = .publishPending ∧ (s.params.engSched = .eager ∨ b = true) := by
  simp [publishDue]

/-- A command is never an event operation. -/
theorem decodeCmd_enabled {w : CmdWord} {i : Instr} (h : decodeCmd w = .ok i) (s : State) : Enabled i s := by
  have hne : i ≠ .hwStart ∧ i ≠ .hwToggle ∧ i ≠ .measTimeout ∧ i ≠ .engCalc ∧ i ≠ .engPublish := by
    unfold decodeCmd checked at h
    split at h <;> first | (split at h <;> cases h <;> simp) | cases h
  exact ⟨fun e => absurd e hne.1, fun e => absurd e hne.2.1, fun e => absurd e hne.2.2.1, fun e => absurd e hne.2.2.2.1,
    fun e => absurd e hne.2.2.2.2⟩

/-- A property kept by every enabled operation, by the sampling of the inputs and by reset is kept by every step. -/
theorem step_induction {P : State → Prop}
    (hexec : ∀ i s t, Enabled i s → P s → exec i s = .next t → P t)
    (hsample : ∀ s zc, P s → P (s.sampleZc zc))
    (hpop : ∀ s, P s → P s.popInput)
    (hreset : ∀ s, P s → P s.resetBlock)
    (hrvalid : ∀ s : State, P s → P { s with port.rvalid := false })
    (hraise : ∀ s : State, P s → P (s.raise .cmdErr))
    {s t : State} (hs : P s) (h : step s = .next t) : P t := by
  have hslot : ∀ {d i s t}, (d = true → Enabled i s) → P s → slot d i s = .next t → P t := by
    intro d i s t hd hp hst
    rcases slot_eq_next.mp hst with ⟨h1, h2⟩ | ⟨-, rfl⟩
    · exact hexec i s t (hd h1) hp h2
    · exact hp
  rcases step_eq_next.mp h with ⟨-, rfl⟩ | ⟨-, u, hu, ht⟩
  · exact hreset _ (hpop _ hs)
  · obtain ⟨s1, s2, s3, s4, s5, s6, h1, h2, h3, h4, h5, h6, h7⟩ := eventSlots_eq_next.mp hu
    have p1 := hexec .tick _ _ (by simp [Enabled]) (hpop _ hs) h1
    have p2 := hslot (fun h => by simpa [Enabled] using startDue_iff.mp h) p1 h2
    have p3 := hslot (fun h => by simpa [Enabled] using toggleDue_iff.mp h) p2 h3
    have p4 := hslot (fun _ => by simp [Enabled]) (hsample _ _ p3) h4
    have p5 := hslot (fun h => by simpa [Enabled] using timeoutDue_iff.mp h) p4 h5
    have p6 := hslot (fun h => by simpa [Enabled] using (calcDue_iff.mp h).1) p5 h6
    have p7 := hslot (fun h => by simpa [Enabled] using (publishDue_iff.mp h).1) p6 h7
    rcases commandSlot_eq_next.mp ht with ⟨-, rfl⟩ | ⟨_, _, -, -, rfl⟩ | ⟨w, i, -, hd, hx⟩
    · exact hrvalid _ p7
    · exact hraise _ (hrvalid _ p7)
    · exact hexec i _ _ (decodeCmd_enabled hd _) (hrvalid _ p7) hx

end Sys2Proof.Machine
end

