-- ==== Sys2Proof/Tests/Slice0.lean ====
section
/-! SUPPORT. Tests. Expected values are those of 95_test_vectors.md, whose section each group names, or are worked out by
hand from the rule named. After them, for every obligation with hypotheses, a state and operands that meet them all. -/

namespace Sys2Proof.Tests

open Sys2Proof.Machine

/-! ## Helpers -/

/-- A value read off the next state of an outcome. -/
def after {α : Type} (r : Result) (f : State → α) : Option α :=
  match r with
  | .next s => some (f s)
  | .fault _ => none
  | .refused _ => none

/-- Samples that raise no event when `ZC` was low. -/
def quiet : TickInput := ⟨false, false, none, false, false⟩

/-- These samples at the next tick. -/
def given (i : TickInput) (s : State) : State := { s with inputs := [i] }

/-- A buffer of the default four channels. -/
def buffer (es : List Entry) (nz : Byte) : Buffer := Buffer.ofEntries 4 es nz false

/-- The first buffer of section 2.3. -/
def threeEntries : Buffer := buffer [⟨1, 2102⟩, ⟨0, 4166⟩, ⟨2, 4166⟩] 0x07#8

/-- The buffer with a tick-zero entry of section 2.3. -/
def zeroEntry : Buffer := buffer [⟨0, 0⟩, ⟨1, 500⟩] 0x03#8

/-- The running block of section 2.2, with the schedule of section 2.3. -/
def running : State :=
  { State.reset with
    phase := .running
    mains := ⟨60000, false, 8333⟩
    sync := ⟨false, 91667, true, 7, 7500, 9166, 0, false⟩
    cfg := ⟨38, 38, 300, false, 10, 2500, 0, 0, true⟩
    sched := ⟨threeEntries, threeEntries, threeEntries, 0⟩
    tele := ⟨0, 0x07, 0, [0, 0, 0, 0]⟩
    time := ⟨99167, 7200, 0, false, 0, false⟩ }

/-- The running block one tick before the first toggle of its half-wave. -/
def beforeToggle : State := { running with time := ⟨92101, 2101, 0, false, 2102, true⟩, out := 0x07#8 }

/-- The running block with an edge at time `now`. -/
def edgeAt (now : Word) : State := { running with time.now := now }

/-- The running block whose synchronizer has this limit and no rejected edge yet. -/
def limited (limit : Half) : State := { running with cfg.oosLimit := limit, sync.invalidCnt := 0 }

/-- A measurement pass that has seen `seen` edges, stored `cnt` deltas, and began at time 6. -/
def measuring (seen : Half) (cnt : BitVec 7) : State :=
  { State.reset with
    phase := .measuring
    sync.zcPrev := false
    cfg := running.cfg
    meas := ⟨List.replicate 20 8333, cnt, seen, 200000, 6⟩
    time.now := 208333 }

/-- A stopped block with a frequency, for the level commands. -/
def powered : State := { State.reset with mains := ⟨60000, true, 8333⟩ }

/-! ## Well-formedness (R88 (c), R175) -/

theorem test_setlvl_bad_channel_is_ill_formed : (Instr.setlvl 4 4096).wellFormed Params.default = false := by decide

theorem test_fade_bad_channel_is_ill_formed : (Instr.fade 0xFE 100 0 1).wellFormed Params.default = false := by decide

theorem test_fadea_bad_channel_is_ill_formed : (Instr.fadea 4 100 0 1).wellFormed Params.default = false := by decide

theorem test_last_channel_and_all_are_well_formed :
    (Instr.setlvl 3 4096).wellFormed Params.default = true ∧ (Instr.fade 0xFF 1 0 1).wellFormed Params.default = true := by
  decide

/-! ## Decoding: section 2.1, and the event codes of R95 -/

theorem test_decode_setlvl : decodeTableWord 64 0x010300000000FFFB = some (.setlvl 3 0xFFFB) := by decide

theorem test_decode_fade : decodeTableWord 64 0x0200006480002000 = some (.fade 0 100 0x8000 8192) := by decide

theorem test_decode_fadea : decodeTableWord 64 0x0300000500000064 = some (.fadea 0 5 0 100) := by decide

theorem test_decode_freeze : decodeTableWord 64 0x0202000080008001 = some (.fade 2 0 0x8000 0x8001) := by decide

theorem test_decode_setmode : decodeTableWord 64 0x0400000000000001 = some (.setmode true) := by decide

theorem test_decode_setfreq : decodeTableWord 64 0x050000000000EA60 = some (.setfreq 60000) := by decide

theorem test_decode_start : decodeTableWord 64 0x0600000000000000 = some .start := by decide

theorem test_decode_ack : decodeTableWord 64 0x07000000000000FF = some (.ack 0xFF) := by decide

theorem test_decode_wreg : decodeTableWord 64 0x080200000000012C = some (.wreg 2 300) := by decide

theorem test_decode_rreg : decodeTableWord 64 0x0919000000000000 = some (.rreg 0x19) := by decide

theorem test_decode_event_codes :
    decodeTableWord 8 0x01 = some .tick ∧ decodeTableWord 8 0x02 = some .hwStart ∧
    decodeTableWord 8 0x04 = some .hwToggle ∧ decodeTableWord 8 0x08 = some .zcEdge ∧
    decodeTableWord 8 0x10 = some .measTimeout ∧ decodeTableWord 8 0x20 = some .engCalc ∧
    decodeTableWord 8 0x40 = some .engPublish ∧ decodeTableWord 8 0x80 = none := by
  decide

theorem test_unknown_opcodes_are_refused :
    decodeCmd 0x0000000000000000#64 = .error .unknownOpcode ∧
    decodeCmd 0x0A00000000000000#64 = .error .unknownOpcode := by
  exact ⟨rfl, rfl⟩

theorem test_reserved_bits_are_refused :
    decodeCmd 0x0100000100001000#64 = .error .reservedBits ∧ decodeCmd 0x0400000000000002#64 = .error .reservedBits ∧
    decodeCmd 0x0600000000000001#64 = .error .reservedBits ∧ decodeCmd 0x0700000000000100#64 = .error .reservedBits ∧
    decodeCmd 0x0900000000000001#64 = .error .reservedBits := by
  exact ⟨rfl, rfl, rfl, rfl, rfl⟩

theorem test_encode_words :
    encode (.fade 0 100 0x8000 8192) = .cmd 0x0200006480002000 ∧
    encode (.setlvl 0xFF 8192) = .cmd 0x01FF000000002000 ∧ encode (.wreg 2 300) = .cmd 0x080200000000012C ∧
    encode (.ack 4) = .cmd 0x0700000000000004 ∧ encode (.rreg 0x22) = .cmd 0x0922000000000000 := by
  exact ⟨rfl, rfl, rfl, rfl, rfl⟩

/-! ## The level commands: section 2.5 -/

theorem test_setlvl_clamps_below_zero :
    after (exec (.setlvl 3 0xFFFB) { powered with chans := List.replicate 4 ⟨9, 9, 9, 9⟩ }) State.chans =
      some [⟨9, 9, 9, 9⟩, ⟨9, 9, 9, 9⟩, ⟨9, 9, 9, 9⟩, ⟨0, 0, 0, 0⟩] := by
  decide

theorem test_setlvl_all :
    after (exec (.setlvl 0xFF 8192) powered) State.chans = some (List.replicate 4 ⟨0x20000000, 0, 0, 8192⟩) := by
  decide

theorem test_fade_sets_up_a_fade :
    after (exec (.fade 0 100 0x8000 8192) powered) (·.chan 0) = some ⟨0, 0x00444444, 120, 8192⟩ := by
  decide

theorem test_fade_clamps_both_levels :
    after (exec (.fade 0 0 (-100) 20000) powered) (·.chan 0) = some ⟨0x20000000, 0, 0, 8192⟩ := by
  decide

theorem test_fadea_sets_up_a_falling_fade :
    after (exec (.fadea 1 10 2000 1000) powered) (·.chan 1) = some ⟨0x07D00000, 0xFFACAAAB, 12, 1000⟩ := by
  decide +kernel

theorem test_fadea_without_frequency_sets_the_level :
    after (exec (.fadea 0 500 0 100) State.reset) (·.chan 0) = some ⟨0x00640000, 0, 0, 100⟩ := by
  decide

/-! ## The other commands: section 2.7, and 2.1 for the refused values -/

theorem test_setmode_leading : after (exec (.setmode true) State.reset) (·.cfg.mode) = some true := by decide

theorem test_setfreq_sets_the_override :
    after (exec (.setfreq 60000) State.reset) (fun s => (s.mains, s.tele.evtPending)) =
      some (⟨60000, true, 8333⟩, 0x10#8) := by
  decide

theorem test_setfreq_refuses_an_unusable_frequency :
    after (exec (.setfreq 7629) powered) (fun s => (s.mains, s.tele.evtPending)) =
      some (⟨60000, true, 8333⟩, 0x20#8) := by
  decide

theorem test_start_computes_the_window :
    after (exec .start { powered with cfg.syncDev := 10 }) (fun s => (s.phase, s.sync.hwMin, s.sync.hwMax)) =
      some (.running, 7500#32, 9166#32) := by
  decide

theorem test_start_without_override_measures :
    after (exec .start { State.reset with time.now := 6 }) (fun s => (s.phase, s.meas.t0)) =
      some (.measuring, 6#32) := by
  decide

theorem test_ack_clears_its_mask :
    after (exec (.ack 0x02) { State.reset with tele.evtPending := 0x13, tele.fadeDone := 0x05 })
      (fun s => (s.tele.evtPending, s.tele.fadeDone)) = some (0x11#8, 0#8) := by
  decide

theorem test_wreg_stores_a_legal_value :
    after (exec (.wreg 2 300) State.reset) (fun s => (s.cfg.zcDelay, s.tele.evtPending)) = some (300#16, 0#8) := by
  decide

theorem test_wreg_refuses_a_value_above_the_bound :
    after (exec (.wreg 4 101) State.reset) (fun s => (s.cfg.syncDev, s.tele.evtPending)) = some (0#7, 0x20#8) := by
  decide

theorem test_rreg_reads_a_schedule_entry :
    after (exec (.rreg 0x60) running) State.port = some ⟨0x00010836, true⟩ := by
  decide

theorem test_rreg_of_an_absent_channel_is_refused :
    after (exec (.rreg 0x24) running) (fun s => (s.port, s.tele.evtPending)) = some (⟨0, false⟩, 0x20#8) := by
  decide

/-! ## The scheduler: section 2.3 -/

theorem test_tick_wraps :
    after (exec .tick { State.reset with time.now := 0xFFFFFFFF, time.hwTcnt := 65535 })
      (fun s => (s.time.now, s.time.hwTcnt)) = some (0#32, 0#16) := by
  decide

theorem test_hw_start_begins_the_half_wave :
    after (exec .hwStart running) (fun s => (s.out, s.sched.idx, s.time)) =
      some (0x07#8, 0#4, ⟨99167, 0, 0, false, 2102, true⟩) := by
  decide

theorem test_hw_start_toggles_tick_zero_entries :
    after (exec .hwStart { running with sched.next := zeroEntry }) (fun s => (s.out, s.sched.idx, s.time.ocrb)) =
      some (0x02#8, 1#4, 500#16) := by
  decide

theorem test_hw_toggle_toggles_a_shared_offset_at_once :
    after (exec .hwToggle { beforeToggle with time.hwTcnt := 4166, sched.idx := 1, out := 0x05#8 })
      (fun s => (s.out, s.sched.idx, s.time.cmpbEn)) = some (0#8, 3#4, false) := by
  decide

theorem test_hw_toggle_keeps_the_minimum_lead :
    after (exec .hwToggle { running with
        params.minLead := 4
        time.hwTcnt := 1000
        sched.act := buffer [⟨0, 1000⟩, ⟨1, 1002⟩] 0x03#8 }) (·.time.ocrb) = some 1004#16 := by
  decide

/-! ## The synchronizer: section 2.2 -/

theorem test_edge_on_the_window_is_accepted :
    after (exec .zcEdge running) (fun s => (s.sync.invalidCnt, s.sync.lastEdge, s.time.ocra)) =
      some (0#16, 99167#32, 7500#16) := by
  decide

theorem test_edge_past_the_window_is_rejected :
    after (exec .zcEdge (edgeAt 100834)) (fun s => (s.sync.invalidCnt, s.sync.oosDir, s.sync.lastEdge)) =
      some (8#16, true, 91667#32) := by
  decide

/-! ## The measurement: section 2.6 -/

theorem test_last_delta_gives_the_frequency :
    after (exec .zcEdge (measuring 23 19)) (fun s => (s.phase, s.mains, s.tele.evtPending)) =
      some (.running, ⟨60002, false, 8333⟩, 0x10#8) := by
  decide

theorem test_meas_timeout_fails_the_pass :
    after (exec .measTimeout (measuring 23 19)) (fun s => (s.phase, s.mains.freq, s.tele.evtPending)) =
      some (.idle, 0#32, 0x08#8) := by
  decide

/-! ## The engine: sections 2.4 and 2.5 -/

theorem test_eng_calc_snaps_the_last_step :
    after (exec .engCalc { powered with chans := [⟨0, 0, 0, 0⟩, ⟨0x043B5559, 0xFFACAAAB, 1, 1000⟩, ⟨0, 0, 0, 0⟩, ⟨0, 0, 0, 0⟩] })
      (fun s => (s.chan 1, s.tele.fadeDone, s.tele.fadeDoneLevel, s.pending .fadeDone)) =
      some (⟨0x03E80000, 0, 0, 1000⟩, 0x02#8, [0, 1000, 0, 0], true) := by
  decide

theorem test_eng_calc_builds_the_sorted_schedule :
    after (exec .engCalc { running with
        chans := [Channel.atLevel 4096, Channel.atLevel 2048, Channel.atLevel 4096, Channel.atLevel 0] })
      (·.sched.scratch) = some threeEntries := by
  decide

theorem test_eng_publish_publishes :
    after (exec .engPublish { running with sched.scratch := zeroEntry })
      (fun s => (s.sched.next, s.tele.chState, s.tele.evtPending)) = some (zeroEntry, 0x03#8, 0x01#8) := by
  decide

/-! ## The step -/

/-- Section 2.3, one whole tick: the first toggle of the half-wave. -/
theorem test_step_toggles_at_the_offset :
    after (step (given quiet beforeToggle)) (fun s => (s.time.hwTcnt, s.out, s.sched.idx, s.time.ocrb)) =
      some (2102#16, 0x05#8, 1#4, 4166#16) := by
  decide

/-- Section 2.9: under reset no tick runs. -/
theorem test_step_under_reset :
    after (step (given { quiet with rst := true } beforeToggle)) (fun s => (s.time.now, s.out, s.phase)) =
      some (0#32, 0#8, .idle) := by
  decide

/-- Section 2.7: `RREG STATUS` in tick 1 after reset with `zc` = 1. -/
theorem test_step_reads_status_after_slot_4 :
    after (step (given { quiet with zc := true, cmd := some 0x0910000000000000 } State.reset)) State.port =
      some ⟨0x00001000, true⟩ := by
  decide

/-- Section 2.1: an illegal word raises `EV_CMD_ERR`. -/
theorem test_step_refuses_an_illegal_word :
    after (step (given { quiet with cmd := some 0x0100000100001000 } State.reset)) (fun s => (s.irq, s.tele.evtPending)) =
      some (true, 0x20#8) := by
  decide

/-- A command placed for the next step is run by it. -/
theorem test_placed_command_runs :
    after (step (State.reset.withFetchWord 64 0x050000000000EA60)) (·.mains) = some ⟨60000, true, 8333⟩ := by
  decide

/-- An event operation placed for the next step is run by it. -/
theorem test_placed_event_runs :
    after (step (State.reset.withFetchWord 8 0x10)) (fun s => (s.phase, s.pending .freqInvalid)) = some (.idle, true) := by
  decide

/-! ## Witnesses: states and operands that meet the hypotheses of the obligations -/

/-- Every state of the running block's kind satisfies the invariant. -/
theorem running_inv : running.Inv :=
  ⟨by decide, by decide, by decide, by decide, by decide, by decide⟩

theorem beforeToggle_inv : beforeToggle.Inv :=
  ⟨by decide, by decide, by decide, by decide, by decide, by decide⟩

theorem witness_DecodedCodeIsTheEncoding :
    decode (.cmd 0x0200006480002000) = .ok (.fade 0 100 0x8000 8192) ∧ decode (.evt 0x40) = .ok .engPublish := by
  exact ⟨rfl, rfl⟩

/-- An unknown opcode, a must-be-zero bit, the first channel that does not exist and the last value below `ALL` are
illegal; the last channel and `ALL` are not. -/
theorem witness_IllegalCommandOnlyRaisesCmdErr :
    running.params.nch ≤ 8 ∧ Spec.IllegalWord 4 0x0A00000000000000 ∧ Spec.IllegalWord 4 0x0100000100001000 ∧
    Spec.IllegalWord 4 0x0104000000001000 ∧ Spec.IllegalWord 4 0x01FE000000001000 ∧
    ¬ Spec.IllegalWord 4 0x0103000000001000 ∧ ¬ Spec.IllegalWord 4 0x01FF000000001000 := by
  refine ⟨by decide, ?_, ?_, ?_, ?_, ?_, ?_⟩ <;> simp [Spec.IllegalWord, Spec.commandRows]

theorem witness_StepRunsTheDecodedCommand :
    (given { quiet with cmd := some 0x0600000000000000 } running).nextInput.rst = false ∧
    (given { quiet with cmd := some 0x0600000000000000 } running).nextInput.cmd = some 0x0600000000000000 ∧
    decodeCmd 0x0600000000000000 = .ok .start := by
  exact ⟨rfl, rfl, rfl⟩

/-- Each event operation is due in some tick without reset. -/
theorem witness_StepRunsDueOperationsInSlotOrder :
    (State.reset.withFetchWord 8 0x02).nextInput.rst = false ∧
    after (exec .tick (State.reset.withFetchWord 8 0x02)) startDue = some true ∧
    after (exec .tick (State.reset.withFetchWord 8 0x04)) toggleDue = some true ∧
    after (exec .tick (State.reset.withFetchWord 8 0x08)) (edgeSeen · true) = some true ∧
    after (exec .tick (State.reset.withFetchWord 8 0x10)) timeoutDue = some true ∧
    after (exec .tick (State.reset.withFetchWord 8 0x20)) (calcDue · true) = some true ∧
    after (exec .tick (State.reset.withFetchWord 8 0x40)) (publishDue · true) = some true := by
  decide

theorem witness_ResetStepRunsNoTick : (given { quiet with rst := true } running).nextInput.rst = true := by decide

/-- The defaults, and parameters at both ends of their ranges. -/
theorem witness_ResetSatisfiesTheInvariant :
    Params.default.Legal ∧ { Params.default with nch := 1, levelMax := 1, measMinValid := 1, minLead := 255 }.Legal ∧
    { Params.default with nch := 8, levelMax := 32767, measNSamples := 64, measMinValid := 64, zcCorr := 255 }.Legal := by
  decide

theorem witness_StepKeepsTheInvariant :
    (given quiet beforeToggle).Inv ∧ ∃ t, step (given quiet beforeToggle) = .next t :=
  ⟨⟨by decide, by decide, by decide, by decide, by decide, by decide⟩, _, rfl⟩

theorem witness_StoppedBlockOnlyCounts :
    (given quiet State.reset).StoppedOk ∧ (given quiet State.reset).phase = .idle ∧
    (given quiet { State.reset with phase := .halted }).StoppedOk ∧ (given quiet State.reset).nextInput.rst = false ∧
    (given quiet State.reset).nextInput.cmd = none := by
  decide

/-- An accepted `RREG`, one of an unmapped number, and no command. -/
theorem witness_ReadPortHoldsTheLastAcceptedRead :
    (given { quiet with cmd := some 0x0910000000000000 } State.reset).nextInput.rst = false ∧
    decodeCmd 0x0910000000000000 = .ok (.rreg 0x10) ∧
    after (eventSlots quiet State.reset) (·.regRead 0x10) = some (some 0) ∧
    decodeCmd 0x0924000000000000 = .ok (.rreg 0x24) ∧
    after (eventSlots quiet State.reset) (·.regRead 0x24) = some none ∧
    (∃ t, step (given { quiet with cmd := some 0x0910000000000000 } State.reset) = .next t) ∧
    ∃ t, step (given quiet State.reset) = .next t :=
  ⟨rfl, rfl, by decide, rfl, by decide, ⟨_, rfl⟩, ⟨_, rfl⟩⟩

/-- A schedule with no tick-zero entry, one with one, and one with nothing else. -/
theorem witness_HwStartBeginsTheHalfWave :
    running.params.Legal ∧ threeEntries.WellFormed running.params.nch ∧ zeroEntry.WellFormed running.params.nch ∧
    (buffer [⟨0, 0⟩, ⟨1, 0⟩] 0x03#8).WellFormed running.params.nch := by
  decide

/-- The first toggle of a half-wave, and the last. -/
theorem witness_HwToggleTogglesOneOffset :
    running.params.Legal ∧ running.sched.act.WellFormed running.params.nch ∧
    running.sched.idx.toNat < running.sched.act.count.toNat ∧
    (2#4).toNat < { running with sched.idx := 2 }.sched.act.count.toNat := by
  decide

theorem witness_HwToggleWithNothingLeftCancelsCompareB :
    { running with sched.idx := 3 }.sched.act.count.toNat ≤ { running with sched.idx := 3 }.sched.idx.toNat := by
  decide

theorem witness_HwStartBeginsTheProfile :
    running.params.Legal ∧ running.sched.next.WellFormed running.params.nch ∧ ∃ t, exec .hwStart running = .next t :=
  ⟨by decide, by decide, _, rfl⟩

/-- One tick before the first toggle of the half-wave. -/
theorem witness_StepKeepsTheHalfWaveProfile :
    (given quiet beforeToggle).Inv ∧ (given quiet beforeToggle).params.minLead = 1 ∧
    (given quiet beforeToggle).time.hwTcnt ≠ 65535#16 ∧ (given quiet beforeToggle).HalfWaveProfile ∧
    ∃ t, step (given quiet beforeToggle) = .next t :=
  ⟨⟨by decide, by decide, by decide, by decide, by decide, by decide⟩, by decide, by decide, by decide, _, rfl⟩

/-- A tick whose compare A matches. -/
theorem witness_ScheduleBuffersAreNeverTorn :
    (given quiet { running with time.cmpaEn := true, time.ocra := 7201 }).nextInput.rst = false ∧
    ∃ t, step (given quiet { running with time.cmpaEn := true, time.ocra := 7201 }) = .next t ∧ t.time.hwTcnt = 0 :=
  ⟨by decide, _, rfl, by decide⟩

theorem witness_EdgeIsIgnoredWhenStopped :
    State.reset.phase = .idle ∧ { State.reset with phase := .halted }.phase = .halted := by
  decide

/-- Both ends of the window, and validation off. -/
theorem witness_AcceptedEdgeArmsCompareA :
    running.phase = .running ∧ running.sync.lastEdgeValid = true ∧
    running.sync.hwMin.toNat = ((edgeAt 99167).time.now - running.sync.lastEdge).toNat ∧
    ((edgeAt 100833).time.now - running.sync.lastEdge).toNat = running.sync.hwMax.toNat ∧
    { running with cfg.zcValidate := false }.cfg.zcValidate = false := by
  decide

theorem witness_SeedEdgeOnlyBecomesTheReference :
    { running with sync.lastEdgeValid := false }.phase = .running ∧
    { running with sync.lastEdgeValid := false }.cfg.zcValidate = true ∧
    { running with sync.lastEdgeValid := false }.sync.lastEdgeValid = false := by
  decide

/-- One tick before the window and one after it. -/
theorem witness_RejectedEdgeIsOnlyCounted :
    running.phase = .running ∧ running.cfg.zcValidate = true ∧ running.sync.lastEdgeValid = true ∧
    Spec.OutsideWindow (edgeAt 99166) 99166 ∧ Spec.OutsideWindow (edgeAt 100834) 100834 ∧
    min (running.sync.invalidCnt.toNat + 1) 65535 < running.cfg.oosLimit.toNat := by
  unfold Spec.OutsideWindow
  decide

/-- The limit 8 at the eighth rejected edge, and the limit 0. -/
theorem witness_RejectedEdgeAtTheLimitLosesSync :
    running.phase = .running ∧ running.cfg.zcValidate = true ∧ running.sync.lastEdgeValid = true ∧
    Spec.OutsideWindow (edgeAt 100834) 100834 ∧
    (8#16).toNat ≤ min (running.sync.invalidCnt.toNat + 1) 65535 ∧ (0#16).toNat ≤ min ((limited 0).sync.invalidCnt.toNat + 1) 65535 := by
  unfold Spec.OutsideWindow
  decide

/-- The limit 3: two rejected edges, and three. -/
theorem witness_SyncIsLostAtTheLimitAndNotBefore :
    (limited 3).phase = .running ∧ (limited 3).cfg.zcValidate = true ∧ (limited 3).sync.lastEdgeValid = true ∧
    (limited 3).sync.invalidCnt = 0 ∧ 1 ≤ (limited 3).cfg.oosLimit.toNat ∧
    (∀ n ∈ [91687#32, 91688#32, 120000#32], Spec.OutsideWindow (limited 3) n) ∧
    [91687#32, 91688#32].length < (limited 3).cfg.oosLimit.toNat ∧
    (limited 3).cfg.oosLimit.toNat ≤ [91687#32, 91688#32, 120000#32].length := by
  simp [Spec.OutsideWindow, limited, running]

/-- A misfire 20 ticks after an edge, and the next edge 8333 ticks after it. -/
theorem witness_MisfireDoesNotDisturbTheNextEdge :
    (limited 2).phase = .running ∧ (limited 2).cfg.zcValidate = true ∧ (limited 2).sync.lastEdgeValid = true ∧
    (limited 2).sync.invalidCnt = 0 ∧ 2 ≤ (limited 2).cfg.oosLimit.toNat ∧
    (91687#32 - (limited 2).sync.lastEdge).toNat < (limited 2).sync.hwMin.toNat ∧
    (limited 2).sync.hwMin.toNat ≤ (100000#32 - (limited 2).sync.lastEdge).toNat ∧
    (100000#32 - (limited 2).sync.lastEdge).toNat ≤ (limited 2).sync.hwMax.toNat ∧
    (limited 2).sync.hwMin.toNat ≤ (limited 2).sync.hwMax.toNat := by
  decide

/-- The running block with compare A armed `d` ticks ahead and as many quiet ticks to come. -/
def armed (d : Nat) : State :=
  { running with
    time.cmpaEn := true
    time.ocra := running.time.hwTcnt + BitVec.ofNat 16 d
    inputs := List.replicate d quiet }

/-- The shortest delay and the longest. -/
theorem witness_ArmedStartRunsAfterExactlyTheDelay :
    ∀ d ∈ [1, 65535], (armed d).phase = .running ∧ (armed d).time.cmpaEn = true ∧ 1 ≤ d ∧ d ≤ 65535 ∧
      (armed d).time.ocra = (armed d).time.hwTcnt + BitVec.ofNat 16 d ∧ d ≤ (armed d).inputs.length ∧
      ∀ i ∈ (armed d).inputs, i.rst = false ∧ Bool.xor i.zc (armed d).params.zcPolInv = (armed d).sync.zcPrev := by
  intro d h
  refine ⟨rfl, rfl, by simp at h; omega, by simp at h; omega, rfl, by simp [armed], fun i hi => ?_⟩
  obtain rfl := List.eq_of_mem_replicate hi
  exact ⟨rfl, rfl⟩

/-- A pass of a build that collects one delta only. -/
def measuringOne (seen : Half) : State := { measuring seen 0 with params.measNSamples := 1, params.measMinValid := 1 }

/-- The last edge that stores no delta, the first that stores one, the last but one, and, where one delta is the whole pass,
the first edge and the last that stores none. -/
theorem witness_MeasuringEdgeStoresItsDelta :
    (measuring 3 0).phase = .measuring ∧ (measuring 3 0).params.measNSamples ≤ 64 ∧
    (measuring 3 0).meas.cnt.toNat + 1 < (measuring 3 0).params.measNSamples ∧
    (measuring 22 18).meas.cnt.toNat + 1 < (measuring 22 18).params.measNSamples ∧
    (measuring 3 0).params.measWarmup + 2 > min ((measuring 3 0).meas.seen.toNat + 1) 65535 ∧
    (measuring 4 0).params.measWarmup + 2 ≤ min ((measuring 4 0).meas.seen.toNat + 1) 65535 ∧
    (measuringOne 0).params.Legal ∧ (measuringOne 0).meas.cnt.toNat < (measuringOne 0).params.measNSamples ∧
    min ((measuringOne 0).meas.seen.toNat + 1) 65535 < (measuringOne 0).params.measWarmup + 2 ∧
    min ((measuringOne 3).meas.seen.toNat + 1) 65535 < (measuringOne 3).params.measWarmup + 2 := by
  decide

/-- A pass that succeeds and one that fails. -/
theorem witness_LastDeltaEndsThePass :
    (measuring 23 19).phase = .measuring ∧ (measuring 23 19).params.measNSamples ≤ 64 ∧
    (measuring 23 19).cfg.syncDev.toNat ≤ 100 ∧
    (measuring 23 19).meas.cnt.toNat + 1 = (measuring 23 19).params.measNSamples ∧
    (measuring 23 19).params.measWarmup + 2 ≤ min ((measuring 23 19).meas.seen.toNat + 1) 65535 ∧
    Spec.PassSucceeds Params.default 10 (List.replicate 20 8333) ∧
    ¬ Spec.PassSucceeds Params.default 10 (List.replicate 9 8333 ++ List.replicate 11 20000) := by
  unfold Spec.PassSucceeds Spec.Usable
  decide +kernel

/-- One tick before the deadline, and at it. -/
theorem witness_PassEndsAtItsDeadline :
    (given quiet { measuring 0 0 with time.now := 499972 }).StoppedOk ∧ (measuring 0 0).phase = .measuring ∧
    quiet.rst = false ∧ quiet.cmd = none ∧ Bool.xor quiet.zc (measuring 0 0).params.zcPolInv = false ∧
    (499972#32 + 1 - (measuring 0 0).meas.t0).toNat + 1 = Params.default.measTimeout ∧
    (499973#32 + 1 - (measuring 0 0).meas.t0).toNat = Params.default.measTimeout := by
  decide

/-- Guard bands that fill the half-wave, and the whole range of levels. -/
theorem witness_OnTicksInRangeAndMonotone :
    Params.default.Legal ∧ running.cfg.minOn.toNat + running.cfg.minOff.toNat ≤ 76 ∧ 0 ≤ 8192 ∧
    8192 ≤ Params.default.levelMax := by
  decide

/-- Guard bands that fill the half-wave, with the mapping off and with the mapping of R152 on. -/
theorem witness_SwitchOffsetFollowsTheFormula :
    running.cfg.rangeDiv = 0 ∧ 8192 ≤ Params.default.levelMax ∧ Params.default.rescale = .rule152 ∧
    { running.cfg with rangeBegin := 1000, rangeDiv := 16384 }.rangeDiv ≠ 0 ∧
    running.cfg.minOn.toNat + running.cfg.minOff.toNat ≤ 76 := by
  decide

/-- Guard bands that just fit, and guard bands that just do not. -/
theorem witness_ScheduleIsSortedAndComplete :
    running.params.Legal ∧
    { running with mains.hTicks := 76 }.cfg.minOn.toNat + running.cfg.minOff.toNat ≤
      { running with mains.hTicks := 76 }.mains.hTicks.toNat ∧
    { running with mains.hTicks := 75 }.mains.hTicks.toNat < running.cfg.minOn.toNat + running.cfg.minOff.toNat := by
  decide

theorem witness_SetlvlSetsEachSelectedChannel :
    powered.params.Legal ∧ powered.chans.length = powered.params.nch ∧ (3#8).toNat < powered.params.nch ∧
    Spec.Selects 3 3 ∧ ¬ Spec.Selects 3 0 ∧ Spec.Selects 0xFF 0 := by
  unfold Spec.Selects
  decide

/-- The powered block with a fade on channel 3. -/
def fading : State :=
  { powered with chans := [⟨0, 0, 0, 0⟩, ⟨0, 0, 0, 0⟩, ⟨0, 0, 0, 0⟩, ⟨0x00CCCCCC, 0x00444444, 117, 8192⟩] }

/-- A channel that is not fading, one that is, a `FREEZE`, a distance of zero, a step count of zero, and a fade. -/
theorem witness_FadeSetsUpEachSelectedChannel :
    fading.params.Legal ∧ fading.chans.length = fading.params.nch ∧ fading.LevelsOk ∧
    (3#8).toNat < fading.params.nch ∧ Spec.Selects 3 3 ∧ ¬ Spec.Selects 3 0 ∧ Spec.Selects 0xFF 0 ∧
    (fading.chan 0).remain = 0 ∧ (fading.chan 3).remain ≠ 0 ∧ (8192#16) ≠ 0x8001#16 ∧
    Spec.normLevel 8192 204 = (fading.chan 3).levelFp.toNat / 65536 ∧ Spec.stepCount 8192 60000 0 8192 false = 0 ∧
    Spec.stepCount 8192 60000 100 8192 false = 120 := by
  unfold Spec.Selects
  decide

theorem witness_BadChannelOnlyRaisesCmdErr :
    powered.params.nch ≤ (4#8).toNat ∧ 4#8 ≠ 0xFF#8 ∧ powered.params.nch ≤ (0xFE#8).toNat ∧ 0xFE#8 ≠ 0xFF#8 := by
  decide

/-- A channel at level 204, with a fraction. -/
theorem witness_ZeroDistanceFadeIsIdempotent :
    powered.params.Legal ∧ powered.chans.length = powered.params.nch ∧ (0#8).toNat < powered.params.nch ∧
    (204#16) ≠ 0x8001#16 ∧
    Spec.normLevel 8192 204 =
      (State.chan { powered with chans := List.replicate 4 ⟨0x00CCCCCC, 0x00444444, 117, 8192⟩ } 0).levelFp.toNat / 65536 := by
  decide

/-- A channel without a fade, one with its last step left, and one with two. -/
theorem witness_EngCalcStepsFadesAndRebuilds :
    { powered with chans := [⟨0, 0, 0, 0⟩, ⟨0, 65536, 1, 1⟩, ⟨0, 65536, 2, 2⟩, ⟨0, 0, 0, 0⟩] }.ShapeOk ∧
    { powered with chans := [⟨0, 0, 0, 0⟩, ⟨0, 65536, 1, 1⟩, ⟨0, 65536, 2, 2⟩, ⟨0, 0, 0, 0⟩] }.LevelsOk := by
  decide

/-- A fade of 120 steps, one of a single step, and one of the last channel under `ALL`. -/
theorem witness_FadeEndsExactlyAtItsTarget :
    powered.ShapeOk ∧ powered.LevelsOk ∧ 0 < powered.params.nch ∧ 3 < powered.params.nch ∧ Spec.Selects 0 0 ∧
    Spec.Selects 0xFF 3 ∧ (8192#16) ≠ 0x8001#16 ∧
    (∃ u, exec (.fade 0 100 0x8000 8192) powered = .next u ∧ 0 < (u.chan 0).remain.toNat) ∧
    (∃ u, exec (.fade 0 10 0x8000 1000) powered = .next u ∧ (u.chan 0).remain.toNat = 1) ∧
    ∃ u, exec (.fade 0xFF 100 0x8000 8192) powered = .next u ∧ 0 < (u.chan 3).remain.toNat :=
  ⟨by decide, by decide, by decide, by decide, .inl rfl, .inr rfl, by decide, ⟨_, rfl, by decide⟩, ⟨_, rfl, by decide⟩,
    ⟨_, rfl, by decide⟩⟩

/-- Both ends of the usable range, and the values just outside it. -/
theorem witness_SetfreqSetsOrRemovesTheOverride :
    running.phase = .running ∧ powered.phase = .idle ∧ Spec.Usable Params.default 7630 ∧
    Spec.Usable Params.default 1000000000 ∧ ¬ Spec.Usable Params.default 7629 ∧
    ¬ Spec.Usable Params.default 1000000001 := by
  unfold Spec.Usable
  decide

theorem witness_StartBeginsASession :
    running.phase = .running ∧ powered.phase = .idle ∧ powered.cfg.syncDev.toNat ≤ 100 ∧
    powered.mains.freqOvr = true ∧ { State.reset with phase := .halted }.phase = .halted ∧
    State.reset.mains.freqOvr = false ∧ { State.reset with cfg.syncDev := 100 }.cfg.syncDev.toNat ≤ 100 := by
  decide

theorem witness_PhaseGatesOnlyStartAndSetfreq :
    running.phase = .running ∧ powered.phase = .idle ∧ Spec.Usable powered.params 60000 ∧
    (∃ t, exec (.setlvl 0 4096) running = .next t) ∧ (∃ t, exec (.rreg 0x20) running = .next t) ∧ 0x20#8 ≠ 0x10#8 := by
  unfold Spec.Usable
  exact ⟨by decide, by decide, by decide, ⟨_, rfl⟩, ⟨_, rfl⟩, by decide⟩

/-- A value at its bound, one above it, a read-only number and an unmapped one. -/
theorem witness_WregStoresALegalValueAndRefusesTheRest :
    State.reset.params.Legal ∧ (0x04#8, 100) ∈ Spec.writableRegs State.reset.params.levelMax ∧ (100#32).toNat ≤ 100 ∧
    (∀ e ∈ Spec.writableRegs 8192, e.1 = 0x04#8 → e.2 < (101#32).toNat) ∧
    (∀ e ∈ Spec.writableRegs 8192, e.1 ≠ 0x10#8) ∧ (∀ e ∈ Spec.writableRegs 8192, e.1 ≠ 0x09#8) := by
  decide

theorem witness_RregReadsWithoutSideEffect :
    powered.regRead 0x23 = some 0 ∧ powered.regRead 0x24 = none := by
  decide

/-- A number outside the groups, the last member of a group of channels, of slots and of deltas, and the first number past
each of these and past the map. -/
theorem witness_RegisterMapReadsTheState :
    powered.params.Legal ∧ (0x1D#8, 0) ∈ Spec.singleNumbers powered ∧
    (∃ g ∈ Spec.numberGroups powered, g.1 = 0x38 ∧ g.2[3]? = some 0) ∧
    (∃ g ∈ Spec.numberGroups powered, g.1 = 0x60 ∧ g.2[4]? = some 0xFF0000) ∧
    (∃ g ∈ Spec.numberGroups powered, g.1 = 0x80 ∧ g.2[19]? = some 0) ∧
    ∀ n ∈ [0x09#8, 0x3C#8, 0x65#8, 0x94#8, 0xC4#8, 0xFF#8], n ≠ 0x10#8 ∧
      (∀ r ∈ Spec.singleNumbers powered, r.1 ≠ n) ∧
      ∀ g ∈ Spec.numberGroups powered, n.toNat < g.1 ∨ g.1 + g.2.length ≤ n.toNat := by
  decide +kernel

theorem witness_OnlyAckClearsEvents :
    ∃ t, exec .engCalc { powered with tele.evtPending := 0x10 } = .next t ∧ (∀ m, Instr.engCalc ≠ .ack m) ∧
      { powered with tele.evtPending := 0x10 }.pending .freqUpdated = true :=
  ⟨_, rfl, fun _ => by simp, by decide⟩

theorem witness_OperationsRaiseOnlyTheirEvents :
    ∃ t, exec (.setlvl 4 0) powered = .next t ∧ powered.pending .cmdErr = false ∧ t.pending .cmdErr = true :=
  ⟨_, rfl, by decide, by decide⟩

/-- Each of the five arrows is taken. -/
theorem witness_PhaseMovesOnlyAlongItsArrows :
    (∃ t, exec .start State.reset = .next t ∧ t.phase ≠ State.reset.phase) ∧
    (∃ t, exec .start powered = .next t ∧ t.phase ≠ powered.phase) ∧
    (∃ t, exec .zcEdge (measuring 23 19) = .next t ∧ t.phase ≠ (measuring 23 19).phase) ∧
    (∃ t, exec .measTimeout (measuring 0 0) = .next t ∧ t.phase ≠ (measuring 0 0).phase) ∧
    ∃ t, exec .zcEdge { limited 1 with time.now := 91687 } = .next t ∧ t.phase ≠ .running :=
  ⟨⟨_, rfl, by decide⟩, ⟨_, rfl, by decide⟩, ⟨_, rfl, by decide⟩, ⟨_, rfl, by decide⟩, ⟨_, rfl, by decide⟩⟩

theorem witness_StateIsWrittenOnlyByItsWriters : ∃ t, exec .hwToggle beforeToggle = .next t := ⟨_, rfl⟩

theorem witness_ControlStateIsWrittenOnlyByItsWriters :
    (∃ t, exec .engPublish running = .next t) ∧ ∃ t, exec .measTimeout (measuring 0 0) = .next t :=
  ⟨⟨_, rfl⟩, ⟨_, rfl⟩⟩

theorem witness_FrequencyIsFixedWhileRunning :
    (given quiet beforeToggle).nextInput.rst = false ∧ (given quiet beforeToggle).phase = .running ∧
    ∃ t, step (given quiet beforeToggle) = .next t ∧ t.phase = .running :=
  ⟨by decide, by decide, _, rfl, by decide⟩

theorem witness_BusyEngineDropsTheRequest :
    { running with eng := .publishPending }.eng ≠ .idle ∧
    ∃ t, exec .hwStart { running with eng := .publishPending } = .next t :=
  ⟨by decide, _, rfl⟩

end Sys2Proof.Tests
end

section
/-! Totality: no operation and no step faults or refuses (93_implementation_defined.md, section 1). And slot 8 of a tick
as an equation (R262, R89). -/

namespace Sys2Proof.Machine

/-! ## The operations whose meaning branches on the outcome -/

/-- A refused write is a next state too (R229). -/
theorem execWreg_total (reg : Byte) (value : Word) (s : State) : ∃ t, execWreg reg value s = .next t := by
  unfold execWreg
  cases s.regWrite reg value with
  | some t => exact ⟨t, rfl⟩
  | none => exact ⟨_, rfl⟩

/-- A refused read is a next state too (R230). -/
theorem execRreg_total (reg : Byte) (s : State) : ∃ t, execRreg reg s = .next t := by
  unfold execRreg
  cases s.regRead reg with
  | some v => exact ⟨_, rfl⟩
  | none => exact ⟨_, rfl⟩

/-- An edge leads on from every phase (R111). -/
theorem execZcEdge_total (s : State) : ∃ t, execZcEdge s = .next t := by
  unfold execZcEdge
  cases s.phase with
  | idle => exact ⟨s, rfl⟩
  | measuring => exact ⟨edgeMeasuring s, rfl⟩
  | running => exact ⟨edgeRunning s, rfl⟩
  | halted => exact ⟨s, rfl⟩

/-- A compare B match leads on with or without an entry left (R138). -/
theorem execHwToggle_total (s : State) : ∃ t, execHwToggle s = .next t := by
  unfold execHwToggle
  by_cases hdone : s.sched.act.count.toNat ≤ s.sched.idx.toNat
  · exact ⟨_, if_pos hdone⟩
  · exact ⟨_, if_neg hdone⟩

/-- Every operation gives a next state in every state. The four operations above branch on the outcome; the meaning of
any other is a `.next` as it stands. -/
theorem exec_total (i : Instr) (s : State) : ∃ t, exec i s = .next t := by
  cases i with
  | wreg reg value => exact execWreg_total reg value s
  | rreg reg => exact execRreg_total reg s
  | zcEdge => exact execZcEdge_total s
  | hwToggle => exact execHwToggle_total s
  | setlvl | fade | fadea | setmode | setfreq | start | ack | tick | hwStart | measTimeout | engCalc | engPublish =>
    exact ⟨_, rfl⟩

/-! ## The slots of a tick (R262) -/

/-- Two operations in a row give a next state when each does. -/
theorem andThen_total {r : Result} {f : State → Result} (hr : ∃ s, r = .next s) (hf : ∀ s, ∃ t, f s = .next t) :
    ∃ t, andThen r f = .next t := by
  obtain ⟨s, rfl⟩ := hr
  exact hf s

theorem slot_total (due : Bool) (i : Instr) (s : State) : ∃ t, slot due i s = .next t := by
  cases due with
  | true => exact exec_total i s
  | false => exact ⟨s, rfl⟩

theorem eventSlots_total (i : TickInput) (s : State) : ∃ t, eventSlots i s = .next t :=
  andThen_total (exec_total .tick s) fun _ =>
  andThen_total (slot_total _ .hwStart _) fun _ =>
  andThen_total (slot_total _ .hwToggle _) fun _ =>
  andThen_total (slot_total _ .zcEdge _) fun _ =>
  andThen_total (slot_total _ .measTimeout _) fun _ =>
  andThen_total (slot_total _ .engCalc _) fun _ =>
  slot_total _ .engPublish _

/-- An illegal word is a next state too: it raises `EV_CMD_ERR` (R88). -/
theorem runCommand_total (w : CmdWord) (s : State) : ∃ t, runCommand w s = .next t := by
  unfold runCommand
  cases decodeCmd w with
  | ok i => exact exec_total i s
  | error e => exact ⟨_, rfl⟩

theorem commandSlot_total (cmd : Option CmdWord) (s : State) : ∃ t, commandSlot cmd s = .next t := by
  cases cmd with
  | none => exact ⟨_, rfl⟩
  | some w => exact runCommand_total w _

theorem tick_total (i : TickInput) (s : State) : ∃ t, tick i s = .next t :=
  andThen_total (eventSlots_total i s) (commandSlot_total i.cmd)

/-- One clock edge gives a next state, under reset (R280) and without. -/
theorem clockEdge_total (i : TickInput) (s : State) : ∃ t, clockEdge i s = .next t := by
  unfold clockEdge
  cases i.rst with
  | true => exact ⟨s.resetBlock, rfl⟩
  | false => exact tick_total i s

theorem step_total (s : State) : ∃ t, step s = .next t :=
  clockEdge_total s.nextInput s.popInput

/-! ## Slot 8 as an equation -/

/-- A step without reset is slot 8 in the state slots 1 to 7 left (R262). -/
theorem step_eq_commandSlot {s t : State} (hrst : s.nextInput.rst = false)
    (ht : eventSlots s.nextInput s.popInput = .next t) : step s = commandSlot s.nextInput.cmd t := by
  simp [step, clockEdge, tick, hrst, ht]

/-- Slot 8 with a legal command word runs the operation, `RVALID` cleared first (R38, R89). -/
theorem commandSlot_of_decodeCmd {w : CmdWord} {c : Instr} (hdec : decodeCmd w = .ok c) (t : State) :
    commandSlot (some w) t = exec c { t with port.rvalid := false } := by
  simp [commandSlot, runCommand, hdec]

end Sys2Proof.Machine

open Sys2Proof.Machine

/-- Settles O7: by cases on the operation, then slot by slot through the tick. -/
theorem everyStepAndOperationGivesANextState : Obligations.EveryStepAndOperationGivesANextState :=
  ⟨exec_total, step_total⟩

/-- Settles O5: slots 1 to 7 always leave a state, and slot 8 runs the decoded word in it. -/
theorem stepRunsTheDecodedCommand : Obligations.StepRunsTheDecodedCommand := by
  intro s w c hrst hcmd hdec
  obtain ⟨t, ht⟩ := eventSlots_total s.nextInput s.popInput
  have hstep : step s = exec c { t with port.rvalid := false } := by
    rw [step_eq_commandSlot hrst ht, hcmd, commandSlot_of_decodeCmd hdec]
  exact ⟨t, ht, hstep⟩
end

section
/-! What the operations that branch can do: an edge (40_zc_synchronizer.md R111 to R117, 44_frequency_measurement.md
R202 to R205), `START`, `SETFREQ`, `WREG`, `RREG` and the level commands (45_host_commands.md, 43_fading_engine.md). -/

namespace Sys2Proof.Machine

/-! ## One edge -/

/-- A rejected edge as it is counted, before the limit is asked (R115). -/
def countRejected (el : Nat) (s : State) : State :=
  { s with
    sync.invalidCnt := BitVec.ofNat 16 (sat16 (s.sync.invalidCnt.toNat + 1))
    sync.oosDir := decide (s.sync.hwMax.toNat < el) }

theorem rejectEdge_eq (el : Nat) (s : State) : rejectEdge el s =
    if s.cfg.oosLimit.toNat ≤ (countRejected el s).sync.invalidCnt.toNat then syncLost (countRejected el s)
    else countRejected el s := rfl

/-- A pass that ends with the usable frequency `f` (R205). -/
def passDone (f : Nat) (s : State) : State :=
  enterRunning true ((s.setFreq (freqWord f) (hOf s.params f)).raise .freqUpdated)

/-- Every field after a loss of synchronisation (R116). -/
theorem syncLost_eq (s : State) : syncLost s = { s with
    sync.oosCnt := s.sync.invalidCnt
    time.cmpaEn := false
    time.cmpbEn := false
    out := 0#8
    sched.act := Buffer.empty s.params.nch
    sched.next := Buffer.empty s.params.nch
    sched.idx := 0
    eng := .idle
    mains.freq := if s.mains.freqOvr then s.mains.freq else 0
    mains.hTicks := if s.mains.freqOvr then s.mains.hTicks else 0
    phase := .halted
    tele.evtPending := s.tele.evtPending ||| Event.syncLost.mask } := by
  unfold syncLost
  dsimp only
  split <;> rfl

/-- What `ZC_EDGE` can do, by phase (R111). -/
inductive EdgeOutcome (s : State) : State → Prop where
  /-- A stopped block ignores the edge. -/
  | ignored : s.phase = .idle ∨ s.phase = .halted → EdgeOutcome s s
  /-- R113. -/
  | accepted : s.phase = .running → EdgeOutcome s (acceptEdge s)
  /-- R114. -/
  | seeded : s.phase = .running → EdgeOutcome s (seedEdge s)
  /-- R115, below the limit. -/
  | rejected (el : Nat) : s.phase = .running → EdgeOutcome s (countRejected el s)
  /-- R116, at the limit. -/
  | lost (el : Nat) : s.phase = .running → s.cfg.oosLimit.toNat ≤ (countRejected el s).sync.invalidCnt.toNat →
      EdgeOutcome s (syncLost (countRejected el s))
  /-- R202. -/
  | stored : s.phase = .measuring → EdgeOutcome s (storeDelta s)
  /-- R205, the pass fails. -/
  | failed : s.phase = .measuring → EdgeOutcome s (measFail (storeDelta s))
  /-- R205, the pass succeeds. -/
  | measured (f : Nat) : s.phase = .measuring → usable s.params f = true →
      EdgeOutcome s (passDone f (storeDelta s))

theorem edgeRunning_outcome {s : State} (hrun : s.phase = .running) : EdgeOutcome s (edgeRunning s) := by
  unfold edgeRunning
  split
  · exact .accepted hrun
  split
  · exact .seeded hrun
  dsimp only
  split
  · exact .accepted hrun
  rw [rejectEdge_eq]
  split
  next hlim => exact .lost _ hrun hlim
  next => exact .rejected _ hrun

/-- A frequency that the filter returns is usable (R205). -/
theorem usable_of_filterResult {p : Params} {dev : Nat} {buf : List Word} {f : Nat}
    (h : filterResult p dev buf = some f) : usable p f = true := by
  unfold filterResult at h
  split at h
  · cases h
  split at h
  · cases h
  dsimp only at h
  split at h
  next hus => cases h; exact hus
  next => cases h

theorem edgeMeasuring_outcome {s : State} (hmeas : s.phase = .measuring) : EdgeOutcome s (edgeMeasuring s) := by
  unfold edgeMeasuring measFinish
  dsimp only
  split
  · split
    next => exact .failed hmeas
    next f hf => exact .measured f hmeas (usable_of_filterResult hf)
  · exact .stored hmeas

theorem execZcEdge_outcome {s t : State} (h : exec .zcEdge s = .next t) : EdgeOutcome s t := by
  change execZcEdge s = .next t at h
  unfold execZcEdge at h
  cases hphase : s.phase <;> rw [hphase] at h <;> cases h
  case idle => exact .ignored (.inl hphase)
  case measuring => exact edgeMeasuring_outcome hphase
  case running => exact edgeRunning_outcome hphase
  case halted => exact .ignored (.inr hphase)

/-! ## `START` and `SETFREQ` -/

/-- The phases in which `START` and `SETFREQ` are accepted (R221). -/
theorem refusesStart_eq_false {p : Phase} : p.refusesStart = false ↔ p = .idle ∨ p = .halted := by
  cases p <;> simp [Phase.refusesStart]

theorem refusesStart_eq_true {p : Phase} : p.refusesStart = true ↔ p = .measuring ∨ p = .running := by
  cases p <;> simp [Phase.refusesStart]

/-- What `START` can do (R221, R226). -/
inductive StartOutcome (s : State) : State → Prop where
  | refused : s.phase = .measuring ∨ s.phase = .running → StartOutcome s (s.raise .cmdErr)
  | override : s.phase = .idle ∨ s.phase = .halted → s.mains.freqOvr = true →
      StartOutcome s (enterRunning false (beginSession s))
  | measure : s.phase = .idle ∨ s.phase = .halted → s.mains.freqOvr = false →
      StartOutcome s (measBegin (beginSession s))

theorem execStart_outcome {s t : State} (h : exec .start s = .next t) : StartOutcome s t := by
  change execStart s = .next t at h
  unfold execStart at h
  cases href : s.phase.refusesStart <;> cases hovr : s.mains.freqOvr <;> simp [href, hovr] at h <;> cases h
  · exact .measure (refusesStart_eq_false.mp href) hovr
  · exact .override (refusesStart_eq_false.mp href) hovr
  · exact .refused (refusesStart_eq_true.mp href)
  · exact .refused (refusesStart_eq_true.mp href)

/-- What `SETFREQ` can do (R221, R225). -/
inductive SetfreqOutcome (imm : Word) (s : State) : State → Prop where
  | refused : SetfreqOutcome imm s (s.raise .cmdErr)
  | removed : s.phase = .idle ∨ s.phase = .halted → SetfreqOutcome imm s (removeOverride s)
  | set : s.phase = .idle ∨ s.phase = .halted → usable s.params imm.toNat = true →
      SetfreqOutcome imm s (setOverride imm s)

theorem execSetfreq_outcome {imm : Word} {s t : State} (h : exec (.setfreq imm) s = .next t) :
    SetfreqOutcome imm s t := by
  change execSetfreq imm s = .next t at h
  unfold execSetfreq at h
  cases h
  split
  · exact .refused
  next href =>
    have hstop := refusesStart_eq_false.mp (Bool.eq_false_of_not_eq_true href)
    split
    · exact .removed hstop
    split
    next hus => exact .set hstop hus
    next => exact .refused

/-! ## `WREG`, `RREG` and the level commands -/

/-- A write is accepted or refused (R229). -/
theorem execWreg_outcome {reg : Byte} {value : Word} {s t : State} (h : exec (.wreg reg value) s = .next t) :
    (∃ c, s.cfg.write s.params.levelMax reg value = some c ∧ t = { s with cfg := c }) ∨ t = s.raise .cmdErr := by
  change execWreg reg value s = .next t at h
  unfold execWreg State.regWrite at h
  cases hw : s.cfg.write s.params.levelMax reg value <;> rw [hw] at h <;> cases h
  case none => exact .inr rfl
  case some c => exact .inl ⟨c, rfl, rfl⟩

/-- A read of a mapped number writes the read port alone (R230). -/
theorem execRreg_mapped {reg : Byte} {v : Word} {s : State} (h : s.regRead reg = some v) :
    exec (.rreg reg) s = .next { s with port.rdata := v, port.rvalid := true } := by
  change execRreg reg s = _
  rw [execRreg, h]

/-- A read of an unmapped number is refused (R230). -/
theorem execRreg_unmapped {reg : Byte} {s : State} (h : s.regRead reg = none) :
    exec (.rreg reg) s = .next { s.raise .cmdErr with port.rvalid := false } := by
  change execRreg reg s = _
  rw [execRreg, h]

/-- A level command runs its procedure on the channels it names or is refused (R175). -/
theorem onChannels_cases (ch : Byte) (f : Channel → Channel) (s : State) :
    (∃ sel, onChannels ch f s = { s with chans := mapSelected sel f s.chans }) ∨ onChannels ch f s = s.raise .cmdErr := by
  cases hsel : chanOperand s.params.nch ch with
  | none => exact .inr (onChannels_illegal f hsel)
  | some sel => exact .inl ⟨sel, onChannels_legal f rfl hsel⟩

end Sys2Proof.Machine
end

section
/-! The invariant (10_state.md R42): it holds after reset, and every operation that the tick runs keeps it. -/

namespace Sys2Proof.Machine

/-! ## Frequencies (R150, R205) -/

theorem usable_iff {p : Params} {f : Nat} : usable p f = true ↔ 1 ≤ f ∧ 1 ≤ hOf p f ∧ hOf p f ≤ 65535 := by
  simp [usable]

theorem freqWord_ne_zero {f : Nat} (h : 1 ≤ f) : freqWord f ≠ 0#32 := by
  unfold freqWord
  split
  next hlt =>
    intro h0
    have := congrArg BitVec.toNat h0
    rw [BitVec.toNat_ofNat, Nat.mod_eq_of_lt hlt] at this
    simp at this
    omega
  next =>
    split
    · decide
    · assumption

/-- The half-wave length of a usable frequency is not 0 in its 16-bit register. -/
theorem hTicks_ne_zero {h : Nat} (h1 : 1 ≤ h) (h2 : h ≤ 65535) : BitVec.ofNat 16 h ≠ 0#16 := by
  intro h0
  have := congrArg BitVec.toNat h0
  rw [BitVec.toNat_ofNat, Nat.mod_eq_of_lt (by omega)] at this
  simp at this
  omega

/-! ## What the invariant says of a block that is doing something (R42 (a)) -/

theorem State.Inv.running_of_cmpaEn {s : State} (hs : s.Inv) (h : s.time.cmpaEn = true) : s.phase = .running := by
  by_contra hrun
  obtain ⟨ha, -⟩ := hs.stopped hrun
  simp [ha] at h

theorem State.Inv.running_of_cmpbEn {s : State} (hs : s.Inv) (h : s.time.cmpbEn = true) : s.phase = .running := by
  by_contra hrun
  obtain ⟨-, hb, -⟩ := hs.stopped hrun
  simp [hb] at h

theorem State.Inv.running_of_busy {s : State} (hs : s.Inv) (h : s.eng ≠ .idle) : s.phase = .running := by
  by_contra hrun
  obtain ⟨-, -, -, heng, -⟩ := hs.stopped hrun
  exact h heng

/-- R42 (a) says nothing of a running block. -/
theorem stoppedOk_of_running {s : State} (h : s.phase = .running) : s.StoppedOk := fun hrun => absurd h hrun

theorem State.Inv.nch_le {s : State} (hs : s.Inv) : s.params.nch ≤ 8 := by
  obtain ⟨⟨⟨-, h⟩, -⟩, -⟩ := hs.shape
  exact h

theorem State.Inv.levelMax_le {s : State} (hs : s.Inv) : s.params.levelMax ≤ 32767 := by
  obtain ⟨⟨-, ⟨-, h⟩, -⟩, -⟩ := hs.shape
  exact h

/-! ## The parts of a well-formed buffer (R31) -/

theorem Buffer.WellFormed.count_le {nch : Nat} {b : Buffer} (h : b.WellFormed nch) : b.count.toNat ≤ nch := h.1

theorem Buffer.WellFormed.ch_lt {nch : Nat} {b : Buffer} (h : b.WellFormed nch) {e : Entry} (he : e ∈ b.real) :
    e.ch.toNat < nch := by
  obtain ⟨-, -, -, hch, -⟩ := h
  exact hch e he

theorem Buffer.WellFormed.nzMask_lt {nch : Nat} {b : Buffer} (h : b.WellFormed nch) : b.nzMask.toNat < 2 ^ nch := by
  obtain ⟨-, -, -, -, -, -, -, hmask⟩ := h
  exact hmask

/-! ## Reset -/

/-- A channel at 0 that is not fading is in range. -/
theorem zeroChannel_inRange (lm : Nat) : Channel.InRange lm ⟨0, 0, 0, 0⟩ := by
  simp [Channel.InRange]

theorem resetWith_inv {p : Params} (hp : p.Legal) : (State.resetWith p).Inv where
  shape := ⟨hp, by simp [State.resetWith], by simp [State.resetWith], by simp [State.resetWith], Nat.two_pow_pos _⟩
  schedules :=
    ⟨empty_wellFormed _, empty_wellFormed _, empty_wellFormed _, Nat.le_refl _, fun h => by simp [State.resetWith] at h⟩
  stopped := fun _ => ⟨rfl, rfl, rfl, rfl, rfl, rfl⟩
  freq := by simp [State.resetWith, State.FreqOk]
  levels := fun x hx => by
    obtain rfl := List.eq_of_mem_replicate hx
    exact zeroChannel_inRange _
  regs := ⟨by simp [State.resetWith], Nat.zero_le _, by simp [State.resetWith], Nat.two_pow_pos _, Nat.two_pow_pos _⟩

/-! ## Updates outside the invariant's reach -/

theorem State.Inv.raise {s : State} (hs : s.Inv) (e : Event) : (s.raise e).Inv := by
  obtain ⟨hdev, hrange, hbit, hch, hfade⟩ := hs.regs
  exact ⟨hs.shape, hs.schedules, hs.stopped, hs.freq, hs.levels, hdev, hrange, (raise_bit7 s e).trans hbit, hch, hfade⟩

theorem State.Inv.raiseIf {s : State} (hs : s.Inv) (b : Bool) (e : Event) : (s.raiseIf b e).Inv := by
  cases b
  · exact hs
  · exact hs.raise e

theorem State.Inv.sampleZc {s : State} (hs : s.Inv) (zc : Bool) : (s.sampleZc zc).Inv :=
  ⟨hs.shape, hs.schedules, hs.stopped, hs.freq, hs.levels, hs.regs⟩

theorem State.Inv.popInput {s : State} (hs : s.Inv) : s.popInput.Inv := by
  unfold State.popInput
  split <;> exact ⟨hs.shape, hs.schedules, hs.stopped, hs.freq, hs.levels, hs.regs⟩

/-- The read port is outside the invariant. -/
theorem State.Inv.withPort {s : State} (hs : s.Inv) (p : ReadPort) : ({ s with port := p } : State).Inv :=
  ⟨hs.shape, hs.schedules, hs.stopped, hs.freq, hs.levels, hs.regs⟩

theorem State.Inv.resetBlock {s : State} (hs : s.Inv) : s.resetBlock.Inv :=
  have h := resetWith_inv hs.shape.1
  ⟨h.shape, h.schedules, h.stopped, h.freq, h.levels, h.regs⟩

/-! ## Stopping, and a frequency lost or found -/

/-- Stopping the scheduler side keeps the invariant (R116, R226). -/
theorem State.Inv.stopSwitching {s : State} (hs : s.Inv) : s.stopSwitching.Inv where
  shape := by
    obtain ⟨hp, hlen, hdone, hbuf, -⟩ := hs.shape
    exact ⟨hp, hlen, hdone, hbuf, Nat.two_pow_pos _⟩
  schedules := by
    obtain ⟨-, -, hscratch, -⟩ := hs.schedules
    exact ⟨empty_wellFormed _, empty_wellFormed _, hscratch, Nat.le_refl _, fun h => by simp at h⟩
  stopped := fun _ => ⟨rfl, rfl, rfl, rfl, rfl, rfl⟩
  freq := hs.freq
  levels := hs.levels
  regs := hs.regs

/-- A stopped block with no override may lose its frequency, in any phase but `RUNNING`. -/
theorem State.Inv.clearFreq {s : State} (hs : s.Inv) {p : Phase} (hp : p ≠ .running) (hrun : s.phase ≠ .running)
    (hovr : s.mains.freqOvr = false) : ({ s.clearFreq with phase := p } : State).Inv where
  shape := hs.shape
  schedules := hs.schedules
  stopped := fun _ => hs.stopped hrun
  freq := ⟨fun h => absurd h hp, by simp, fun h => by simp [hovr] at h, fun _ => hovr⟩
  levels := hs.levels
  regs := hs.regs

/-- Entering `RUNNING` with a valid frequency keeps the invariant (R117). -/
theorem State.Inv.enterRunning {s : State} (hs : s.Inv) (seeded : Bool) (hf : s.mains.freq ≠ 0#32) :
    (enterRunning seeded s).Inv where
  shape := hs.shape
  schedules := hs.schedules
  stopped := stoppedOk_of_running rfl
  freq := by
    obtain ⟨-, hiff, hovr, -⟩ := hs.freq
    exact ⟨fun _ => hf, hiff, hovr, fun h => by cases h⟩
  levels := hs.levels
  regs := hs.regs

/-! ## The edge -/

theorem State.Inv.acceptEdge {s : State} (hs : s.Inv) (hrun : s.phase = .running) : (acceptEdge s).Inv :=
  ⟨hs.shape, hs.schedules, stoppedOk_of_running hrun, hs.freq, hs.levels, hs.regs⟩

theorem State.Inv.seedEdge {s : State} (hs : s.Inv) : (seedEdge s).Inv :=
  ⟨hs.shape, hs.schedules, hs.stopped, hs.freq, hs.levels, hs.regs⟩

theorem State.Inv.countRejected {s : State} (hs : s.Inv) (el : Nat) : (countRejected el s).Inv :=
  ⟨hs.shape, hs.schedules, hs.stopped, hs.freq, hs.levels, hs.regs⟩

/-- Losing synchronisation keeps an override and drops a measured frequency (R116). -/
theorem State.Inv.syncLost {s : State} (hs : s.Inv) : (syncLost s).Inv := by
  have hstop : ({ s with sync.oosCnt := s.sync.invalidCnt }.stopSwitching).Inv :=
    State.Inv.stopSwitching ⟨hs.shape, hs.schedules, hs.stopped, hs.freq, hs.levels, hs.regs⟩
  obtain ⟨-, hiff, hovr, -⟩ := hs.freq
  unfold Machine.syncLost
  dsimp only
  refine State.Inv.raise ?_ _
  split
  next => exact ⟨hstop.shape, hstop.schedules, fun _ => ⟨rfl, rfl, rfl, rfl, rfl, rfl⟩,
      ⟨fun h => by simp at h, hiff, hovr, fun h => by simp at h⟩, hstop.levels, hstop.regs⟩
  next hno => exact ⟨hstop.shape, hstop.schedules, fun _ => ⟨rfl, rfl, rfl, rfl, rfl, rfl⟩,
      ⟨fun h => by simp at h, by simp, fun h => absurd h hno, fun h => by simp at h⟩, hstop.levels, hstop.regs⟩

theorem State.Inv.storeDelta {s : State} (hs : s.Inv) : (storeDelta s).Inv where
  shape := by
    obtain ⟨hp, hlen, hdone, hbuf, hout⟩ := hs.shape
    refine ⟨hp, hlen, hdone, ?_, hout⟩
    simp only [Machine.storeDelta]
    split
    · rw [List.length_set]; exact hbuf
    · exact hbuf
  schedules := hs.schedules
  stopped := hs.stopped
  freq := hs.freq
  levels := hs.levels
  regs := hs.regs

/-- A failed pass ends in `IDLE` (R205, R206). -/
theorem State.Inv.measFail {s : State} (hs : s.Inv) (hmeas : s.phase = .measuring) : (measFail s).Inv := by
  obtain ⟨-, -, -, hno⟩ := hs.freq
  exact (hs.clearFreq (p := .idle) (by simp) (by simp [hmeas]) (hno hmeas)).raise _

/-- A pass that ends with a usable frequency enters `RUNNING` with it (R205). -/
theorem State.Inv.passDone {s : State} (hs : s.Inv) {f : Nat} (hus : usable s.params f = true) :
    (passDone f s).Inv := by
  obtain ⟨hf, hh1, hh2⟩ := usable_iff.mp hus
  have hfreq : freqWord f ≠ 0#32 := freqWord_ne_zero hf
  have hticks : BitVec.ofNat 16 (hOf s.params f) ≠ 0#16 := hTicks_ne_zero hh1 hh2
  obtain ⟨-, -, -, hno⟩ := hs.freq
  have hset : (s.setFreq (freqWord f) (hOf s.params f)).Inv :=
    ⟨hs.shape, hs.schedules, hs.stopped,
      ⟨fun _ => hfreq, ⟨fun h => absurd h hticks, fun h => absurd h hfreq⟩, fun _ => hfreq, hno⟩, hs.levels, hs.regs⟩
  exact (hset.raise _).enterRunning true hfreq

theorem State.Inv.zcEdge {s t : State} (hs : s.Inv) (h : EdgeOutcome s t) : t.Inv := by
  cases h with
  | ignored => exact hs
  | accepted hrun => exact hs.acceptEdge hrun
  | seeded => exact hs.seedEdge
  | rejected el => exact hs.countRejected el
  | lost el => exact (hs.countRejected el).syncLost
  | stored => exact hs.storeDelta
  | failed hmeas => exact hs.storeDelta.measFail hmeas
  | measured f _ hus => exact hs.storeDelta.passDone hus

/-! ## `START` and `SETFREQ` -/

theorem State.Inv.beginSession {s : State} (hs : s.Inv) : (beginSession s).Inv :=
  State.Inv.stopSwitching ⟨hs.shape, hs.schedules, hs.stopped, hs.freq, hs.levels, hs.regs⟩

/-- Neither phase in which `START` and `SETFREQ` are accepted is `RUNNING` or `MEASURING` (R221). -/
theorem not_active_of_stopped {p : Phase} (h : p = .idle ∨ p = .halted) : p ≠ .running ∧ p ≠ .measuring := by
  rcases h with rfl | rfl <;> simp

theorem State.Inv.start {s t : State} (hs : s.Inv) (h : StartOutcome s t) : t.Inv := by
  cases h with
  | refused => exact hs.raise _
  | override _ hovr =>
    obtain ⟨-, -, hvalid, -⟩ := hs.freq
    exact hs.beginSession.enterRunning false (hvalid hovr)
  | measure hstop hno =>
    have hpass := hs.beginSession.clearFreq (p := .measuring) (by simp) (not_active_of_stopped hstop).1 hno
    exact ⟨hpass.shape, hpass.schedules, hpass.stopped, hpass.freq, hpass.levels, hpass.regs⟩

theorem State.Inv.setfreq {imm : Word} {s t : State} (hs : s.Inv) (h : SetfreqOutcome imm s t) : t.Inv := by
  cases h with
  | refused => exact hs.raise _
  | removed hstop =>
    obtain ⟨hrun, hmeas⟩ := not_active_of_stopped hstop
    have hclear : ({ s.clearFreq with mains.freqOvr := false } : State).Inv :=
      ⟨hs.shape, hs.schedules, hs.stopped,
        ⟨fun h => absurd h hrun, by simp, fun h => by simp at h, fun h => absurd h hmeas⟩, hs.levels, hs.regs⟩
    exact hclear.raise _
  | set hstop hus =>
    obtain ⟨hrun, hmeas⟩ := not_active_of_stopped hstop
    obtain ⟨hf, hh1, hh2⟩ := usable_iff.mp hus
    have hfreq : imm ≠ 0#32 := by rintro rfl; simp at hf
    have hticks : BitVec.ofNat 16 (hOf s.params imm.toNat) ≠ 0#16 := hTicks_ne_zero hh1 hh2
    have hset : ({ s.setFreq imm (hOf s.params imm.toNat) with mains.freqOvr := true } : State).Inv :=
      ⟨hs.shape, hs.schedules, hs.stopped,
        ⟨fun h => absurd h hrun, ⟨fun h => absurd h hticks, fun h => absurd h hfreq⟩, fun _ => hfreq,
          fun h => absurd h hmeas⟩, hs.levels, hs.regs⟩
    exact hset.raise _

/-! ## The other commands -/

/-- A level command whose procedure keeps one channel in range keeps the invariant (R184). -/
theorem State.Inv.onChannels {s : State} (hs : s.Inv) (ch : Byte) {f : Channel → Channel}
    (hf : ∀ x, x.InRange s.params.levelMax → (f x).InRange s.params.levelMax) : (onChannels ch f s).Inv := by
  rcases onChannels_cases ch f s with ⟨sel, h⟩ | h <;> rw [h]
  · obtain ⟨hp, hlen, hdone, hbuf, hout⟩ := hs.shape
    refine ⟨⟨hp, (mapSelected_length _ _ _).trans hlen, hdone, hbuf, hout⟩, hs.schedules, hs.stopped, hs.freq, ?_, hs.regs⟩
    intro y hy
    rcases mem_mapSelected hy with hold | ⟨x, hx, rfl⟩
    · exact hs.levels y hold
    · exact hf x (hs.levels x hx)
  · exact hs.raise _

/-- The channels' completion mask only loses bits by an acknowledgement (R227). -/
theorem State.Inv.acknowledge {s : State} (hs : s.Inv) (mask : Byte) : (s.acknowledge mask).Inv := by
  obtain ⟨hdev, hrange, hbit, hch, hfade⟩ := hs.regs
  refine ⟨hs.shape, hs.schedules, hs.stopped, hs.freq, hs.levels, hdev, hrange, ?_, hch, ?_⟩
  · rw [State.acknowledge_tele_evtPending, BitVec.getLsbD_and, hbit, Bool.false_and]
  · rw [State.acknowledge_tele_fadeDone]
    split
    · exact Nat.two_pow_pos _
    · exact hfade

/-- An accepted write leaves `CFG_SYNC_DEV` and `CFG_RANGE_BEGIN` legal (R37, R229). -/
theorem write_legal {cfg c : CfgRegs} {levelMax : Nat} {n : Byte} {v : Word} (h : cfg.write levelMax n v = some c)
    (hdev : cfg.syncDev.toNat ≤ 100) (hrange : cfg.rangeBegin.toNat ≤ levelMax) :
    c.syncDev.toNat ≤ 100 ∧ c.rangeBegin.toNat ≤ levelMax := by
  unfold CfgRegs.write at h
  split at h
  case h_5 =>
    split at h <;> cases h
    exact ⟨by simp only [BitVec.toNat_setWidth]; omega, hrange⟩
  case h_7 =>
    split at h <;> cases h
    exact ⟨hdev, by simp only [BitVec.toNat_setWidth]; omega⟩
  case h_10 => cases h
  all_goals
    split at h <;> cases h
    exact ⟨hdev, hrange⟩

theorem State.Inv.wreg {reg : Byte} {value : Word} {s t : State} (hs : s.Inv)
    (h : exec (.wreg reg value) s = .next t) : t.Inv := by
  rcases execWreg_outcome h with ⟨c, hw, rfl⟩ | rfl
  · obtain ⟨hdev, hrange, hbit, hch, hfade⟩ := hs.regs
    obtain ⟨hdev', hrange'⟩ := write_legal hw hdev hrange
    exact ⟨hs.shape, hs.schedules, hs.stopped, hs.freq, hs.levels, hdev', hrange', hbit, hch, hfade⟩
  · exact hs.raise _

theorem State.Inv.rreg {reg : Byte} {s t : State} (hs : s.Inv) (h : exec (.rreg reg) s = .next t) : t.Inv := by
  cases hr : s.regRead reg with
  | none => rw [execRreg_unmapped hr] at h; cases h; exact (hs.raise _).withPort _
  | some v => rw [execRreg_mapped hr] at h; cases h; exact hs.withPort _

/-! ## The scheduler -/

/-- A half-wave starts with compare B armed only while an entry remains, and with the pins of the channels alone (R131 to
R135). Compare A matches in a running block only. -/
theorem State.Inv.hwStart {s t : State} (hs : s.Inv) (hen : s.time.cmpaEn = true) (h : exec .hwStart s = .next t) :
    t.Inv := by
  obtain ⟨hp, hlen, hdone, hbuf, -⟩ := hs.shape
  obtain ⟨-, hnext, hscratch, -⟩ := hs.schedules
  have hn := hs.nch_le
  have hcount := hnext.count_le
  have hle : (zeroEntries s.sched.next).length ≤ s.sched.next.count.toNat := by
    rw [zeroEntries_length hnext]; exact passed_le hnext 0
  have hidx : (BitVec.ofNat 4 (zeroEntries s.sched.next).length).toNat = (zeroEntries s.sched.next).length := by
    rw [BitVec.toNat_ofNat, Nat.mod_eq_of_lt (by omega)]
  have hch : ∀ e ∈ zeroEntries s.sched.next, e.ch.toNat < s.params.nch := fun e he =>
    hnext.ch_lt (List.takeWhile_subset _ he)
  cases h
  refine ⟨⟨hp, hlen, hdone, hbuf, toggleAll_lt _ _ _ (maskOf_lt _ _) hch⟩, ⟨hnext, hnext, hscratch, ?_, ?_⟩,
    stoppedOk_of_running (hs.running_of_cmpaEn hen), hs.freq, hs.levels, hs.regs⟩
  · simp only [hidx]; exact hle
  · intro hmore; simp only [hidx]; simpa using hmore

/-- A compare B match moves `IDX` to the end of its group and keeps compare B armed only while an entry remains (R138). -/
theorem State.Inv.hwToggle {s t : State} (hs : s.Inv) (hen : s.time.cmpbEn = true) (h : exec .hwToggle s = .next t) :
    t.Inv := by
  obtain ⟨hp, hlen, hdone, hbuf, hout⟩ := hs.shape
  obtain ⟨hact, hnext, hscratch, -, hleft⟩ := hs.schedules
  have hlt := hleft hen
  have hn := hs.nch_le
  have hcount := hact.count_le
  obtain ⟨j, hij, hj, htake, hgroup, -⟩ := toggleGroup_spec hact hlt
  have hidx : s.sched.idx.toNat + (toggleGroup (s.sched.act.real.drop s.sched.idx.toNat)).length = j := by omega
  have hjw : (BitVec.ofNat 4 j).toNat = j := by rw [BitVec.toNat_ofNat, Nat.mod_eq_of_lt (by omega)]
  have hch : ∀ e ∈ toggleGroup (s.sched.act.real.drop s.sched.idx.toNat), e.ch.toNat < s.params.nch := by
    intro e he
    rw [htake] at he
    exact hact.ch_lt (List.mem_of_mem_drop (List.mem_of_mem_take he))
  change execHwToggle s = .next t at h
  simp only [execHwToggle_more hlt, hidx] at h
  cases h
  refine ⟨⟨hp, hlen, hdone, hbuf, toggleAll_lt _ _ _ hout hch⟩, ⟨hact, hnext, hscratch, ?_, ?_⟩,
    stoppedOk_of_running (hs.running_of_cmpbEn hen), hs.freq, hs.levels, hs.regs⟩
  · simp only [hjw]; exact hj
  · intro hmore
    simp only [hjw]
    by_contra hnot
    simp [hnot] at hmore

/-! ## The engine -/

theorem State.Inv.advanceFades {s : State} (hs : s.Inv) : (advanceFades s).Inv := by
  obtain ⟨hp, hlen, hdone, hbuf, hout⟩ := hs.shape
  obtain ⟨hdev, hrange, hbit, hch, hfade⟩ := hs.regs
  unfold Machine.advanceFades
  refine State.Inv.raiseIf ?_ _ _
  refine ⟨⟨hp, ?_, ?_, hbuf, hout⟩, hs.schedules, hs.stopped, hs.freq, ?_, hdev, hrange, hbit, hch, ?_⟩
  · simp [hlen]
  · simp [hlen, hdone]
  · intro y hy
    obtain ⟨x, hx, rfl⟩ := List.mem_map.mp hy
    exact fadeStep_inRange hs.levelMax_le (hs.levels x hx)
  · exact BitVec.toNat_or .. ▸ Nat.or_lt_two_pow hfade (maskOf_lt _ _)

/-- The engine runs in a running block only, and `calc()` returns a well-formed buffer (R156, R180). -/
theorem State.Inv.engCalc {s t : State} (hs : s.Inv) (hen : s.eng = .calcPending) (h : exec .engCalc s = .next t) :
    t.Inv := by
  have hrun : s.phase = .running := hs.running_of_busy (by simp [hen])
  have hadv := hs.advanceFades
  have hbuf := calcSchedule_wellFormed hadv.nch_le
  have hrz := hadv.raiseIf (calcSchedule (Machine.advanceFades s)).2 .cfgErr
  obtain ⟨hact, hnext, -, hidx⟩ := hrz.schedules
  cases h
  refine ⟨hrz.shape, ⟨hact, hnext, ?_, hidx⟩, stoppedOk_of_running ?_, hrz.freq, hrz.levels, hrz.regs⟩
  · simpa using hbuf
  · rw [advanceFades_frame]; simpa using hrun

/-- The published schedule is the well-formed `SCRATCH` (R181). -/
theorem State.Inv.engPublish {s t : State} (hs : s.Inv) (hen : s.eng = .publishPending)
    (h : exec .engPublish s = .next t) : t.Inv := by
  have hrun : s.phase = .running := hs.running_of_busy (by simp [hen])
  have hrz := hs.raiseIf (s.sched.scratch.nzMask != s.tele.chState) .chState
  obtain ⟨hact, -, hscratch, hidx⟩ := hrz.schedules
  obtain ⟨hdev, hrange, hbit, -, hfade⟩ := hrz.regs
  cases h
  refine ⟨hrz.shape, ⟨hact, ?_, hscratch, hidx⟩, stoppedOk_of_running ?_, hrz.freq, hrz.levels,
    hdev, hrange, hbit, ?_, hfade⟩
  · simpa using hscratch
  · simpa using hrun
  · simpa using hscratch.nzMask_lt

/-! ## Every operation that the tick runs -/

theorem exec_inv {i : Instr} {s t : State} (hen : Enabled i s) (hs : s.Inv) (h : exec i s = .next t) : t.Inv := by
  obtain ⟨hstart, htoggle, htimeout, hcalc, hpublish⟩ := hen
  have hlm := hs.levelMax_le
  cases i with
  | setlvl ch level => cases h; exact hs.onChannels ch fun _ _ => atLevel_inRange hlm (norm_le _ _)
  | fade ch dur fromLvl toLvl => cases h; exact hs.onChannels ch fun _ => fadeOne_inRange hlm
  | fadea ch dur fromLvl toLvl => cases h; exact hs.onChannels ch fun _ => fadeOne_inRange hlm
  | setmode mode => cases h; exact ⟨hs.shape, hs.schedules, hs.stopped, hs.freq, hs.levels, hs.regs⟩
  | setfreq imm => exact hs.setfreq (execSetfreq_outcome h)
  | start => exact hs.start (execStart_outcome h)
  | ack mask => cases h; exact hs.acknowledge mask
  | wreg reg value => exact hs.wreg h
  | rreg reg => exact hs.rreg h
  | tick => cases h; exact ⟨hs.shape, hs.schedules, hs.stopped, hs.freq, hs.levels, hs.regs⟩
  | hwStart => exact hs.hwStart (hstart rfl).1 h
  | hwToggle => exact hs.hwToggle (htoggle rfl).1 h
  | zcEdge => exact hs.zcEdge (execZcEdge_outcome h)
  | measTimeout => cases h; exact hs.measFail (htimeout rfl).1
  | engCalc => exact hs.engCalc (hcalc rfl) h
  | engPublish => exact hs.engPublish (hpublish rfl) h

end Sys2Proof.Machine

open Sys2Proof.Machine

/-- Settles O11: every operation that the tick runs keeps the invariant, and so do the sampling of the inputs and reset. -/
theorem stepKeepsTheInvariant : Obligations.StepKeepsTheInvariant := fun _ _ hs h =>
  step_induction (P := State.Inv) (fun _ _ _ hen hp hx => exec_inv hen hp hx) (fun _ zc hp => hp.sampleZc zc)
    (fun _ hp => hp.popInput) (fun _ hp => hp.resetBlock) (fun _ hp => hp.withPort _) (fun _ hp => hp.raise _) hs h

/-- Settles O10: part by part, from the reset values. -/
theorem resetSatisfiesTheInvariant : Obligations.ResetSatisfiesTheInvariant := fun _ => resetWith_inv
end

section
/-! What each operation writes: the fields it may change, named once per operation, and from that the rules of 10_state.md
R21 to R38 on the writers of each register. -/

namespace Sys2Proof.Machine

/-! ## The fields an operation may change -/

/-- The state `s` with the fields that the operation may write taken from `t`, and no others. -/
def overwrite (s t : State) : Instr → State
  | .setlvl _ _ => { s with chans := t.chans, tele.evtPending := t.tele.evtPending }
  | .fade _ _ _ _ => { s with chans := t.chans, tele.evtPending := t.tele.evtPending }
  | .fadea _ _ _ _ => { s with chans := t.chans, tele.evtPending := t.tele.evtPending }
  | .setmode _ => { s with cfg := t.cfg }
  | .setfreq _ => { s with mains := t.mains, tele.evtPending := t.tele.evtPending }
  | .start =>
    { s with
      phase := t.phase
      time.cmpaEn := t.time.cmpaEn
      time.cmpbEn := t.time.cmpbEn
      sync.lastEdgeValid := t.sync.lastEdgeValid
      sync.invalidCnt := t.sync.invalidCnt
      sync.hwMin := t.sync.hwMin
      sync.hwMax := t.sync.hwMax
      mains.freq := t.mains.freq
      mains.hTicks := t.mains.hTicks
      out := t.out
      sched.act := t.sched.act
      sched.next := t.sched.next
      sched.idx := t.sched.idx
      eng := t.eng
      meas.cnt := t.meas.cnt
      meas.seen := t.meas.seen
      meas.t0 := t.meas.t0
      tele.evtPending := t.tele.evtPending }
  | .ack _ => { s with tele.evtPending := t.tele.evtPending, tele.fadeDone := t.tele.fadeDone }
  | .wreg _ _ => { s with cfg := t.cfg, tele.evtPending := t.tele.evtPending }
  | .rreg _ => { s with port := t.port, tele.evtPending := t.tele.evtPending }
  | .tick => { s with time.now := t.time.now, time.hwTcnt := t.time.hwTcnt }
  | .hwStart =>
    { s with
      time.hwTcnt := t.time.hwTcnt
      time.cmpaEn := t.time.cmpaEn
      time.ocrb := t.time.ocrb
      time.cmpbEn := t.time.cmpbEn
      sched.act := t.sched.act
      sched.idx := t.sched.idx
      out := t.out
      eng := t.eng }
  | .hwToggle =>
    { s with
      time.ocrb := t.time.ocrb
      time.cmpbEn := t.time.cmpbEn
      sched.idx := t.sched.idx
      out := t.out }
  | .zcEdge =>
    { s with
      phase := t.phase
      time.ocra := t.time.ocra
      time.cmpaEn := t.time.cmpaEn
      time.cmpbEn := t.time.cmpbEn
      sync := { t.sync with zcPrev := s.sync.zcPrev }
      mains.freq := t.mains.freq
      mains.hTicks := t.mains.hTicks
      out := t.out
      sched.act := t.sched.act
      sched.next := t.sched.next
      sched.idx := t.sched.idx
      eng := t.eng
      meas := if s.phase = .measuring then { t.meas with t0 := s.meas.t0 } else s.meas
      tele.evtPending := t.tele.evtPending }
  | .measTimeout =>
    { s with
      phase := t.phase
      mains.freq := t.mains.freq
      mains.hTicks := t.mains.hTicks
      tele.evtPending := t.tele.evtPending }
  | .engCalc =>
    { s with
      chans := t.chans
      sched.scratch := t.sched.scratch
      eng := t.eng
      tele.evtPending := t.tele.evtPending
      tele.fadeDone := t.tele.fadeDone
      tele.fadeDoneLevel := t.tele.fadeDoneLevel }
  | .engPublish =>
    { s with
      sched.next := t.sched.next
      eng := t.eng
      tele.evtPending := t.tele.evtPending
      tele.chState := t.tele.chState }

theorem onChannels_frame (ch : Byte) (f : Channel → Channel) (s : State) : onChannels ch f s =
    { s with chans := (onChannels ch f s).chans, tele.evtPending := (onChannels ch f s).tele.evtPending } := by
  rcases onChannels_cases ch f s with ⟨sel, h⟩ | h
  · rw [h]
  · rw [h]; rfl

theorem zcEdge_frame {s t : State} (h : EdgeOutcome s t) : t = overwrite s t .zcEdge := by
  cases h with
  | ignored hstop => rw [overwrite, if_neg (not_active_of_stopped hstop).2]
  | accepted hrun => rw [overwrite, if_neg (by simp [hrun])]; rfl
  | seeded hrun => rw [overwrite, if_neg (by simp [hrun])]; rfl
  | rejected el hrun => rw [overwrite, if_neg (by simp [hrun])]; rfl
  | lost el hrun => rw [overwrite, if_neg (by simp [hrun]), syncLost_eq]; rfl
  | stored hmeas => rw [overwrite, if_pos hmeas]; rfl
  | failed hmeas => rw [overwrite, if_pos hmeas]; rfl
  | measured f hmeas => rw [overwrite, if_pos hmeas]; rfl

theorem hwToggle_frame {s t : State} (h : exec .hwToggle s = .next t) : t = overwrite s t .hwToggle := by
  change execHwToggle s = .next t at h
  rcases Nat.lt_or_ge s.sched.idx.toNat s.sched.act.count.toNat with hmore | hdone
  · rw [execHwToggle_more hmore] at h; cases h; rfl
  · rw [execHwToggle_done hdone] at h; cases h; rfl

theorem engCalc_frame {s t : State} (h : exec .engCalc s = .next t) : t = overwrite s t .engCalc := by
  cases h
  rw [raiseIf_frame, advanceFades_frame]
  rfl

theorem engPublish_frame {s t : State} (h : exec .engPublish s = .next t) : t = overwrite s t .engPublish := by
  cases h
  rw [raiseIf_frame]
  rfl

/-- No operation changes a field that is not its own. -/
theorem exec_frame {i : Instr} {s t : State} (h : exec i s = .next t) : t = overwrite s t i := by
  cases i with
  | setlvl ch level => cases h; exact onChannels_frame ch _ s
  | fade ch dur fromLvl toLvl => cases h; exact onChannels_frame ch _ s
  | fadea ch dur fromLvl toLvl => cases h; exact onChannels_frame ch _ s
  | setfreq imm => cases execSetfreq_outcome h <;> rfl
  | start => cases execStart_outcome h <;> rfl
  | wreg reg value => rcases execWreg_outcome h with ⟨c, -, rfl⟩ | rfl <;> rfl
  | rreg reg =>
    cases hr : s.regRead reg with
    | none => rw [execRreg_unmapped hr] at h; cases h; rfl
    | some v => rw [execRreg_mapped hr] at h; cases h; rfl
  | hwToggle => exact hwToggle_frame h
  | zcEdge => exact zcEdge_frame (execZcEdge_outcome h)
  | engCalc => exact engCalc_frame h
  | engPublish => exact engPublish_frame h
  | setmode | ack | tick | hwStart | measTimeout => cases h; rfl

end Sys2Proof.Machine

open Sys2Proof.Machine

/-- Settles O56: read off the fields each operation may change. -/
theorem stateIsWrittenOnlyByItsWriters : Obligations.StateIsWrittenOnlyByItsWriters := by
  intro i s t h
  rw [exec_frame h]
  cases i <;> simp [overwrite]

/-- Settles O59: read off the fields each operation may change; for an edge these depend on the phase (R111). -/
theorem controlStateIsWrittenOnlyByItsWriters : Obligations.ControlStateIsWrittenOnlyByItsWriters := by
  intro i s t h
  rw [exec_frame h]
  cases i with
  | zcEdge => by_cases hmeas : s.phase = .measuring <;> simp [overwrite, hmeas]
  | setlvl | fade | fadea | setmode | setfreq | start | ack | wreg | rreg | tick | hwStart | hwToggle | measTimeout
  | engCalc | engPublish => simp [overwrite]
end

section
/-! Events and phases: raising never clears (60_exceptions.md R251), and `PHASE` moves along the arrows of its table
(10_state.md R24). -/

namespace Sys2Proof.Machine

/-! ## Pending events -/

theorem pending_raise_of_pending {s : State} {e f : Event} (h : s.pending e = true) : (s.raise f).pending e = true := by
  simp [h]

theorem pending_raiseIf_of_pending {s : State} {b : Bool} {e f : Event} (h : s.pending e = true) :
    (s.raiseIf b f).pending e = true := by
  simp [State.pending_raiseIf, h]

theorem pending_raise_self (s : State) (e : Event) : (s.raise e).pending e = true := by simp

/-- An edge keeps every pending event (R251). -/
theorem zcEdge_keeps_pending {s t : State} {e : Event} (h : EdgeOutcome s t) (hp : s.pending e = true) :
    t.pending e = true := by
  cases h with
  | ignored | accepted | seeded | rejected | stored => exact hp
  | lost el => exact pending_raise_of_pending (by split <;> exact hp)
  | failed => exact pending_raise_of_pending hp
  | measured f => exact pending_raise_of_pending (s := (storeDelta s).setFreq _ _) hp

/-- Only an acknowledgement clears an event (R251). -/
theorem exec_keeps_pending {i : Instr} {s t : State} {e : Event} (hack : ∀ m, i ≠ .ack m) (h : exec i s = .next t)
    (hp : s.pending e = true) : t.pending e = true := by
  have hlevel : ∀ ch f, (onChannels ch f s).pending e = true := by
    intro ch f
    rcases onChannels_cases ch f s with ⟨sel, h⟩ | h <;> rw [h]
    · exact hp
    · exact pending_raise_of_pending hp
  cases i with
  | setlvl | fade | fadea => cases h; exact hlevel _ _
  | setfreq imm =>
    cases execSetfreq_outcome h with
    | refused => exact pending_raise_of_pending hp
    | removed => exact pending_raise_of_pending hp
    | set => exact pending_raise_of_pending hp
  | start =>
    cases execStart_outcome h with
    | refused => exact pending_raise_of_pending hp
    | override | measure => exact hp
  | ack mask => exact absurd rfl (hack mask)
  | wreg reg value =>
    rcases execWreg_outcome h with ⟨c, -, rfl⟩ | rfl
    · exact hp
    · exact pending_raise_of_pending hp
  | rreg reg =>
    cases hr : s.regRead reg with
    | none => rw [execRreg_unmapped hr] at h; cases h; exact pending_raise_of_pending hp
    | some v => rw [execRreg_mapped hr] at h; cases h; exact hp
  | setmode | tick | hwStart => cases h; exact hp
  | hwToggle => rw [hwToggle_frame h]; exact hp
  | zcEdge => exact zcEdge_keeps_pending (execZcEdge_outcome h) hp
  | measTimeout => cases h; exact pending_raise_of_pending hp
  | engCalc => cases h; exact pending_raiseIf_of_pending (pending_raiseIf_of_pending hp)
  | engPublish => cases h; exact pending_raiseIf_of_pending hp

/-! ## Phases -/

/-- Only `START`, an edge and the timeout write `PHASE` (R24). -/
theorem exec_phase {i : Instr} {s t : State} (h : exec i s = .next t) (hne : t.phase ≠ s.phase) :
    i = .start ∨ i = .zcEdge ∨ i = .measTimeout := by
  obtain ⟨hphase, -⟩ := controlStateIsWrittenOnlyByItsWriters i s t h
  by_contra hno
  simp only [not_or] at hno
  exact hne (hphase hno.2.1 hno.2.2 hno.1)

end Sys2Proof.Machine

open Sys2Proof.Machine

/-- Settles O53: by cases on the operation. -/
theorem onlyAckClearsEvents : Obligations.OnlyAckClearsEvents := fun _ _ _ _ hack h hp => exec_keeps_pending hack h hp

/-- Settles O55: by what each of the three operations that write `PHASE` can do. -/
theorem phaseMovesOnlyAlongItsArrows : Obligations.PhaseMovesOnlyAlongItsArrows := by
  intro i s t htimeout h hne
  rcases exec_phase h hne with rfl | rfl | rfl
  · cases execStart_outcome h with
    | refused => exact absurd rfl hne
    | override hstop hovr => exact .inr (.inl ⟨rfl, hstop, hovr, rfl⟩)
    | measure hstop hno => exact .inl ⟨rfl, hstop, hno, rfl⟩
  · cases execZcEdge_outcome h with
    | ignored | accepted | seeded | rejected | stored => exact absurd rfl hne
    | lost el hrun hlim =>
      refine .inr (.inr (.inr (.inr ⟨rfl, hrun, rfl, pending_raise_self _ _, ?_⟩)))
      rw [syncLost_eq]
      exact hlim
    | failed hmeas => exact .inr (.inr (.inr (.inl ⟨.inl rfl, hmeas, rfl, pending_raise_self _ _⟩)))
    | measured f hmeas =>
      exact .inr (.inr (.inl ⟨rfl, hmeas, rfl, pending_raise_self ((storeDelta s).setFreq _ _) _⟩))
  · cases h
    exact .inr (.inr (.inr (.inl ⟨.inr rfl, htimeout rfl, rfl, pending_raise_self _ _⟩)))
end

section
/-! The read port (10_state.md R38), and the reset values (R43). -/

namespace Sys2Proof.Machine

/-! ## Who writes the read port -/

theorem exec_port {i : Instr} {s t : State} (hread : ∀ n, i ≠ .rreg n) (h : exec i s = .next t) : t.port = s.port := by
  rw [exec_frame h]
  cases i with
  | rreg n => exact absurd rfl (hread n)
  | setlvl | fade | fadea | setmode | setfreq | start | ack | wreg | tick | hwStart | hwToggle | zcEdge | measTimeout
  | engCalc | engPublish => rfl

theorem slot_port {due : Bool} {i : Instr} {s t : State} (hread : ∀ n, i ≠ .rreg n) (h : slot due i s = .next t) :
    t.port = s.port := by
  rcases slot_eq_next.mp h with ⟨-, hx⟩ | ⟨-, rfl⟩
  · exact exec_port hread hx
  · rfl

/-- Slots 1 to 7 leave the read port (R262). -/
theorem eventSlots_port {i : TickInput} {s t : State} (h : eventSlots i s = .next t) : t.port = s.port := by
  obtain ⟨s1, s2, s3, s4, s5, s6, h1, h2, h3, h4, h5, h6, h7⟩ := eventSlots_eq_next.mp h
  calc t.port = s6.port := slot_port (by simp) h7
    _ = s5.port := slot_port (by simp) h6
    _ = s4.port := slot_port (by simp) h5
    _ = s3.port := slot_port (s := s3.sampleZc i.zc) (by simp) h4
    _ = s2.port := slot_port (by simp) h3
    _ = s1.port := slot_port (by simp) h2
    _ = s.port := exec_port (by simp) h1

/-- The read port is not in the register map (R92). -/
theorem regRead_withPort (s : State) (p : ReadPort) (n : Byte) : ({ s with port := p } : State).regRead n = s.regRead n := by
  have hreg : ({ s with port := p } : State).reg = s.reg := by funext r; cases r <;> rfl
  simp only [State.regRead, hreg]

/-! ## Slot 8 and the read port -/

/-- Slot 8 with an accepted `RREG` (R38, R230). -/
theorem commandSlot_accepted_rreg {w : CmdWord} {r : Byte} {v : Word} {s : State} (hdec : decodeCmd w = .ok (.rreg r))
    (hv : s.regRead r = some v) : commandSlot (some w) s = .next { s with port := ⟨v, true⟩ } := by
  rw [commandSlot_of_decodeCmd hdec]
  exact execRreg_mapped (by rw [regRead_withPort]; exact hv)

/-- Slot 8 without an accepted `RREG` clears `RVALID` and keeps `RDATA` (R38, R262). -/
theorem commandSlot_port_of_no_read {cmd : Option CmdWord} {s t : State} (h : commandSlot cmd s = .next t)
    (hno : ∀ w r, cmd = some w → decodeCmd w = .ok (.rreg r) → s.regRead r = none) :
    t.port = ⟨s.port.rdata, false⟩ := by
  rcases commandSlot_eq_next.mp h with ⟨-, rfl⟩ | ⟨w, e, -, -, rfl⟩ | ⟨w, i, hw, hdec, hx⟩
  · rfl
  · rfl
  · by_cases hread : ∃ r, i = .rreg r
    · obtain ⟨r, rfl⟩ := hread
      rw [execRreg_unmapped (by rw [regRead_withPort]; exact hno w r hw hdec)] at hx
      cases hx
      rfl
    · rw [not_exists] at hread
      rw [exec_port hread hx]

/-! ## Reset -/

/-- Every slot of an empty buffer is the sentinel (R31). -/
theorem mem_empty_entry {nch : Nat} {e : Entry} (h : e ∈ (Buffer.empty nch).entry) : e = Entry.sentinel :=
  List.eq_of_mem_replicate h

end Sys2Proof.Machine

open Sys2Proof.Machine

/-- Settles O13: slots 1 to 7 leave the read port, and slot 8 writes it by the command alone. -/
theorem readPortHoldsTheLastAcceptedRead : Obligations.ReadPortHoldsTheLastAcceptedRead := by
  refine ⟨fun s t hrst h => ?_, fun p => ⟨rfl, rfl⟩⟩
  obtain ⟨u, hu⟩ := eventSlots_total s.nextInput s.popInput
  rw [step_eq_commandSlot hrst hu] at h
  have hport : u.port = s.port := by rw [eventSlots_port hu, State.popInput_port]
  refine ⟨u, hu, fun w r v hw hdec hv => ?_, fun hno => ?_⟩
  · rw [hw, commandSlot_accepted_rreg hdec hv] at h
    cases h
    exact ⟨rfl, rfl⟩
  · rw [commandSlot_port_of_no_read h hno, hport]
    exact ⟨rfl, rfl⟩

/-- Settles O8: field by field. -/
theorem resetLeavesTheResetValues : Obligations.ResetLeavesTheResetValues := by
  rintro p s rfl
  refine ⟨⟨rfl, rfl, rfl, rfl, rfl, rfl⟩, rfl, ⟨rfl, rfl, rfl, rfl, rfl, rfl, rfl, rfl⟩, ⟨rfl, rfl, rfl⟩,
    ⟨List.length_replicate, fun x hx => ?channel⟩, rfl, fun b hb => ?buffer, rfl, rfl,
    ⟨rfl, rfl, rfl, List.length_replicate, fun l hl => List.eq_of_mem_replicate hl⟩,
    ⟨rfl, rfl, rfl, rfl, List.length_replicate, fun d hd => List.eq_of_mem_replicate hd⟩,
    ⟨rfl, rfl, rfl, rfl, rfl, rfl, rfl, rfl, rfl⟩, rfl, rfl, rfl⟩
  case channel =>
    obtain rfl := List.eq_of_mem_replicate hx
    exact ⟨rfl, rfl, rfl, rfl⟩
  case buffer =>
    have hempty : b = Buffer.empty p.nch := by rcases hb with rfl | rfl | rfl <;> rfl
    subst hempty
    refine ⟨rfl, rfl, rfl, List.length_replicate, fun e he => ?_⟩
    rw [mem_empty_entry he]
    exact ⟨rfl, rfl⟩
end

section
/-! The wait for compare A (10_state.md R23, 40_zc_synchronizer.md R113): in a running block without edges nothing but the
counter moves towards the match. -/

namespace Sys2Proof.Machine

/-! ## What the wait depends on -/

/-- Two states agree on everything that the wait for compare A depends on. -/
structure SameWait (s t : State) : Prop where
  params : t.params = s.params
  inputs : t.inputs = s.inputs
  zcPrev : t.sync.zcPrev = s.sync.zcPrev
  phase : t.phase = s.phase
  cmpaEn : t.time.cmpaEn = s.time.cmpaEn
  ocra : t.time.ocra = s.time.ocra
  hwTcnt : t.time.hwTcnt = s.time.hwTcnt

theorem SameWait.refl (s : State) : SameWait s s := ⟨rfl, rfl, rfl, rfl, rfl, rfl, rfl⟩

theorem SameWait.trans {s t u : State} (h : SameWait s t) (k : SameWait t u) : SameWait s u :=
  ⟨k.params.trans h.params, k.inputs.trans h.inputs, k.zcPrev.trans h.zcPrev, k.phase.trans h.phase,
    k.cmpaEn.trans h.cmpaEn, k.ocra.trans h.ocra, k.hwTcnt.trans h.hwTcnt⟩

/-- The operations that may move a running block's wait for compare A. -/
def movesWait (i : Instr) : Prop := i = .tick ∨ i = .hwStart ∨ i = .zcEdge ∨ i = .measTimeout

/-- Any other operation leaves the wait of a running block; `START` because it is refused there (R221). -/
theorem exec_sameWait {i : Instr} {s t : State} (hi : ¬ movesWait i) (hrun : s.phase = .running)
    (h : exec i s = .next t) : SameWait s t := by
  have hf := exec_frame h
  cases i with
  | tick | hwStart | zcEdge | measTimeout => simp [movesWait] at hi
  | start =>
    cases execStart_outcome h with
    | refused => exact ⟨rfl, rfl, rfl, rfl, rfl, rfl, rfl⟩
    | override hstop | measure hstop => exact absurd hrun (not_active_of_stopped hstop).1
  | setlvl | fade | fadea | setmode | setfreq | ack | wreg | rreg | hwToggle | engCalc | engPublish =>
    rw [hf]; exact ⟨rfl, rfl, rfl, rfl, rfl, rfl, rfl⟩

theorem slot_sameWait {due : Bool} {i : Instr} {s t : State} (hi : ¬ movesWait i) (hrun : s.phase = .running)
    (h : slot due i s = .next t) : SameWait s t := by
  rcases slot_eq_next.mp h with ⟨-, hx⟩ | ⟨-, rfl⟩
  · exact exec_sameWait hi hrun hx
  · exact .refl s

/-- A sample equal to the last one is no edge (R110). -/
theorem edgeSlot_sameWait {zc : Bool} {s t : State} (hzc : normSample s.params zc = s.sync.zcPrev)
    (h : edgeSlot zc s = .next t) : SameWait s t := by
  have hno : edgeSeen s zc = false := by rw [edgeSeen, hzc]; cases s.sync.zcPrev <;> rfl
  rcases slot_eq_next.mp h with ⟨hdue, -⟩ | ⟨-, rfl⟩
  · simp [hno] at hdue
  · exact ⟨rfl, rfl, hzc, rfl, rfl, rfl, rfl⟩

/-- A running block has no measurement to time out (R206). -/
theorem timeoutSlot_sameWait {s t : State} (hrun : s.phase = .running)
    (h : slot (timeoutDue s) .measTimeout s = .next t) : SameWait s t := by
  rcases slot_eq_next.mp h with ⟨hdue, -⟩ | ⟨-, rfl⟩
  · have hmeas := (timeoutDue_iff.mp hdue).1
    simp [hrun] at hmeas
  · exact .refl s

/-- A command moves no wait: it is no event operation (R87). -/
theorem decodeCmd_not_movesWait {w : CmdWord} {i : Instr} (h : decodeCmd w = .ok i) : ¬ movesWait i := by
  unfold decodeCmd checked at h
  split at h
  case h_10 => cases h
  all_goals
    split at h <;> cases h
    simp [movesWait]

theorem commandSlot_sameWait {cmd : Option CmdWord} {s t : State} (hrun : s.phase = .running)
    (h : commandSlot cmd s = .next t) : SameWait s t := by
  have hclear : SameWait s { s with port.rvalid := false } := ⟨rfl, rfl, rfl, rfl, rfl, rfl, rfl⟩
  rcases commandSlot_eq_next.mp h with ⟨-, rfl⟩ | ⟨w, e, -, -, rfl⟩ | ⟨w, i, -, hdec, hx⟩
  · exact hclear
  · exact ⟨rfl, rfl, rfl, rfl, rfl, rfl, rfl⟩
  · exact hclear.trans (exec_sameWait (decodeCmd_not_movesWait hdec) hrun hx)

/-! ## A tick without an edge -/

/-- In a running block, a tick without an edge moves the wait by `TICK` and `HW_START` alone: slots 3 to 8 leave it. -/
theorem tick_sameWait {i : TickInput} {s u t : State} (hrun : s.phase = .running)
    (hzc : normSample s.params i.zc = s.sync.zcPrev) (hu : eventSlots i s = .next u)
    (ht : commandSlot i.cmd u = .next t) :
    ∃ s1 s2, exec .tick s = .next s1 ∧ slot (startDue s1) .hwStart s1 = .next s2 ∧ SameWait s2 t := by
  obtain ⟨s1, s2, s3, s4, s5, s6, h1, h2, h3, h4, h5, h6, h7⟩ := eventSlots_eq_next.mp hu
  refine ⟨s1, s2, h1, h2, ?_⟩
  have hstart : s2.params = s.params ∧ s2.sync = s.sync ∧ s2.phase = s.phase := by
    cases h1
    rcases slot_eq_next.mp h2 with ⟨-, hx⟩ | ⟨-, rfl⟩
    · cases hx; exact ⟨rfl, rfl, rfl⟩
    · exact ⟨rfl, rfl, rfl⟩
  obtain ⟨hparams, hsync, hphase⟩ := hstart
  have r2 : s2.phase = .running := hphase.trans hrun
  have w3 : SameWait s2 s3 := slot_sameWait (by simp [movesWait]) r2 h3
  have w4 : SameWait s2 s4 := w3.trans (edgeSlot_sameWait (by rw [w3.params, w3.zcPrev, hparams, hsync, hzc]) h4)
  have w5 : SameWait s2 s5 := w4.trans (timeoutSlot_sameWait (w4.phase.trans r2) h5)
  have w6 : SameWait s2 s6 := w5.trans (slot_sameWait (by simp [movesWait]) (w5.phase.trans r2) h6)
  have w7 : SameWait s2 u := w6.trans (slot_sameWait (by simp [movesWait]) (w6.phase.trans r2) h7)
  exact w7.trans (commandSlot_sameWait (w7.phase.trans r2) ht)

/-! ## Compare A armed -/

/-- A running block with compare A armed `d` ticks ahead, and at least `d` ticks to come without reset or edge. -/
structure ArmedIn (d : Nat) (s : State) : Prop where
  running : s.phase = .running
  armed : s.time.cmpaEn = true
  ahead : s.time.ocra = s.time.hwTcnt + BitVec.ofNat 16 d
  enough : d ≤ s.inputs.length
  quiet : ∀ i ∈ s.inputs, i.rst = false ∧ Bool.xor i.zc s.params.zcPolInv = s.sync.zcPrev

/-- One step of an armed block: its first sample is used, and slots 1 and 2 alone move the wait. -/
theorem step_of_armedIn {d : Nat} {s : State} (h : ArmedIn (d + 1) s) :
    ∃ i rest s1 s2 t, s.inputs = i :: rest ∧ exec .tick { s with inputs := rest } = .next s1 ∧
      slot (startDue s1) .hwStart s1 = .next s2 ∧ SameWait s2 t ∧ step s = .next t := by
  obtain ⟨i, rest, hin⟩ := List.exists_cons_of_length_pos (Nat.lt_of_lt_of_le d.succ_pos h.enough)
  obtain ⟨hrst, hzc⟩ := h.quiet i (by simp [hin])
  obtain ⟨u, hu⟩ := eventSlots_total s.nextInput s.popInput
  obtain ⟨t, ht⟩ := commandSlot_total s.nextInput.cmd u
  have hstep : step s = .next t := by
    rw [step_eq_commandSlot (by rw [nextInput_cons hin]; exact hrst) hu, ht]
  rw [nextInput_cons hin, popInput_cons hin] at hu
  rw [nextInput_cons hin] at ht
  obtain ⟨s1, s2, h1, h2, hw⟩ := tick_sameWait (s := { s with inputs := rest }) h.running hzc hu ht
  exact ⟨i, rest, s1, s2, t, hin, h1, h2, hw, hstep⟩

/-- With more than one tick to go, a step brings the match one tick nearer (R130, R23). -/
theorem step_armedIn {d : Nat} {s : State} (hd : 1 ≤ d) (hmax : d + 1 ≤ 65535) (h : ArmedIn (d + 1) s) :
    ∃ t, step s = .next t ∧ ArmedIn d t ∧ t.time.ocra = s.time.ocra ∧ t.time.hwTcnt = s.time.hwTcnt + 1#16 := by
  obtain ⟨i, rest, s1, s2, t, hin, h1, h2, hw, hstep⟩ := step_of_armedIn h
  have hahead := h.ahead
  have hlater : s.time.hwTcnt + 1#16 ≠ s.time.ocra := by
    intro he
    rw [hahead] at he
    have := congrArg BitVec.toNat he
    simp only [BitVec.toNat_add, BitVec.toNat_ofNat] at this
    omega
  cases h1
  rcases slot_eq_next.mp h2 with ⟨hdue, -⟩ | ⟨-, rfl⟩
  · exact absurd (startDue_iff.mp hdue).2 hlater
  · refine ⟨t, hstep, ⟨hw.phase.trans h.running, hw.cmpaEn.trans h.armed, ?_, ?_, ?_⟩, hw.ocra, hw.hwTcnt⟩
    · rw [hw.ocra, hw.hwTcnt]
      change s.time.ocra = s.time.hwTcnt + 1#16 + BitVec.ofNat 16 d
      rw [hahead, Nat.add_comm d 1, BitVec.ofNat_add, BitVec.add_assoc]
    · have := h.enough
      rw [hin, List.length_cons] at this
      rw [hw.inputs]
      exact Nat.le_of_succ_le_succ this
    · intro j hj
      rw [hw.inputs] at hj
      rw [hw.params, hw.zcPrev]
      exact h.quiet j (by rw [hin]; exact List.mem_cons_of_mem _ hj)

/-- With one tick to go, compare A matches and `HW_START` runs (R131). -/
theorem step_armedIn_last {s : State} (h : ArmedIn 1 s) :
    ∃ t, step s = .next t ∧ t.time.cmpaEn = false ∧ t.time.hwTcnt = 0#16 := by
  obtain ⟨i, rest, s1, s2, t, -, h1, h2, hw, hstep⟩ := step_of_armedIn h
  have hdue : startDue s1 = true := startDue_iff.mpr (by cases h1; exact ⟨h.armed, h.ahead.symm⟩)
  rw [slot, if_pos hdue] at h2
  cases h2
  exact ⟨t, hstep, hw.cmpaEn, hw.hwTcnt⟩

/-! ## A number of steps -/

theorem steps_succ {s t : State} (h : step s = .next t) (n : Nat) : Spec.steps (n + 1) s = Spec.steps n t := by
  rw [Spec.steps, h, andThen_next]

/-- Before the match, compare A stays armed and the counter advances by one per step. -/
theorem steps_armedIn {d : Nat} (hd : 1 ≤ d) (k : Nat) {s : State} (hmax : d + k ≤ 65535) (h : ArmedIn (d + k) s) :
    ∃ t, Spec.steps k s = .next t ∧ ArmedIn d t ∧ t.time.ocra = s.time.ocra ∧
      t.time.hwTcnt = s.time.hwTcnt + BitVec.ofNat 16 k := by
  induction k generalizing s with
  | zero => exact ⟨s, rfl, h, rfl, by simp⟩
  | succ k ih =>
    obtain ⟨u, hu, harm, hocra, htcnt⟩ := step_armedIn (d := d + k) (by omega) hmax h
    obtain ⟨t, ht, hleft, hocra', htcnt'⟩ := ih (by omega) harm
    refine ⟨t, (steps_succ hu k).trans ht, hleft, hocra'.trans hocra, ?_⟩
    rw [htcnt', htcnt, Nat.add_comm k 1, BitVec.ofNat_add, BitVec.add_assoc]

/-- The match comes in the last of the `d` steps. -/
theorem steps_armedIn_all (d : Nat) {s : State} (hmax : d + 1 ≤ 65535) (h : ArmedIn (d + 1) s) :
    ∃ t, Spec.steps (d + 1) s = .next t ∧ t.time.cmpaEn = false ∧ t.time.hwTcnt = 0#16 := by
  induction d generalizing s with
  | zero =>
    obtain ⟨t, ht, hoff⟩ := step_armedIn_last h
    exact ⟨t, steps_succ ht 0, hoff⟩
  | succ d ih =>
    obtain ⟨u, hu, harm, -⟩ := step_armedIn (by omega) hmax h
    obtain ⟨t, ht, hoff⟩ := ih (by omega) harm
    exact ⟨t, (steps_succ hu _).trans ht, hoff⟩

end Sys2Proof.Machine

open Sys2Proof.Machine

/-- Settles O28: each step before the match brings it one tick nearer, and the last one runs `HW_START`. -/
theorem armedStartRunsAfterExactlyTheDelay : Obligations.ArmedStartRunsAfterExactlyTheDelay := by
  intro s d hrun hen hd hmax hahead hlen hquiet
  have harm : ArmedIn d s := ⟨hrun, hen, hahead, hlen, hquiet⟩
  constructor
  · intro k hk
    have hsplit : d - k + k = d := Nat.sub_add_cancel (Nat.le_of_lt hk)
    obtain ⟨t, ht, hleft, hocra, htcnt⟩ := steps_armedIn (d := d - k) (by omega) k (by omega) (by rwa [hsplit])
    exact ⟨t, ht, hleft.armed, hocra, htcnt⟩
  · obtain ⟨n, rfl⟩ := Nat.exists_eq_add_of_le' hd
    exact steps_armedIn_all n hmax harm
end

section
/-! The double-buffered schedule (20_memory.md R70, R71): only `HW_START` copies into `ACT` and only `ENG_PUBLISH` into `NEXT`,
each a whole buffer; every other operation keeps a buffer or empties it. -/

namespace Sys2Proof.Machine

/-! ## Buffers that are kept or emptied -/

/-- From `s` to `t` the buffer that `buf` names is kept or emptied (R31). -/
structure KeptOrEmptied (buf : Schedules → Buffer) (s t : State) : Prop where
  params : t.params = s.params
  buffer : buf t.sched = buf s.sched ∨ buf t.sched = Buffer.empty s.params.nch

theorem KeptOrEmptied.of_sched_eq {buf : Schedules → Buffer} {s t : State} (hparams : t.params = s.params)
    (hsched : t.sched = s.sched) : KeptOrEmptied buf s t := ⟨hparams, .inl (by rw [hsched])⟩

theorem KeptOrEmptied.trans {buf : Schedules → Buffer} {s t u : State} (h : KeptOrEmptied buf s t)
    (k : KeptOrEmptied buf t u) : KeptOrEmptied buf s u := by
  refine ⟨k.params.trans h.params, ?_⟩
  rcases k.buffer with hkept | hempty
  · rw [hkept]; exact h.buffer
  · rw [hempty, h.params]; exact .inr rfl

/-! ## One operation -/

theorem exec_params {i : Instr} {s t : State} (h : exec i s = .next t) : t.params = s.params :=
  (stateIsWrittenOnlyByItsWriters i s t h).1

/-- Only `ENG_CALC` writes `SCRATCH` (R180). -/
theorem exec_scratch {i : Instr} {s t : State} (hi : i ≠ .engCalc) (h : exec i s = .next t) :
    t.sched.scratch = s.sched.scratch := by
  obtain ⟨-, -, -, -, -, -, -, -, -, -, -, -, hscratch, -⟩ := stateIsWrittenOnlyByItsWriters i s t h
  exact hscratch hi

/-- An edge and `START` keep `ACT` and `NEXT`, or empty both: at a loss of synchronisation (R116), and when a session
begins (R226). -/
theorem exec_act_next {i : Instr} {s t : State} (hi : i = .zcEdge ∨ i = .start) (h : exec i s = .next t) :
    (t.sched.act = s.sched.act ∧ t.sched.next = s.sched.next) ∨
      (t.sched.act = Buffer.empty s.params.nch ∧ t.sched.next = Buffer.empty s.params.nch) := by
  rcases hi with rfl | rfl
  · cases execZcEdge_outcome h with
    | lost el => rw [syncLost_eq]; exact .inr ⟨rfl, rfl⟩
    | ignored | accepted | seeded | rejected | stored | failed | measured => exact .inl ⟨rfl, rfl⟩
  · cases execStart_outcome h with
    | refused => exact .inl ⟨rfl, rfl⟩
    | override | measure => exact .inr ⟨rfl, rfl⟩

/-- Only `HW_START` gives `ACT` another content than the empty one (R132). -/
theorem exec_act {i : Instr} {s t : State} (hi : i ≠ .hwStart) (h : exec i s = .next t) :
    KeptOrEmptied Schedules.act s t := by
  refine ⟨exec_params h, ?_⟩
  by_cases hempties : i = .zcEdge ∨ i = .start
  · exact (exec_act_next hempties h).imp And.left And.left
  · obtain ⟨hedge, hstart⟩ := not_or.mp hempties
    obtain ⟨-, -, -, -, -, -, -, -, -, -, hact, -⟩ := stateIsWrittenOnlyByItsWriters i s t h
    exact .inl (hact hi hedge hstart)

/-- Only `ENG_PUBLISH` gives `NEXT` another content than the empty one (R181). -/
theorem exec_next {i : Instr} {s t : State} (hi : i ≠ .engPublish) (h : exec i s = .next t) :
    KeptOrEmptied Schedules.next s t := by
  refine ⟨exec_params h, ?_⟩
  by_cases hempties : i = .zcEdge ∨ i = .start
  · exact (exec_act_next hempties h).imp And.right And.right
  · obtain ⟨hedge, hstart⟩ := not_or.mp hempties
    obtain ⟨-, -, -, -, -, -, -, -, -, -, -, hnext, -⟩ := stateIsWrittenOnlyByItsWriters i s t h
    exact .inl (hnext hi hedge hstart)

/-! ## One slot -/

theorem slot_keptOrEmptied {buf : Schedules → Buffer} {due : Bool} {i : Instr} {s t : State}
    (hexec : exec i s = .next t → KeptOrEmptied buf s t) (h : slot due i s = .next t) : KeptOrEmptied buf s t := by
  rcases slot_eq_next.mp h with ⟨-, hx⟩ | ⟨-, rfl⟩
  · exact hexec hx
  · exact .of_sched_eq rfl rfl

/-- A slot of any operation but `HW_START`. -/
theorem slot_act {due : Bool} {i : Instr} {s t : State} (hi : i ≠ .hwStart) (h : slot due i s = .next t) :
    KeptOrEmptied Schedules.act s t := slot_keptOrEmptied (exec_act hi) h

/-- A slot of any operation but `ENG_PUBLISH`. -/
theorem slot_next {due : Bool} {i : Instr} {s t : State} (hi : i ≠ .engPublish) (h : slot due i s = .next t) :
    KeptOrEmptied Schedules.next s t := slot_keptOrEmptied (exec_next hi) h

/-- Slot 4; the sampling of `ZC` before it changes no buffer (R110). -/
theorem edgeSlot_act {zc : Bool} {s t : State} (h : edgeSlot zc s = .next t) : KeptOrEmptied Schedules.act s t :=
  have hsample : KeptOrEmptied Schedules.act s (s.sampleZc zc) := .of_sched_eq rfl rfl
  hsample.trans (slot_act (by simp) h)

theorem edgeSlot_next {zc : Bool} {s t : State} (h : edgeSlot zc s = .next t) : KeptOrEmptied Schedules.next s t :=
  have hsample : KeptOrEmptied Schedules.next s (s.sampleZc zc) := .of_sched_eq rfl rfl
  hsample.trans (slot_next (by simp) h)

/-- Slots 1 and 2: `ACT` changes only to `NEXT`, and only where compare A matches the advanced counter (R130, R132). -/
theorem startSlot_act {s s1 s2 : State} (h1 : exec .tick s = .next s1)
    (h2 : slot (startDue s1) .hwStart s1 = .next s2) : s2.params = s.params ∧
      (s2.sched.act = s.sched.act ∨
        (s2.sched.act = s.sched.next ∧ s.time.cmpaEn = true ∧ s.time.hwTcnt + 1 = s.time.ocra)) := by
  cases h1
  rcases slot_eq_next.mp h2 with ⟨hdue, hx⟩ | ⟨-, rfl⟩
  · cases hx
    exact ⟨rfl, .inr ⟨rfl, startDue_iff.mp hdue⟩⟩
  · exact ⟨rfl, .inl rfl⟩

/-- Slot 7: `NEXT` changes only to `SCRATCH` (R181). -/
theorem publishSlot_next {s t : State} {due : Bool} (h : slot due .engPublish s = .next t) :
    t.sched.next = s.sched.next ∨ t.sched.next = t.sched.scratch := by
  rcases slot_eq_next.mp h with ⟨-, hx⟩ | ⟨-, rfl⟩
  · cases hx
    exact .inr (by simp)
  · exact .inl rfl

/-- A command is none of the operations that give a buffer a new content (R87). -/
theorem decodeCmd_not_fillsBuffer {w : CmdWord} {i : Instr} (h : decodeCmd w = .ok i) :
    i ≠ .hwStart ∧ i ≠ .engCalc ∧ i ≠ .engPublish := by
  obtain ⟨hstart, -, -, hcalc, hpublish⟩ := decodeCmd_enabled h State.reset
  refine ⟨fun hi => ?_, fun hi => ?_, fun hi => ?_⟩
  · exact absurd (hstart hi).1 (by decide)
  · exact absurd (hcalc hi) (by decide)
  · exact absurd (hpublish hi) (by decide)

/-- Slot 8 keeps or empties `ACT` and `NEXT`, and keeps `SCRATCH`. -/
theorem commandSlot_buffers {cmd : Option CmdWord} {s t : State} (h : commandSlot cmd s = .next t) :
    KeptOrEmptied Schedules.act s t ∧ KeptOrEmptied Schedules.next s t ∧ t.sched.scratch = s.sched.scratch := by
  have hclear (buf) : KeptOrEmptied buf s { s with port.rvalid := false } := .of_sched_eq rfl rfl
  rcases commandSlot_eq_next.mp h with ⟨-, rfl⟩ | ⟨w, e, -, -, rfl⟩ | ⟨w, i, -, hdec, hx⟩
  · exact ⟨hclear _, hclear _, rfl⟩
  · exact ⟨.of_sched_eq rfl rfl, .of_sched_eq rfl rfl, rfl⟩
  · obtain ⟨hstart, hcalc, hpublish⟩ := decodeCmd_not_fillsBuffer hdec
    exact ⟨(hclear _).trans (exec_act hstart hx), (hclear _).trans (exec_next hpublish hx),
      (exec_scratch hcalc hx : t.sched.scratch = _)⟩

/-! ## Slots 1 to 7 -/

/-- After slots 1 to 7 `ACT` is as before, the whole of the old `NEXT` at a match of compare A, or empty. -/
theorem eventSlots_act {i : TickInput} {s u : State} (h : eventSlots i s = .next u) : u.params = s.params ∧
    (u.sched.act = s.sched.act ∨
      (u.sched.act = s.sched.next ∧ s.time.cmpaEn = true ∧ s.time.hwTcnt + 1 = s.time.ocra) ∨
      u.sched.act = Buffer.empty s.params.nch) := by
  obtain ⟨s1, s2, s3, s4, s5, s6, h1, h2, h3, h4, h5, h6, h7⟩ := eventSlots_eq_next.mp h
  obtain ⟨hparams, hact⟩ := startSlot_act h1 h2
  have hrest : KeptOrEmptied Schedules.act s2 u :=
    (slot_act (by simp) h3).trans <| (edgeSlot_act h4).trans <| (slot_act (by simp) h5).trans <|
      (slot_act (by simp) h6).trans <| slot_act (by simp) h7
  refine ⟨hrest.params.trans hparams, ?_⟩
  rcases hrest.buffer with hkept | hempty
  · rw [hkept]
    exact hact.imp_right .inl
  · rw [hempty, hparams]
    exact .inr (.inr rfl)

/-- After slots 1 to 7 `NEXT` is as before, the whole of `SCRATCH`, or empty. -/
theorem eventSlots_next {i : TickInput} {s u : State} (h : eventSlots i s = .next u) :
    u.sched.next = s.sched.next ∨ u.sched.next = u.sched.scratch ∨ u.sched.next = Buffer.empty s.params.nch := by
  obtain ⟨s1, s2, s3, s4, s5, s6, h1, h2, h3, h4, h5, h6, h7⟩ := eventSlots_eq_next.mp h
  have hbefore : KeptOrEmptied Schedules.next s s6 :=
    (exec_next (by simp) h1).trans <| (slot_next (by simp) h2).trans <| (slot_next (by simp) h3).trans <|
      (edgeSlot_next h4).trans <| (slot_next (by simp) h5).trans <| slot_next (by simp) h6
  rcases publishSlot_next h7 with hkept | hpublished
  · rw [hkept]
    exact hbefore.buffer.imp_right .inr
  · exact .inr (.inl hpublished)

end Sys2Proof.Machine

open Sys2Proof.Machine

/-- Settles O20: slots 1 to 7 copy whole buffers, keep or empty them, and slot 8 keeps or empties them. -/
theorem scheduleBuffersAreNeverTorn : Obligations.ScheduleBuffersAreNeverTorn := by
  intro s t hrst h
  obtain ⟨u, hu⟩ := eventSlots_total s.nextInput s.popInput
  rw [step_eq_commandSlot hrst hu] at h
  obtain ⟨hcact, hcnext, hcscratch⟩ := commandSlot_buffers h
  obtain ⟨hparams, hact⟩ := eventSlots_act hu
  have hnext := eventSlots_next hu
  simp only [State.popInput_params, State.popInput_sched, State.popInput_time] at hparams hact hnext
  constructor
  · rcases hcact.buffer with hkept | hempty
    · rw [hkept]; exact hact
    · rw [hempty, hparams]; exact .inr (.inr rfl)
  · rcases hcnext.buffer with hkept | hempty
    · rw [hkept, hcscratch]; exact hnext
    · rw [hempty, hparams]; exact .inr (.inr rfl)
end

section
/-! The register map (30_encoding.md R91 to R94) as two tables of registers, one for the numbers outside the indexed groups
and one for the groups: the model and the specification both read off them. -/

namespace Sys2Proof.Machine

/-! ## The two tables -/

/-- The numbers outside the indexed groups, `STATUS` apart, each with the register it names (R92). -/
def singleRegs : List (Byte × Reg) :=
  [(0x00#8, .cfgMinOn), (0x01#8, .cfgMinOff), (0x02#8, .cfgZcDelay), (0x03#8, .cfgMode), (0x04#8, .cfgSyncDev),
   (0x05#8, .cfgOosLimit), (0x06#8, .cfgRangeBegin), (0x07#8, .cfgRangeDiv), (0x08#8, .cfgZcValidate),
   (0x11#8, .evtPending), (0x12#8, .freq), (0x13#8, .hTicks), (0x14#8, .hwMin), (0x15#8, .hwMax), (0x16#8, .invalidCnt),
   (0x17#8, .chState), (0x18#8, .fadeDone), (0x19#8, .oosInfo), (0x1A#8, .out), (0x1B#8, .hwTcnt), (0x1C#8, .now),
   (0x1D#8, .lastEdge), (0x1E#8, .ocra), (0x1F#8, .ocrb), (0x59#8, .actMeta), (0x69#8, .nextMeta), (0x79#8, .scratchMeta),
   (0xC0#8, .measCnt), (0xC1#8, .measSeen), (0xC2#8, .measPrev), (0xC3#8, .measT0)]

/-- An indexed group: the number of index 0, the bound on the index, and the register of each index (R91). -/
structure RegGroup where
  base : Nat
  bound : Nat
  member : Nat → Reg

/-- The indexed groups of R92. -/
def regGroups (p : Params) : List RegGroup :=
  [⟨0x20, p.nch, .levelFp⟩, ⟨0x28, p.nch, .step⟩, ⟨0x30, p.nch, .remain⟩, ⟨0x38, p.nch, .target⟩,
   ⟨0x40, p.nch, .fadeDoneLevel⟩, ⟨0x50, p.nch + 1, .actEntry⟩, ⟨0x60, p.nch + 1, .nextEntry⟩,
   ⟨0x70, p.nch + 1, .scratchEntry⟩, ⟨0x80, p.measNSamples, .measBuf⟩]

/-! ## What the specification reads -/

/-- `OOS_INFO` before it is extended to 32 bits. -/
theorem oosBits_toNat (d : Bool) (c : Half) : (BitVec.ofBool d ++ c).toNat = (if d then 65536 else 0) + c.toNat := by
  rw [← oosInfo_toNat, BitVec.toNat_setWidth_of_le (by decide)]

/-- Outside the groups the specification's numbers are those of the registers in the table. -/
theorem singleNumbers_eq (s : State) : Spec.singleNumbers s = singleRegs.map fun e => (e.1, (s.reg e.2).toNat) := by
  simp (disch := decide) only [Spec.singleNumbers, singleRegs, List.map_cons, List.map_nil, State.reg, bitWord_toNat,
    oosBits_toNat, Buffer.metaWord_toNat, Spec.metaValue, BitVec.toNat_setWidth_of_le]

/-- In the groups the specification's numbers are those of the registers in the table. -/
theorem numberGroups_eq (s : State) : Spec.numberGroups s = (regGroups s.params).map fun g =>
    (g.base, (List.range g.bound).map fun i => (s.reg (g.member i)).toNat) := by
  simp (disch := decide) only [Spec.numberGroups, regGroups, List.map_cons, List.map_nil, State.reg, Entry.word_toNat,
    Spec.entryValue, BitVec.toNat_setWidth_of_le]

/-! ## What the model looks up -/

theorem regRead_of_regAt {s : State} {n : Byte} {r : Reg} (h : regAt s.params n = some r) :
    s.regRead n = some (s.reg r) := by rw [State.regRead, h]; rfl

/-- Every number of the table of single numbers is looked up there. -/
theorem regAt_single (p : Params) {e : Byte × Reg} (h : e ∈ singleRegs) : regAt p e.1 = some e.2 := by
  have htable : singleRegs.map (fun e => regAt p e.1) = singleRegs.map (fun e => some e.2) := rfl
  exact List.map_inj_left.mp htable e h

/-- A number that is neither `STATUS` nor in the table lies outside the single numbers. -/
theorem singleNumber_eq_false {n : Byte} (hstatus : n ≠ 0x10#8) (h : ∀ e ∈ singleRegs, e.1 ≠ n) :
    singleNumber n.toNat = false := by
  revert n
  decide +kernel

/-- At every legal size no group reaches into a later one, so that a member's number is found in its own group. -/
theorem groupReg_member {p : Params} (hnch : p.nch ≤ 8) {g : RegGroup} (hg : g ∈ regGroups p) {i : Nat}
    (hi : i < g.bound) : groupReg p (g.base + i) = some (g.member i) := by
  simp only [regGroups, List.mem_cons, List.not_mem_nil, or_false] at hg
  rcases hg with rfl | rfl | rfl | rfl | rfl | rfl | rfl | rfl | rfl <;> dsimp only at hi ⊢ <;>
    simp (disch := omega) [groupReg, groupAt_add _ hi, groupAt_eq_none]

/-- At every legal size the groups fit the numbers of 8 bits and keep clear of the single numbers. -/
theorem singleNumber_member {p : Params} (hnch : p.nch ≤ 8) (hmeas : p.measNSamples ≤ 64) {g : RegGroup}
    (hg : g ∈ regGroups p) {i : Nat} (hi : i < g.bound) : g.base + i < 2 ^ 8 ∧ singleNumber (g.base + i) = false := by
  simp only [regGroups, List.mem_cons, List.not_mem_nil, or_false] at hg
  rcases hg with rfl | rfl | rfl | rfl | rfl | rfl | rfl | rfl | rfl <;> dsimp only at hi ⊢ <;>
    simp [singleNumber] <;> omega

/-- The member of index `i` of a group is looked up at the group's base plus `i` (R91). -/
theorem regAt_member {p : Params} (hnch : p.nch ≤ 8) (hmeas : p.measNSamples ≤ 64) {g : RegGroup} (hg : g ∈ regGroups p)
    {i : Nat} (hi : i < g.bound) : regAt p (BitVec.ofNat 8 (g.base + i)) = some (g.member i) := by
  obtain ⟨hlt, hsingle⟩ := singleNumber_member hnch hmeas hg hi
  have hn : (BitVec.ofNat 8 (g.base + i)).toNat = g.base + i := by rw [BitVec.toNat_ofNat, Nat.mod_eq_of_lt hlt]
  rw [regAt_group p (by rwa [hn]), hn, groupReg_member hnch hg hi]

/-- A number outside every group is in none of them (R91). -/
theorem groupReg_eq_none {p : Params} {k : Nat} (h : ∀ g ∈ regGroups p, k < g.base ∨ g.base + g.bound ≤ k) :
    groupReg p k = none := by
  have hno : ∀ g ∈ regGroups p, groupAt k g.base g.bound g.member = none := fun g hg => groupAt_eq_none (h g hg)
  simp only [regGroups, List.forall_mem_cons] at hno
  simp [groupReg, hno]

/-- The fields of `STATUS` wider than a bit, and its width (R93). -/
theorem status_fields (s : State) : s.status.toNat % 4 = s.phase.code.toNat ∧ s.status.toNat / 4 % 4 = s.eng.code.toNat ∧
    s.status.toNat / 256 % 16 = s.sched.idx.toNat ∧ s.status.toNat < 2 ^ 13 := by
  have hphase := s.phase.code.isLt
  have heng := s.eng.code.isLt
  have hidx := s.sched.idx.isLt
  have hcmpa := s.time.cmpaEn.toNat_le
  have hcmpb := s.time.cmpbEn.toNat_le
  have hovr := s.mains.freqOvr.toNat_le
  have hvalid := s.sync.lastEdgeValid.toNat_le
  have hzc := s.sync.zcPrev.toNat_le
  have hstatus := status_toNat s
  refine ⟨?_, ?_, ?_, ?_⟩ <;> omega

end Sys2Proof.Machine

open Sys2Proof.Machine

/-- Settles O52: the specification's numbers and the model's lookup are read off the same two tables. -/
theorem registerMapReadsTheState : Obligations.RegisterMapReadsTheState := by
  intro s hlegal
  obtain ⟨⟨-, hnch⟩, -, -, -, ⟨-, hmeas⟩, -⟩ := hlegal
  rw [singleNumbers_eq, numberGroups_eq]
  refine ⟨?single, ?group, ?status, ?unmapped⟩
  case single =>
    simp only [List.forall_mem_map]
    intro e he
    exact ⟨_, regRead_of_regAt (regAt_single _ he), rfl⟩
  case group =>
    simp only [List.forall_mem_map]
    intro g hg i x hx
    have hi : i < g.bound := by simpa using (List.getElem?_eq_some_iff.mp hx).1
    rw [List.getElem?_map, List.getElem?_range hi] at hx
    obtain rfl := Option.some.inj hx
    exact ⟨_, regRead_of_regAt (regAt_member hnch hmeas hg hi), rfl⟩
  case status =>
    obtain ⟨hphase, heng, hidx, hlt⟩ := status_fields s
    obtain ⟨hcmpa, hcmpb, hovr, hvalid, hzc⟩ := status_bits s
    exact ⟨s.status, regRead_of_regAt (r := .status) rfl, hphase, heng, hcmpa, hcmpb, hovr, hvalid, hidx, hzc, hlt⟩
  case unmapped =>
    simp only [List.forall_mem_map, List.length_map, List.length_range]
    intro n hstatus hsingle hgroup
    rw [State.regRead, regAt_group _ (singleNumber_eq_false hstatus hsingle), groupReg_eq_none hgroup]
    rfl
end

section
/-! Decoding and encoding (30_encoding.md R80 to R89, R95): the bit fields of a word that passes a match/mask test, the
fields of each format, and the decoder as the inverse of the encoder. -/

namespace Sys2Proof

open Laws.TableRow (rowOf)

/-! ## The fields that a match/mask test fixes (R87) -/

/-- A test whose mask covers a field fixes the field to the pattern's value. -/
theorem extractLsb'_of_passes {w mask pattern : CmdWord} {start len : Nat} (h : passes w mask pattern = true)
    (hmask : mask.extractLsb' start len = BitVec.allOnes len) : w.extractLsb' start len = pattern.extractLsb' start len := by
  rw [← beq_iff_eq.mp h, BitVec.extractLsb'_and, hmask, BitVec.and_allOnes]

/-- Every mask of R87 covers the opcode. -/
theorem opcodeOf_of_passes {w mask pattern : CmdWord} (h : passes w mask pattern = true)
    (hmask : opcodeOf mask = 0xFF#8) : opcodeOf w = opcodeOf pattern :=
  extractLsb'_of_passes h hmask

theorem opcodeOf_toNat (w : CmdWord) : (opcodeOf w).toNat = w.toNat / 2 ^ 56 := by
  have hw := w.isLt
  rw [opcodeOf, BitVec.extractLsb'_toNat, Nat.shiftRight_eq_div_pow]
  exact Nat.mod_eq_of_lt (by omega)

theorem field55_toNat (w : CmdWord) : (field55 w).toNat = w.toNat / 2 ^ 48 % 256 := by
  rw [field55, BitVec.extractLsb'_toNat, Nat.shiftRight_eq_div_pow]

/-! ## The fields of a word written in a format (R81 to R85) -/

@[simp] theorem field55_formatCL (op ch : Byte) (level : Half) : field55 (formatCL op ch level) = ch :=
  calc (op ++ ch ++ 0#32 ++ level).extractLsb' 48 8
    _ = (op ++ ch ++ 0#32).extractLsb' 32 8 := BitVec.extractLsb'_append_eq_of_le (by decide)
    _ = (op ++ ch).extractLsb' 0 8 := BitVec.extractLsb'_append_eq_of_le (by decide)
    _ = ch := BitVec.extractLsb'_append_eq_right

@[simp] theorem field15_formatCL (op ch : Byte) (level : Half) : field15 (formatCL op ch level) = level :=
  BitVec.extractLsb'_append_eq_right

@[simp] theorem field55_formatCF (op ch : Byte) (dur fromLvl toLvl : Half) :
    field55 (formatCF op ch dur fromLvl toLvl) = ch :=
  calc (op ++ ch ++ dur ++ fromLvl ++ toLvl).extractLsb' 48 8
    _ = (op ++ ch ++ dur ++ fromLvl).extractLsb' 32 8 := BitVec.extractLsb'_append_eq_of_le (by decide)
    _ = (op ++ ch ++ dur).extractLsb' 16 8 := BitVec.extractLsb'_append_eq_of_le (by decide)
    _ = (op ++ ch).extractLsb' 0 8 := BitVec.extractLsb'_append_eq_of_le (by decide)
    _ = ch := BitVec.extractLsb'_append_eq_right

@[simp] theorem field47_formatCF (op ch : Byte) (dur fromLvl toLvl : Half) :
    field47 (formatCF op ch dur fromLvl toLvl) = dur :=
  calc (op ++ ch ++ dur ++ fromLvl ++ toLvl).extractLsb' 32 16
    _ = (op ++ ch ++ dur ++ fromLvl).extractLsb' 16 16 := BitVec.extractLsb'_append_eq_of_le (by decide)
    _ = (op ++ ch ++ dur).extractLsb' 0 16 := BitVec.extractLsb'_append_eq_of_le (by decide)
    _ = dur := BitVec.extractLsb'_append_eq_right

@[simp] theorem field31_formatCF (op ch : Byte) (dur fromLvl toLvl : Half) :
    field31 (formatCF op ch dur fromLvl toLvl) = fromLvl :=
  calc (op ++ ch ++ dur ++ fromLvl ++ toLvl).extractLsb' 16 16
    _ = (op ++ ch ++ dur ++ fromLvl).extractLsb' 0 16 := BitVec.extractLsb'_append_eq_of_le (by decide)
    _ = fromLvl := BitVec.extractLsb'_append_eq_right

@[simp] theorem field15_formatCF (op ch : Byte) (dur fromLvl toLvl : Half) :
    field15 (formatCF op ch dur fromLvl toLvl) = toLvl :=
  BitVec.extractLsb'_append_eq_right

@[simp] theorem low32_formatCI (op : Byte) (imm : Word) : low32 (formatCI op imm) = imm :=
  BitVec.extractLsb'_append_eq_right

/-- The operand of `ACK` is the low byte of `imm` (R84). -/
@[simp] theorem low8_formatCI (op mask : Byte) : low8 (formatCI op (0#24 ++ mask)) = mask :=
  calc low8 (formatCI op (0#24 ++ mask))
    _ = (low32 (formatCI op (0#24 ++ mask))).extractLsb' 0 8 := (BitVec.extractLsb'_extractLsb'_of_le (by decide)).symm
    _ = (0#24 ++ mask).extractLsb' 0 8 := by rw [low32_formatCI]
    _ = mask := BitVec.extractLsb'_append_eq_right

/-- The operand of `SETMODE` is bit 0 of `imm` (R84). -/
theorem bit0_formatCI (op : Byte) (mode : Bool) : (formatCI op (0#31 ++ BitVec.ofBool mode)).getLsbD 0 = mode :=
  calc (formatCI op (0#31 ++ BitVec.ofBool mode)).getLsbD 0
    _ = (low32 (formatCI op (0#31 ++ BitVec.ofBool mode))).getLsbD 0 := by simp [low32]
    _ = (0#31 ++ BitVec.ofBool mode).getLsbD 0 := by rw [low32_formatCI]
    _ = mode := by cases mode <;> rfl

@[simp] theorem field55_formatCR (op reg : Byte) (value : Word) : field55 (formatCR op reg value) = reg :=
  calc (op ++ reg ++ 0#16 ++ value).extractLsb' 48 8
    _ = (op ++ reg ++ 0#16).extractLsb' 16 8 := BitVec.extractLsb'_append_eq_of_le (by decide)
    _ = (op ++ reg).extractLsb' 0 8 := BitVec.extractLsb'_append_eq_of_le (by decide)
    _ = reg := BitVec.extractLsb'_append_eq_right

@[simp] theorem low32_formatCR (op reg : Byte) (value : Word) : low32 (formatCR op reg value) = value :=
  BitVec.extractLsb'_append_eq_right

/-! ## A word put together again from its fields: the must-be-zero bits are all it needs -/

theorem formatC0_fields {w : CmdWord} (hz : w.extractLsb' 0 56 = 0#56) : formatC0 (opcodeOf w) = w := by
  rw [formatC0, ← hz]
  exact BitVec.extractLsb'_append_extractLsb'

theorem formatCL_fields {w : CmdWord} (hz : w.extractLsb' 16 32 = 0#32) :
    formatCL (opcodeOf w) (field55 w) (field15 w) = w := by
  have hch : opcodeOf w ++ field55 w = w.extractLsb' 48 16 :=
      BitVec.extractLsb'_append_extractLsb'_eq_extractLsb' rfl
  have hzero : w.extractLsb' 48 16 ++ w.extractLsb' 16 32 = w.extractLsb' 16 48 :=
      BitVec.extractLsb'_append_extractLsb'_eq_extractLsb' rfl
  rw [formatCL, hch, ← hz, hzero]
  exact BitVec.extractLsb'_append_extractLsb'

theorem formatCF_fields (w : CmdWord) :
    formatCF (opcodeOf w) (field55 w) (field47 w) (field31 w) (field15 w) = w := by
  have hch : opcodeOf w ++ field55 w = w.extractLsb' 48 16 :=
      BitVec.extractLsb'_append_extractLsb'_eq_extractLsb' rfl
  have hdur : w.extractLsb' 48 16 ++ field47 w = w.extractLsb' 32 32 :=
      BitVec.extractLsb'_append_extractLsb'_eq_extractLsb' rfl
  have hfrom : w.extractLsb' 32 32 ++ field31 w = w.extractLsb' 16 48 :=
      BitVec.extractLsb'_append_extractLsb'_eq_extractLsb' rfl
  rw [formatCF, hch, hdur, hfrom]
  exact BitVec.extractLsb'_append_extractLsb'

theorem formatCI_fields {w : CmdWord} (hz : w.extractLsb' 32 24 = 0#24) : formatCI (opcodeOf w) (low32 w) = w := by
  have hzero : opcodeOf w ++ w.extractLsb' 32 24 = w.extractLsb' 32 32 :=
      BitVec.extractLsb'_append_extractLsb'_eq_extractLsb' rfl
  rw [formatCI, ← hz, hzero]
  exact BitVec.extractLsb'_append_extractLsb'

theorem formatCR_fields {w : CmdWord} (hz : w.extractLsb' 32 16 = 0#16) :
    formatCR (opcodeOf w) (field55 w) (low32 w) = w := by
  have hreg : opcodeOf w ++ field55 w = w.extractLsb' 48 16 :=
      BitVec.extractLsb'_append_extractLsb'_eq_extractLsb' rfl
  have hzero : w.extractLsb' 48 16 ++ w.extractLsb' 32 16 = w.extractLsb' 32 32 :=
      BitVec.extractLsb'_append_extractLsb'_eq_extractLsb' rfl
  rw [formatCR, hreg, ← hz, hzero]
  exact BitVec.extractLsb'_append_extractLsb'

/-- The `imm` of `ACK` when its upper bits are 0. -/
theorem imm_of_low8 {w : CmdWord} (hz : w.extractLsb' 8 24 = 0#24) : 0#24 ++ low8 w = low32 w := by
  rw [← hz]
  exact BitVec.extractLsb'_append_extractLsb'_eq_extractLsb' rfl

/-- The `imm` of `SETMODE` when its upper bits are 0. -/
theorem imm_of_bit0 {w : CmdWord} (hz : w.extractLsb' 1 31 = 0#31) : 0#31 ++ BitVec.ofBool (w.getLsbD 0) = low32 w := by
  have hbit : BitVec.ofBool (w.getLsbD 0) = w.extractLsb' 0 1 := by
    ext i hi
    obtain rfl : i = 0 := by omega
    simp
  rw [hbit, ← hz]
  exact BitVec.extractLsb'_append_extractLsb'_eq_extractLsb' rfl

/-! ## The decoder by the rows of the opcode table (R87, R89) -/

/-- The operation with its operands read from the fields of a command word (R81 to R85). -/
def Instr.withFields (w : CmdWord) : Instr → Instr
  | .setlvl _ _ => .setlvl (field55 w) (field15 w)
  | .fade _ _ _ _ => .fade (field55 w) (field47 w) (field31 w) (field15 w)
  | .fadea _ _ _ _ => .fadea (field55 w) (field47 w) (field31 w) (field15 w)
  | .setmode _ => .setmode (w.getLsbD 0)
  | .setfreq _ => .setfreq (low32 w)
  | .ack _ => .ack (low8 w)
  | .wreg _ _ => .wreg (field55 w) (low32 w)
  | .rreg _ => .rreg (field55 w)
  | .start => .start
  | .tick => .tick
  | .hwStart => .hwStart
  | .hwToggle => .hwToggle
  | .zcEdge => .zcEdge
  | .measTimeout => .measTimeout
  | .engCalc => .engCalc
  | .engPublish => .engPublish

/-- A word of an operation's row decodes to that operation, with the operands in its fields. -/
theorem decodeCmd_of_row {w : CmdWord} {i : Instr} (h : (rowOf i).has (.cmd w)) :
    decodeCmd w = .ok (i.withFields w) := by
  cases i with
  | tick | hwStart | hwToggle | zcEdge | measTimeout | engCalc | engPublish => exact h.elim
  | setlvl | fade | fadea | setmode | setfreq | start | ack | wreg | rreg =>
    rw [decodeCmd, opcodeOf_of_passes h rfl]
    exact if_pos h

/-- What decodes stands in the row of its operation, and its fields are the operands. -/
theorem decodeCmd_eq_ok {w : CmdWord} {i : Instr} :
    decodeCmd w = .ok i ↔ (rowOf i).has (.cmd w) ∧ i.withFields w = i := by
  constructor
  · intro h
    unfold decodeCmd checked at h
    split at h
    case h_10 => cases h
    all_goals
      split at h <;> cases h
      exact ⟨‹_›, rfl⟩
  · rintro ⟨hrow, hfields⟩
    rw [decodeCmd_of_row hrow, hfields]

/-! ## The decoder is the inverse of the encoder -/

/-- The encoding of every operation stands in the operation's row (R87, R95). -/
theorem encode_has_row (i : Instr) : (rowOf i).has (encode i) := by
  cases i with
  | setlvl ch level => exact Laws.TableRow.setlvl ch level
  | fade ch dur fromLvl toLvl => exact Laws.TableRow.fade ch dur fromLvl toLvl
  | fadea ch dur fromLvl toLvl => exact Laws.TableRow.fadea ch dur fromLvl toLvl
  | setmode mode => exact Laws.TableRow.setmode mode
  | setfreq imm => exact Laws.TableRow.setfreq imm
  | start => exact Laws.TableRow.start
  | ack mask => exact Laws.TableRow.ack mask
  | wreg reg value => exact Laws.TableRow.wreg reg value
  | rreg reg => exact Laws.TableRow.rreg reg
  | tick | hwStart | hwToggle | zcEdge | measTimeout | engCalc | engPublish => exact rfl

/-- The fields of an encoded command are its operands (R81 to R85). -/
theorem withFields_of_encode {w : CmdWord} {i : Instr} (h : encode i = .cmd w) : i.withFields w = i := by
  cases i with
  | setmode mode =>
    cases h
    exact congrArg Instr.setmode (bit0_formatCI 0x04#8 mode)
  | setlvl | fade | fadea | setfreq | start | ack | wreg | rreg =>
    cases h
    simp [Instr.withFields]
  | tick | hwStart | hwToggle | zcEdge | measTimeout | engCalc | engPublish => rfl

/-- A word of an operation's row is the encoding of that operation with the word's fields as operands: the test fixes
the opcode and every must-be-zero bit. -/
theorem encode_withFields {w : CmdWord} {i : Instr} (h : (rowOf i).has (.cmd w)) : encode (i.withFields w) = .cmd w := by
  cases i with
  | tick | hwStart | hwToggle | zcEdge | measTimeout | engCalc | engPublish => exact h.elim
  | setlvl ch level =>
    have hop : opcodeOf w = 0x01#8 := opcodeOf_of_passes h rfl
    rw [Instr.withFields, encode, ← hop, formatCL_fields (extractLsb'_of_passes h rfl)]
  | fade ch dur fromLvl toLvl =>
    have hop : opcodeOf w = 0x02#8 := opcodeOf_of_passes h rfl
    rw [Instr.withFields, encode, ← hop, formatCF_fields]
  | fadea ch dur fromLvl toLvl =>
    have hop : opcodeOf w = 0x03#8 := opcodeOf_of_passes h rfl
    rw [Instr.withFields, encode, ← hop, formatCF_fields]
  | setmode mode =>
    have hop : opcodeOf w = 0x04#8 := opcodeOf_of_passes h rfl
    rw [Instr.withFields, encode, ← hop, imm_of_bit0 (extractLsb'_of_passes h rfl),
      formatCI_fields (extractLsb'_of_passes h rfl)]
  | setfreq imm =>
    have hop : opcodeOf w = 0x05#8 := opcodeOf_of_passes h rfl
    rw [Instr.withFields, encode, ← hop, formatCI_fields (extractLsb'_of_passes h rfl)]
  | start =>
    have hop : opcodeOf w = 0x06#8 := opcodeOf_of_passes h rfl
    rw [Instr.withFields, encode, ← hop, formatC0_fields (extractLsb'_of_passes h rfl)]
  | ack mask =>
    have hop : opcodeOf w = 0x07#8 := opcodeOf_of_passes h rfl
    rw [Instr.withFields, encode, ← hop, imm_of_low8 (extractLsb'_of_passes h rfl),
      formatCI_fields (extractLsb'_of_passes h rfl)]
  | wreg reg value =>
    have hop : opcodeOf w = 0x08#8 := opcodeOf_of_passes h rfl
    rw [Instr.withFields, encode, ← hop, formatCR_fields (extractLsb'_of_passes h rfl)]
  | rreg reg =>
    have hop : opcodeOf w = 0x09#8 := opcodeOf_of_passes h rfl
    have hvalue : low32 w = 0#32 := extractLsb'_of_passes h rfl
    rw [Instr.withFields, encode, ← hop, ← hvalue, formatCR_fields (extractLsb'_of_passes h rfl)]

/-- A command word decodes to an operation exactly when it is the operation's encoding. -/
theorem decodeCmd_eq_ok_iff_encode {w : CmdWord} {i : Instr} : decodeCmd w = .ok i ↔ encode i = .cmd w := by
  rw [decodeCmd_eq_ok]
  constructor
  · rintro ⟨hrow, hfields⟩
    rw [← encode_withFields hrow, hfields]
  · intro h
    exact ⟨h ▸ encode_has_row i, withFields_of_encode h⟩

/-- An event code decodes to an operation exactly when it is the operation's code (R95). -/
theorem decodeEvent_eq_ok_iff_encode {e : Byte} {i : Instr} : decodeEvent e = .ok i ↔ encode i = .evt e := by
  constructor
  · intro h
    unfold decodeEvent at h
    split at h
    case h_8 => cases h
    all_goals
      rename_i he
      cases h
      exact congrArg Code.evt (BitVec.eq_of_toNat_eq he.symm)
  · intro h
    cases i with
    | setlvl | fade | fadea | setmode | setfreq | start | ack | wreg | rreg => cases h
    | tick | hwStart | hwToggle | zcEdge | measTimeout | engCalc | engPublish =>
      cases h
      rfl

/-- Decoding is the inverse of encoding, in both directions. -/
theorem decode_eq_ok_iff_encode {c : Code} {i : Instr} : decode c = .ok i ↔ encode i = c := by
  cases c with
  | cmd w => exact decodeCmd_eq_ok_iff_encode
  | evt e => exact decodeEvent_eq_ok_iff_encode

end Sys2Proof

open Sys2Proof

/-- Settles O1: the decoder is the inverse of the encoder, row by row of the opcode table. -/
theorem encodeThenDecodeGivesTheOperation : Obligations.EncodeThenDecodeGivesTheOperation := fun _ =>
  decode_eq_ok_iff_encode.mpr rfl

/-- Settles O2: a word that passes its row's test is put together again from its operands, its opcode and zeros. -/
theorem decodedCodeIsTheEncoding : Obligations.DecodedCodeIsTheEncoding := fun _ _ => decode_eq_ok_iff_encode.mp
end

section
/-! Illegal command words (30_encoding.md R88): the specification's description of them names exactly what the decoder and
the channel check refuse, and either way `EV_CMD_ERR` is all that comes of it. -/

namespace Sys2Proof.Machine

open Laws.TableRow (rowOf)

/-! ## A word that fails every match/mask test (R88 (a), (b)) -/

/-- The match/mask pairs of the specification are those of the operations' rows (R87). -/
theorem mem_commandRows {mask pattern : CmdWord} :
    (mask, pattern) ∈ Spec.commandRows ↔ ∃ i, rowOf i = .words mask pattern := by
  constructor
  · have hrows : ∀ r ∈ Spec.commandRows, ∃ i, rowOf i = .words r.1 r.2 := by
      simp only [Spec.commandRows, List.forall_mem_cons]
      exact ⟨⟨.setlvl 0 0, rfl⟩, ⟨.fade 0 0 0 0, rfl⟩, ⟨.fadea 0 0 0 0, rfl⟩, ⟨.setmode false, rfl⟩, ⟨.setfreq 0, rfl⟩,
        ⟨.start, rfl⟩, ⟨.ack 0, rfl⟩, ⟨.wreg 0 0, rfl⟩, ⟨.rreg 0, rfl⟩, List.forall_mem_nil _⟩
    exact hrows (mask, pattern)
  · rintro ⟨i, hi⟩
    cases i with
    | tick | hwStart | hwToggle | zcEdge | measTimeout | engCalc | engPublish => cases hi
    | setlvl | fade | fadea | setmode | setfreq | start | ack | wreg | rreg =>
      cases hi
      simp [Spec.commandRows]

/-- A word decodes exactly when it passes the test of some row. -/
theorem exists_decodeCmd_iff {w : CmdWord} : (∃ i, decodeCmd w = .ok i) ↔ ∃ r ∈ Spec.commandRows, w &&& r.1 = r.2 := by
  constructor
  · rintro ⟨i, h⟩
    obtain ⟨hrow, -⟩ := decodeCmd_eq_ok.mp h
    cases hi : rowOf i with
    | words mask pattern =>
      rw [hi] at hrow
      exact ⟨(mask, pattern), mem_commandRows.mpr ⟨i, hi⟩, beq_iff_eq.mp hrow⟩
    | event code =>
      rw [hi] at hrow
      exact hrow.elim
  · rintro ⟨r, hr, hpass⟩
    obtain ⟨i, hi⟩ := mem_commandRows.mp hr
    have hrow : (rowOf i).has (.cmd w) := by
      rw [hi]
      exact beq_iff_eq.mpr hpass
    exact ⟨i.withFields w, decodeCmd_of_row hrow⟩

/-! ## A bad channel (R88 (c), R175) -/

theorem chLegal_eq_false {nch : Nat} {ch : Byte} : chLegal nch ch = false ↔ nch ≤ ch.toNat ∧ ch ≠ 0xFF#8 := by
  simp [chLegal]

/-- The channel field of a word, as the specification reads it (R82, R83). -/
theorem chLegal_field55_eq_false {nch : Nat} {w : CmdWord} : chLegal nch (field55 w) = false ↔
    nch ≤ w.toNat / 2 ^ 48 % 256 ∧ w.toNat / 2 ^ 48 % 256 ≠ 0xFF := by
  rw [chLegal_eq_false, ← field55_toNat, ← BitVec.toNat_ne_iff_ne]
  rfl

/-- The opcode of a word that passes a test, as the specification reads it (R80). -/
theorem opcode_of_passes {w mask pattern : CmdWord} (h : passes w mask pattern = true) (hmask : opcodeOf mask = 0xFF#8) :
    w.toNat / 2 ^ 56 = pattern.toNat / 2 ^ 56 := by
  rw [← opcodeOf_toNat, opcodeOf_of_passes h hmask, opcodeOf_toNat]

/-- A decoded operation is ill formed exactly when its opcode is that of a level command and its channel field is bad. -/
theorem illFormed_iff_of_decodeCmd {p : Params} {w : CmdWord} {i : Instr} (h : decodeCmd w = .ok i) :
    i.wellFormed p = false ↔ (w.toNat / 2 ^ 56 = 1 ∨ w.toNat / 2 ^ 56 = 2 ∨ w.toNat / 2 ^ 56 = 3) ∧
      p.nch ≤ w.toNat / 2 ^ 48 % 256 ∧ w.toNat / 2 ^ 48 % 256 ≠ 0xFF := by
  obtain ⟨hrow, hfields⟩ := decodeCmd_eq_ok.mp h
  rw [← chLegal_field55_eq_false]
  cases i with
  | setlvl | fade | fadea =>
    cases hfields
    rw [opcode_of_passes hrow rfl]
    simp [Instr.wellFormed]
  | setmode | setfreq | start | ack | wreg | rreg =>
    rw [opcode_of_passes hrow rfl]
    simp [Instr.wellFormed]
  | tick | hwStart | hwToggle | zcEdge | measTimeout | engCalc | engPublish => exact hrow.elim

/-- An ill-formed operation raises `EV_CMD_ERR` and does nothing else: it is a level command with a bad channel. -/
theorem exec_illFormed {i : Instr} {s : State} (h : i.wellFormed s.params = false) : exec i s = .next (s.raise .cmdErr) := by
  cases i with
  | setlvl | fade | fadea => exact congrArg _ (onChannels_illegal _ (chanOperand_eq_none.mpr h))
  | setmode | setfreq | start | ack | wreg | rreg | tick | hwStart | hwToggle | zcEdge | measTimeout | engCalc
  | engPublish => cases h

/-! ## The specification's illegal words -/

/-- A word is illegal exactly when no well-formed operation decodes from it. -/
theorem illegalWord_iff {p : Params} {w : CmdWord} :
    Spec.IllegalWord p.nch w ↔ ∀ i, decodeCmd w = .ok i → i.wellFormed p = false := by
  constructor
  · rintro (hrows | hch) i hi
    · obtain ⟨r, hr, hpass⟩ := exists_decodeCmd_iff.mp ⟨i, hi⟩
      exact absurd hpass (hrows r hr)
    · exact (illFormed_iff_of_decodeCmd hi).mpr hch
  · intro hill
    by_cases hdec : ∃ i, decodeCmd w = .ok i
    · obtain ⟨i, hi⟩ := hdec
      exact .inr ((illFormed_iff_of_decodeCmd hi).mp (hill i hi))
    · exact .inl fun r hr hpass => hdec (exists_decodeCmd_iff.mpr ⟨r, hr, hpass⟩)

/-- Slot 8 with a word that does not decode (R89). -/
theorem commandSlot_of_decodeCmd_error {w : CmdWord} {e : Illegal} (hdec : decodeCmd w = .error e) (s : State) :
    commandSlot (some w) s = .next ({ s with port.rvalid := false }.raise .cmdErr) := by
  simp [commandSlot, runCommand, hdec]

/-- Slot 8 with an illegal word: it does not decode, or it decodes to an ill-formed operation. -/
theorem commandSlot_of_illegalWord {w : CmdWord} {s : State} (h : Spec.IllegalWord s.params.nch w) :
    commandSlot (some w) s = .next ({ s with port.rvalid := false }.raise .cmdErr) := by
  cases hdec : decodeCmd w with
  | error e => exact commandSlot_of_decodeCmd_error hdec s
  | ok i =>
    rw [commandSlot_of_decodeCmd hdec]
    exact exec_illFormed (illegalWord_iff.mp h i hdec)

end Sys2Proof.Machine

namespace Sys2Proof

/-- A row of the opcode table whose bits are an operation's encoding is read as that operation. -/
theorem decodeTableWord_of_encode {nbits w : Nat} {i : Instr} (h : codeOfTable nbits w = some (encode i)) :
    decodeTableWord nbits w = some i := by
  simp [decodeTableWord, h, decode_eq_ok_iff_encode.mpr rfl]

end Sys2Proof

open Sys2Proof Sys2Proof.Machine

/-- Settles O3: the illegal words are those from which no well-formed operation decodes, whatever `NCH` is. -/
theorem illegalCommandOnlyRaisesCmdErr : Obligations.IllegalCommandOnlyRaisesCmdErr := by
  intro s w _
  refine ⟨commandSlot_of_illegalWord, fun hlegal => ?_, rfl⟩
  simpa [illegalWord_iff] using hlegal

/-- Settles O4: four of the words are encodings; the fifth, a `START`, has a must-be-zero bit set. -/
theorem specWordsDecodeToTheirCommands : Obligations.SpecWordsDecodeToTheirCommands :=
  ⟨decodeTableWord_of_encode rfl, decodeTableWord_of_encode rfl, decodeTableWord_of_encode rfl, rfl,
    decodeTableWord_of_encode rfl⟩

/-- Settles O40: with such a channel each of the three commands is ill formed. -/
theorem badChannelOnlyRaisesCmdErr : Obligations.BadChannelOnlyRaisesCmdErr := by
  intro s ch a b c hnch hall
  have hbad : chLegal s.params.nch ch = false := chLegal_eq_false.mpr ⟨hnch, hall⟩
  exact ⟨s.raise .cmdErr, exec_illFormed hbad, exec_illFormed hbad, exec_illFormed hbad, rfl, rfl⟩
end

section
/-! One zero-crossing edge (40_zc_synchronizer.md R111 to R118): what `ZC_EDGE` does in each phase and, in `RUNNING`, to each
of the four kinds of edge; from that, what a run of rejected edges leads to (R119). -/

namespace Sys2Proof.Machine

/-! ## `ZC_EDGE` by phase (R111) -/

theorem exec_zcEdge_stopped {s : State} (h : s.phase = .idle ∨ s.phase = .halted) : exec .zcEdge s = .next s := by
  change execZcEdge s = _
  rcases h with h | h <;> rw [execZcEdge, h]

theorem exec_zcEdge_running {s : State} (h : s.phase = .running) : exec .zcEdge s = .next (edgeRunning s) := by
  change execZcEdge s = _
  rw [execZcEdge, h]

theorem exec_zcEdge_measuring {s : State} (h : s.phase = .measuring) : exec .zcEdge s = .next (edgeMeasuring s) := by
  change execZcEdge s = _
  rw [execZcEdge, h]

/-! ## The kinds of edge in `RUNNING` (R112) -/

/-- A running block that checks an edge against the window around its reference edge. -/
structure Validating (s : State) : Prop where
  running : s.phase = .running
  validate : s.cfg.zcValidate = true
  reference : s.sync.lastEdgeValid = true

/-- The edge is accepted: validation is off, or it lies in the window around a reference edge (R112). -/
def Accepts (s : State) : Prop :=
  s.cfg.zcValidate = false ∨
    (s.sync.lastEdgeValid = true ∧ s.sync.hwMin.toNat ≤ elapsed s.time.now s.sync.lastEdge ∧
      elapsed s.time.now s.sync.lastEdge ≤ s.sync.hwMax.toNat)

theorem exec_zcEdge_accepted {s : State} (hrun : s.phase = .running) (hacc : Accepts s) :
    exec .zcEdge s = .next (acceptEdge s) := by
  rw [exec_zcEdge_running hrun, edgeRunning]
  rcases hacc with hoff | ⟨href, hwindow⟩
  · simp [hoff]
  · simp [href, hwindow]

theorem exec_zcEdge_seed {s : State} (hrun : s.phase = .running) (hval : s.cfg.zcValidate = true)
    (hfirst : s.sync.lastEdgeValid = false) : exec .zcEdge s = .next (seedEdge s) := by
  rw [exec_zcEdge_running hrun, edgeRunning]
  simp [hval, hfirst]

theorem exec_zcEdge_rejected {s : State} (h : Validating s) (hout : Spec.OutsideWindow s s.time.now) :
    exec .zcEdge s = .next (rejectEdge (elapsed s.time.now s.sync.lastEdge) s) := by
  have hwindow : ¬ (s.sync.hwMin.toNat ≤ elapsed s.time.now s.sync.lastEdge ∧
      elapsed s.time.now s.sync.lastEdge ≤ s.sync.hwMax.toNat) := by
    unfold Spec.OutsideWindow at hout
    unfold elapsed
    omega
  rw [exec_zcEdge_running h.running, edgeRunning]
  simp only [h.validate, h.reference, Bool.not_true, Bool.false_eq_true, if_false, if_neg hwindow]

/-! ## A rejected edge below the limit and at it (R115, R116) -/

/-- The count saturates (R115). -/
theorem countRejected_invalidCnt (el : Nat) (s : State) :
    (countRejected el s).sync.invalidCnt.toNat = min (s.sync.invalidCnt.toNat + 1) 65535 := by
  rw [countRejected, BitVec.toNat_ofNat, sat16]
  omega

theorem countRejected_oosDir (el : Nat) (s : State) :
    (countRejected el s).sync.oosDir = true ↔ s.sync.hwMax.toNat < el := decide_eq_true_iff

theorem exec_zcEdge_counted {s : State} (h : Validating s) (hout : Spec.OutsideWindow s s.time.now)
    (hbelow : min (s.sync.invalidCnt.toNat + 1) 65535 < s.cfg.oosLimit.toNat) :
    exec .zcEdge s = .next (countRejected (elapsed s.time.now s.sync.lastEdge) s) := by
  rw [exec_zcEdge_rejected h hout, rejectEdge_eq, countRejected_invalidCnt, if_neg (Nat.not_le.mpr hbelow)]

theorem exec_zcEdge_lost {s : State} (h : Validating s) (hout : Spec.OutsideWindow s s.time.now)
    (hlimit : s.cfg.oosLimit.toNat ≤ min (s.sync.invalidCnt.toNat + 1) 65535) :
    exec .zcEdge s = .next (syncLost (countRejected (elapsed s.time.now s.sync.lastEdge) s)) := by
  rw [exec_zcEdge_rejected h hout, rejectEdge_eq, countRejected_invalidCnt, if_pos hlimit]

/-- A loss of synchronisation keeps an override and invalidates a measured frequency (R116). -/
theorem syncLost_mains (s : State) :
    if s.mains.freqOvr = true then (syncLost s).mains = s.mains
    else (syncLost s).mains.freq = 0#32 ∧ (syncLost s).mains.hTicks = 0#16 ∧ (syncLost s).mains.freqOvr = false := by
  rw [syncLost_eq]
  split
  next => rfl
  next hmeasured => exact ⟨rfl, rfl, Bool.eq_false_of_not_eq_true hmeasured⟩

/-! ## A run of edges -/

theorem edgesAt_cons {n : Word} {s t : State} (h : exec .zcEdge { s with time.now := n } = .next t) (ns : List Word) :
    Spec.edgesAt (n :: ns) s = Spec.edgesAt ns t := by
  rw [Spec.edgesAt, h, andThen_next]

/-- A halted block lets every edge pass; only the time goes on. -/
theorem edgesAt_halted (times : List Word) {s : State} (h : s.phase = .halted) :
    ∃ now, Spec.edgesAt times s = .next { s with time.now := now } := by
  induction times generalizing s with
  | nil => exact ⟨s.time.now, rfl⟩
  | cons n ns ih =>
    have hedge : exec .zcEdge { s with time.now := n } = .next { s with time.now := n } := exec_zcEdge_stopped (.inr h)
    obtain ⟨now, hns⟩ := ih (s := { s with time.now := n }) h
    exact ⟨now, (edgesAt_cons hedge ns).trans hns⟩

/-- The block after a rejected edge at the time `n`, before the limit is asked. -/
def rejectedAt (s : State) (n : Word) : State :=
  countRejected (elapsed n s.sync.lastEdge) { s with time.now := n }

theorem rejectedAt_invalidCnt (s : State) (n : Word) :
    (rejectedAt s n).sync.invalidCnt.toNat = min (s.sync.invalidCnt.toNat + 1) 65535 :=
  countRejected_invalidCnt _ { s with time.now := n }

theorem Validating.rejectedAt {s : State} (h : Validating s) (n : Word) : Validating (rejectedAt s n) :=
  ⟨h.running, h.validate, h.reference⟩

theorem edgesAt_cons_counted {s : State} (h : Validating s) {n : Word} (hout : Spec.OutsideWindow s n)
    (hbelow : min (s.sync.invalidCnt.toNat + 1) 65535 < s.cfg.oosLimit.toNat) (ns : List Word) :
    Spec.edgesAt (n :: ns) s = Spec.edgesAt ns (rejectedAt s n) :=
  edgesAt_cons (exec_zcEdge_counted (s := { s with time.now := n }) ⟨h.running, h.validate, h.reference⟩ hout hbelow) ns

theorem edgesAt_cons_lost {s : State} (h : Validating s) {n : Word} (hout : Spec.OutsideWindow s n)
    (hlimit : s.cfg.oosLimit.toNat ≤ min (s.sync.invalidCnt.toNat + 1) 65535) (ns : List Word) :
    Spec.edgesAt (n :: ns) s = Spec.edgesAt ns (syncLost (rejectedAt s n)) :=
  edgesAt_cons (exec_zcEdge_lost (s := { s with time.now := n }) ⟨h.running, h.validate, h.reference⟩ hout hlimit) ns

/-- Where the block `s` stands in `t` once its count of rejected edges has had time to rise to `n`: below the limit it runs
with that count, from the limit on it has lost synchronisation (R119). -/
def CountedOrHalted (s : State) (n : Nat) (t : State) : Prop :=
  (n < s.cfg.oosLimit.toNat → t.phase = .running ∧ t.sync.invalidCnt.toNat = n ∧ t.tele = s.tele) ∧
  (s.cfg.oosLimit.toNat ≤ n →
    t.phase = .halted ∧ t.sync.invalidCnt = s.cfg.oosLimit ∧ t.sync.oosCnt = s.cfg.oosLimit ∧
      t.tele.evtPending = s.tele.evtPending ||| 0x04#8 ∧ t.out = 0#8)

/-- Edges outside the window add to a count below the limit until it reaches the limit. Every one of them is measured from
the same reference edge, since a rejected edge leaves `LAST_EDGE` (R115). -/
theorem edgesAt_rejected (times : List Word) {s : State} (h : Validating s)
    (hcnt : s.sync.invalidCnt.toNat < s.cfg.oosLimit.toNat) (hout : ∀ n ∈ times, Spec.OutsideWindow s n) :
    ∃ t, Spec.edgesAt times s = .next t ∧ CountedOrHalted s (s.sync.invalidCnt.toNat + times.length) t := by
  induction times generalizing s with
  | nil => exact ⟨s, rfl, fun _ => ⟨h.running, rfl, rfl⟩, fun hlimit => absurd hlimit (Nat.not_le.mpr hcnt)⟩
  | cons n ns ih =>
    have hfirst : Spec.OutsideWindow s n := hout n List.mem_cons_self
    have hcounted : (rejectedAt s n).sync.invalidCnt.toNat = s.sync.invalidCnt.toNat + 1 := by
      have := s.cfg.oosLimit.isLt
      rw [rejectedAt_invalidCnt]
      omega
    by_cases hbelow : s.sync.invalidCnt.toNat + 1 < s.cfg.oosLimit.toNat
    · obtain ⟨t, ht, hend⟩ := ih (h.rejectedAt n) (by rw [hcounted]; exact hbelow)
        fun m hm => hout m (List.mem_cons_of_mem n hm)
      rw [hcounted, Nat.add_right_comm] at hend
      exact ⟨t, (edgesAt_cons_counted h hfirst (by omega) ns).trans ht, hend⟩
    · have hlimit : (rejectedAt s n).sync.invalidCnt = s.cfg.oosLimit :=
        BitVec.eq_of_toNat_eq (hcounted.trans (by omega))
      obtain ⟨now, hhalted⟩ := edgesAt_halted ns (s := syncLost (rejectedAt s n)) (by rw [syncLost_eq])
      have hrun := (edgesAt_cons_lost h hfirst (by rw [← rejectedAt_invalidCnt, hlimit]) ns).trans hhalted
      rw [syncLost_eq] at hrun
      refine ⟨_, hrun, fun hlt => ?_, fun _ => ⟨rfl, hlimit, hlimit, rfl, rfl⟩⟩
      rw [List.length_cons] at hlt
      omega

end Sys2Proof.Machine

open Sys2Proof.Machine

/-- Settles O26: with the count 0, the number of rejected edges is the count that the run reaches. -/
theorem syncIsLostAtTheLimitAndNotBefore : Obligations.SyncIsLostAtTheLimitAndNotBefore := by
  intro s times hrun hval href hzero hlimit hout
  have hcnt : s.sync.invalidCnt.toNat = 0 := by rw [hzero]; rfl
  have hend := edgesAt_rejected times ⟨hrun, hval, href⟩ (by omega) hout
  rwa [hcnt, Nat.zero_add] at hend

/-- Settles O22: `OCRA` holds the sum in 16 bits; the rest is the accepted edge as it stands. -/
theorem acceptedEdgeArmsCompareA : Obligations.AcceptedEdgeArmsCompareA := fun s hrun hacc =>
  ⟨acceptEdge s, exec_zcEdge_accepted hrun hacc, BitVec.toNat_ofNat _ _, rfl⟩

/-- Settles O24: below the limit nothing follows the counting. -/
theorem rejectedEdgeIsOnlyCounted : Obligations.RejectedEdgeIsOnlyCounted := fun s hrun hval href hout hbelow =>
  ⟨_, exec_zcEdge_counted ⟨hrun, hval, href⟩ hout hbelow, countRejected_invalidCnt _ s, countRejected_oosDir _ s, rfl⟩

/-- Settles O25: the edge is counted first, and the count saved is the one that met the limit. -/
theorem rejectedEdgeAtTheLimitLosesSync : Obligations.RejectedEdgeAtTheLimitLosesSync := by
  intro s hrun hval href hout hlimit
  have hcount := countRejected_invalidCnt (elapsed s.time.now s.sync.lastEdge) s
  have hdir := countRejected_oosDir (elapsed s.time.now s.sync.lastEdge) s
  have hmains := syncLost_mains (countRejected (elapsed s.time.now s.sync.lastEdge) s)
  have hedge := exec_zcEdge_lost ⟨hrun, hval, href⟩ hout hlimit
  rw [syncLost_eq] at hmains hedge
  exact ⟨_, hedge, hcount, hdir, rfl, rfl, hmains, rfl⟩

/-- Settles O27: the misfire is counted, which leaves the reference edge; so the genuine edge is measured from the same edge
as without the misfire. -/
theorem misfireDoesNotDisturbTheNextEdge : Obligations.MisfireDoesNotDisturbTheNextEdge := by
  intro s m g hrun hval href hzero hlimit hearly hmin hmax hwindow
  have hmisfire := edgesAt_cons_counted ⟨hrun, hval, href⟩ (n := m) (.inl hearly)
    (by rw [hzero]; exact hlimit)
  have hgenuine : exec .zcEdge { rejectedAt s m with time.now := g } =
      .next (acceptEdge { rejectedAt s m with time.now := g }) :=
    exec_zcEdge_accepted hrun (.inr ⟨href, hmin, hmax⟩)
  have hcount : (rejectedAt s m).sync.invalidCnt = 1#16 :=
    BitVec.eq_of_toNat_eq (by rw [rejectedAt_invalidCnt, hzero]; rfl)
  have hdir : (rejectedAt s m).sync.oosDir = false :=
    decide_eq_false (Nat.not_lt.mpr (Nat.le_of_lt (Nat.lt_of_lt_of_le hearly hwindow)))
  exact ⟨rejectedAt s m, _, hmisfire [], hcount, hdir, rfl, rfl, rfl, rfl,
    (hmisfire [g]).trans (edgesAt_cons hgenuine []), hrun, rfl, rfl, rfl⟩

/-- Settles O21: an edge has no effect in these two phases. -/
theorem edgeIsIgnoredWhenStopped : Obligations.EdgeIsIgnoredWhenStopped := fun _ => exec_zcEdge_stopped

/-- Settles O23: without a reference edge there is nothing to validate against. -/
theorem seedEdgeOnlyBecomesTheReference : Obligations.SeedEdgeOnlyBecomesTheReference := fun _ => exec_zcEdge_seed
end

section
/-! The edge that ends a measurement pass (44_frequency_measurement.md R202 to R205): the delta it stores, what the filter
makes of the deltas, and the state after a pass that gives a frequency (R117) or none. -/

namespace Sys2Proof.Machine

/-! ## The last delta (R202) -/

/-- From edge number `MEAS_WARMUP + 2` on, an edge is counted, time-stamped, and its delta stored. -/
theorem storeDelta_of_le {s : State} (h : s.params.measWarmup + 2 ≤ min (s.meas.seen.toNat + 1) 65535) :
    storeDelta s = { s with
      meas.seen := BitVec.ofNat 16 (min (s.meas.seen.toNat + 1) 65535)
      meas.buf := s.meas.buf.set s.meas.cnt.toNat (s.time.now - s.meas.prev)
      meas.cnt := s.meas.cnt + 1
      meas.prev := s.time.now } := by
  simp [storeDelta, sat16, h]

/-- The number of deltas fits its register, since there are at most 64 of them (R36). -/
theorem cnt_add_one_toNat {c : BitVec 7} {n : Nat} (hn : n ≤ 64) (h : c.toNat + 1 = n) : (c + 1).toNat = n := by
  have hsum : (c + 1).toNat = (c.toNat + 1) % 2 ^ 7 := BitVec.toNat_add c 1
  omega

/-- The edge that stores the last delta ends the pass. -/
theorem edgeMeasuring_last {s : State} (hn : s.params.measNSamples ≤ 64)
    (hlast : s.meas.cnt.toNat + 1 = s.params.measNSamples)
    (hstored : s.params.measWarmup + 2 ≤ min (s.meas.seen.toNat + 1) 65535) :
    edgeMeasuring s = measFinish (storeDelta s) := by
  have hfull : (storeDelta s).meas.cnt.toNat = (storeDelta s).params.measNSamples := by
    rw [storeDelta_of_le hstored]
    exact cnt_add_one_toNat hn hlast
  exact if_pos hfull

/-! ## The filter (R203 to R205) -/

theorem usable_iff_spec {p : Params} {f : Nat} : usable p f = true ↔ Spec.Usable p f := usable_iff

/-- The filter in the formulas of the specification. -/
theorem filterResult_eq_spec (p : Params) (dev : Nat) (buf : List Word) :
    filterResult p dev buf =
      if (Spec.s1 p (buf.map BitVec.toNat)).length < p.measMinValid then none
      else if (Spec.s2 p dev (buf.map BitVec.toNat)).length < p.measMinValid then none
      else if usable p (Spec.measured p dev (buf.map BitVec.toNat)) then some (Spec.measured p dev (buf.map BitVec.toNat))
      else none := rfl

theorem filterResult_of_passSucceeds {p : Params} {dev : Nat} {buf : List Word}
    (h : Spec.PassSucceeds p dev (buf.map BitVec.toNat)) :
    filterResult p dev buf = some (Spec.measured p dev (buf.map BitVec.toNat)) := by
  obtain ⟨hstage1, hstage2, husable⟩ := h
  rw [filterResult_eq_spec, if_neg (Nat.not_lt.mpr hstage1), if_neg (Nat.not_lt.mpr hstage2),
    if_pos (usable_iff_spec.mpr husable)]

theorem filterResult_of_not_passSucceeds {p : Params} {dev : Nat} {buf : List Word}
    (h : ¬ Spec.PassSucceeds p dev (buf.map BitVec.toNat)) : filterResult p dev buf = none := by
  rw [filterResult_eq_spec]
  split
  case isTrue => rfl
  case isFalse hstage1 =>
    split
    case isTrue => rfl
    case isFalse hstage2 =>
      exact if_neg fun husable => h ⟨Nat.not_lt.mp hstage1, Nat.not_lt.mp hstage2, usable_iff_spec.mp husable⟩

/-! ## The end of the pass -/

theorem measFinish_of_some {s : State} {f : Nat}
    (h : filterResult s.params s.cfg.syncDev.toNat s.meas.buf = some f) : measFinish s = passDone f s := by
  rw [measFinish, h, passDone]

theorem measFinish_of_none {s : State} (h : filterResult s.params s.cfg.syncDev.toNat s.meas.buf = none) :
    measFinish s = measFail s := by
  rw [measFinish, h]

theorem freqWord_toNat {f : Nat} (h : f < 2 ^ 32) : (freqWord f).toNat = f := by
  rw [freqWord, if_pos h, BitVec.toNat_ofNat, Nat.mod_eq_of_lt h]

/-- The half-wave length of a usable frequency fits `H_TICKS` (R150). -/
theorem passDone_hTicks {s : State} {f : Nat} (h : usable s.params f = true) :
    (passDone f s).mains.hTicks.toNat = hOf s.params f := by
  obtain ⟨-, -, hmax⟩ := usable_iff.mp h
  exact (BitVec.toNat_ofNat _ _).trans (Nat.mod_eq_of_lt (by omega))

/-- The window around the half-wave length (R117). -/
theorem passDone_window {s : State} {f : Nat} (h : usable s.params f = true) (hdev : s.cfg.syncDev.toNat ≤ 100) :
    (passDone f s).sync.hwMin.toNat = hOf s.params f - percentOf (hOf s.params f) s.cfg.syncDev.toNat ∧
    (passDone f s).sync.hwMax.toNat = hOf s.params f + percentOf (hOf s.params f) s.cfg.syncDev.toNat := by
  obtain ⟨-, -, hmax⟩ := usable_iff.mp h
  have hticks := passDone_hTicks h
  have hle := percentOf_le (hOf s.params f) s.cfg.syncDev.toNat hdev
  have hwMin : (passDone f s).sync.hwMin = BitVec.ofNat 32 ((passDone f s).mains.hTicks.toNat -
      percentOf (passDone f s).mains.hTicks.toNat s.cfg.syncDev.toNat) := rfl
  have hwMax : (passDone f s).sync.hwMax = BitVec.ofNat 32 ((passDone f s).mains.hTicks.toNat +
      percentOf (passDone f s).mains.hTicks.toNat s.cfg.syncDev.toNat) := rfl
  rw [hwMin, hwMax, hticks, BitVec.toNat_ofNat, BitVec.toNat_ofNat]
  exact ⟨Nat.mod_eq_of_lt (by omega), Nat.mod_eq_of_lt (by omega)⟩

end Sys2Proof.Machine

open Sys2Proof Sys2Proof.Machine

/-- Settles O30: by cases on whether the filter gives a frequency for the deltas with the last one stored. -/
theorem lastDeltaEndsThePass : Obligations.LastDeltaEndsThePass := by
  intro s hmeas hn hdev hlast hstored
  have hstore := storeDelta_of_le hstored
  have hcnt := cnt_add_one_toNat hn hlast
  have hseen : (BitVec.ofNat 16 (min (s.meas.seen.toNat + 1) 65535)).toNat = min (s.meas.seen.toNat + 1) 65535 := by
    rw [BitVec.toNat_ofNat]; omega
  have hedge : exec .zcEdge s = .next (measFinish (storeDelta s)) := by
    rw [exec_zcEdge_measuring hmeas, edgeMeasuring_last hn hlast hstored]
  rw [hstore] at hedge
  by_cases hpass : Spec.PassSucceeds s.params s.cfg.syncDev.toNat
      ((s.meas.buf.set s.meas.cnt.toNat (s.time.now - s.meas.prev)).map BitVec.toNat)
  · rw [measFinish_of_some (filterResult_of_passSucceeds hpass)] at hedge
    have ⟨_, _, hspec⟩ := hpass
    have husable := usable_iff_spec.mpr hspec
    obtain ⟨hpositive, -⟩ := hspec
    obtain ⟨hwMin, hwMax⟩ := passDone_window husable hdev
    exact ⟨_, _, hedge, rfl, rfl, ⟨rfl, hcnt, rfl, rfl, hseen⟩, rfl,
      fun _ => ⟨_, _, _, rfl, rfl, rfl, freqWord_toNat, freqWord_ne_zero hpositive, passDone_hTicks husable, rfl, rfl,
        hwMin, hwMax, rfl⟩,
      fun hno => absurd hpass hno⟩
  · rw [measFinish_of_none (filterResult_of_not_passSucceeds hpass)] at hedge
    exact ⟨_, _, hedge, rfl, rfl, ⟨rfl, hcnt, rfl, rfl, hseen⟩, rfl, fun h => absurd h hpass,
      fun _ => ⟨rfl, rfl, rfl, rfl, rfl⟩⟩
end

section
/-! The half-wave profile (41_halfwave_scheduler.md R140), said through the schedule position: the pins, compare B and
`IDX` agree with each other, and `IDX` agrees with the counter. `HW_START` brings both about, `TICK` leaves the first and
`HW_TOGGLE` restores the second; every other operation keeps what they depend on or stops the switching side. -/

namespace Sys2Proof.Machine

/-! ## The pins of a range of entries (R138) -/

/-- Among the entries from number `i` up to (not including) `j`, the channel of entry `n` is that of entry `n` alone. -/
theorem exists_slot_ch_iff {nch : Nat} {b : Buffer} (h : b.WellFormed nch) {i j n : Nat} (hj : j ≤ b.count.toNat)
    (hn : n < b.count.toNat) :
    (∃ k, k < j ∧ i ≤ k ∧ (b.slot k).ch.toNat = (b.slot n).ch.toNat) ↔ i ≤ n ∧ n < j := by
  constructor
  · rintro ⟨k, hkj, hik, hch⟩
    obtain rfl := real_ch_inj h (Nat.lt_of_lt_of_le hkj hj) hn (BitVec.eq_of_toNat_eq hch)
    exact ⟨hik, hkj⟩
  · rintro ⟨hin, hnj⟩
    exact ⟨n, hnj, hin, rfl⟩

theorem schedules_slot {nch : Nat} {b : Buffer} (h : b.WellFormed nch) {n : Nat} (hn : n < b.count.toNat) :
    b.schedules (b.slot n).ch.toNat = true :=
  (schedules_iff b _).mpr ⟨_, (mem_real_iff h _).mpr ⟨n, hn, rfl⟩, rfl⟩

theorem slot_ch_lt {nch : Nat} {b : Buffer} (h : b.WellFormed nch) {n : Nat} (hn : n < b.count.toNat) :
    (b.slot n).ch.toNat < nch := h.ch_lt ((mem_real_iff h _).mpr ⟨n, hn, rfl⟩)

/-- Toggling a range of entries flips the pin of an entry exactly when the entry lies in the range. -/
theorem toggleAll_range_entry {nch : Nat} {b : Buffer} (h : b.WellFormed nch) (hnch : nch ≤ 8) (out : Byte)
    {i j n : Nat} (hij : i ≤ j) (hj : j ≤ b.count.toNat) (hn : n < b.count.toNat) :
    (toggleAll ((b.real.drop i).take (j - i)) out).getLsbD (b.slot n).ch.toNat =
      Bool.xor (out.getLsbD (b.slot n).ch.toNat) (decide (i ≤ n ∧ n < j)) := by
  rw [toggleAll_range h out hij hj (Nat.lt_of_lt_of_le (slot_ch_lt h hn) hnch)]
  simp only [exists_slot_ch_iff h hj hn]

/-- Toggling a range of entries leaves the pin of a channel without an entry. -/
theorem toggleAll_range_bypass {nch : Nat} {b : Buffer} (h : b.WellFormed nch) (out : Byte) {i j c : Nat} (hij : i ≤ j)
    (hj : j ≤ b.count.toNat) (hc : c < 8) (hno : b.schedules c = false) :
    (toggleAll ((b.real.drop i).take (j - i)) out).getLsbD c = out.getLsbD c := by
  have hnone : ¬ ∃ k, k < j ∧ i ≤ k ∧ (b.slot k).ch.toNat = c := by
    rintro ⟨k, hkj, -, rfl⟩
    rw [schedules_slot h (Nat.lt_of_lt_of_le hkj hj)] at hno
    cases hno
  rw [toggleAll_range h out hij hj hc, decide_eq_false hnone, Bool.xor_false]

/-! ## The profile, read at the schedule position -/

/-- The pins and compare B are those of the schedule position `IDX`: the entries before it are switched, the others are
not, a channel without an entry holds its `nz_mask` bit, and compare B waits for the entry at `IDX` while there is one. -/
structure State.SwitchedToIdx (s : State) : Prop where
  entries : ∀ n < s.sched.act.count.toNat, s.out.getLsbD (s.sched.act.slot n).ch.toNat =
    if n < s.sched.idx.toNat then s.sched.act.lead else !s.sched.act.lead
  bypass : ∀ c < s.params.nch, s.sched.act.schedules c = false → s.out.getLsbD c = s.sched.act.nzMask.getLsbD c
  armed : s.time.cmpbEn = decide (s.sched.idx.toNat < s.sched.act.count.toNat)
  compare : s.sched.idx.toNat < s.sched.act.count.toNat → s.time.ocrb = (s.sched.act.slot s.sched.idx.toNat).ticks

/-- The profile of R140: the pins and compare B fit the schedule position, and the position fits the counter. -/
theorem halfWaveProfile_iff {s : State} (h : s.sched.act.WellFormed s.params.nch) :
    s.HalfWaveProfile ↔ s.SwitchedToIdx ∧ s.sched.idx.toNat = s.sched.act.passed s.time.hwTcnt.toNat := by
  constructor
  · rintro ⟨hpins, hbypass, hidx, harmed, hcompare⟩
    refine ⟨⟨fun n hn => ?_, hbypass, harmed, fun hlt => hcompare (by simp [harmed, hlt])⟩, hidx⟩
    rw [hpins _ ((mem_real_iff h _).mpr ⟨n, hn, rfl⟩)]
    simp only [hidx, lt_passed_iff h _ hn]
  · rintro ⟨⟨hentries, hbypass, harmed, hcompare⟩, hidx⟩
    refine ⟨fun e he => ?_, hbypass, hidx, harmed, fun hen => hcompare (by simpa [harmed] using hen)⟩
    obtain ⟨n, hn, rfl⟩ := (mem_real_iff h e).mp he
    rw [hentries n hn]
    simp only [hidx, lt_passed_iff h _ hn]

/-- The entry at the position that fits the counter still lies ahead, so compare B does not match. -/
theorem toggleDue_of_profile {s : State} (h : s.sched.act.WellFormed s.params.nch) (hs : s.HalfWaveProfile) :
    toggleDue s = false := by
  obtain ⟨hsw, hidx⟩ := (halfWaveProfile_iff h).mp hs
  refine Bool.eq_false_iff.mpr fun hdue => ?_
  obtain ⟨hen, hmatch⟩ := toggleDue_iff.mp hdue
  have hlt : s.sched.idx.toNat < s.sched.act.count.toNat := by simpa [hsw.armed] using hen
  have hticks : (s.sched.act.slot s.sched.idx.toNat).ticks.toNat ≤ s.time.hwTcnt.toNat := by
    rw [hmatch, hsw.compare hlt]
  have hpassed := (lt_passed_iff h _ hlt).mpr hticks
  omega

/-! ## `HW_START` (R131 to R135) -/

/-- The number of tick-zero entries fits in `IDX`. -/
theorem zeroEntries_idx {nch : Nat} {b : Buffer} (h : b.WellFormed nch) (hnch : nch ≤ 8) :
    (BitVec.ofNat 4 (zeroEntries b).length).toNat = b.passed 0 := by
  have hpassed : b.passed 0 ≤ 8 := ((passed_le h 0).trans h.count_le).trans hnch
  rw [zeroEntries_length h, BitVec.toNat_ofNat, Nat.mod_eq_of_lt (by omega)]

theorem hwStart_profile {s t : State} (hnch : s.params.nch ≤ 8) (hnext : s.sched.next.WellFormed s.params.nch)
    (h : exec .hwStart s = .next t) : t.HalfWaveProfile := by
  have hidx := zeroEntries_idx hnext hnch
  have hpassed := passed_le hnext 0
  have hlen := zeroEntries_length hnext
  cases h
  refine (halfWaveProfile_iff hnext).mpr ⟨⟨fun n hn => ?_, fun c hc hno => ?_, ?_, fun hlt => ?_⟩, hidx⟩
  · have hstart : (startLevels s.params.nch s.sched.next).getLsbD (s.sched.next.slot n).ch.toNat =
        !s.sched.next.lead := by
      simp [startLevels_getLsbD _ _ _ hnch, slot_ch_lt hnext hn, schedules_slot hnext hn]
    simp only [zeroEntries_eq hnext] at hidx ⊢
    rw [toggleAll_range_entry hnext hnch _ (Nat.zero_le _) hpassed hn, hstart, hidx]
    by_cases hlt : n < s.sched.next.passed 0 <;> simp [hlt]
  · have hstart : (startLevels s.params.nch s.sched.next).getLsbD c = s.sched.next.nzMask.getLsbD c := by
      simp [startLevels_getLsbD _ _ _ hnch, hc, hno]
    simp only [zeroEntries_eq hnext]
    rw [toggleAll_range_bypass hnext _ (Nat.zero_le _) hpassed (Nat.lt_of_lt_of_le hc hnch) hno, hstart]
  · change decide ((zeroEntries s.sched.next).length < s.sched.next.count.toNat) =
      decide ((BitVec.ofNat 4 (zeroEntries s.sched.next).length).toNat < s.sched.next.count.toNat)
    rw [hidx, hlen]
  · simp only [hidx] at hlt ⊢
    simp only [hlen, decide_eq_true hlt, if_true]

/-- The pins of channels that do not exist stay 0 (R30). -/
theorem hwStart_out_lt {s t : State} (hnext : s.sched.next.WellFormed s.params.nch) (h : exec .hwStart s = .next t) :
    t.out.toNat < 2 ^ s.params.nch := by
  cases h
  exact toggleAll_lt _ _ _ (maskOf_lt _ _) fun e he => hnext.ch_lt (List.takeWhile_subset _ he)

/-- The values `HW_START` writes whatever the schedule is, and its frame (R131, R132, R137). -/
theorem hwStart_effect {s t : State} (h : exec .hwStart s = .next t) :
    t = { s with time := t.time, sched := t.sched, out := t.out, eng := t.eng } ∧
    (t.time.now = s.time.now ∧ t.time.ocra = s.time.ocra ∧ t.time.cmpaEn = false ∧ t.time.hwTcnt = 0#16) ∧
    (t.sched.act = s.sched.next ∧ t.sched.next = s.sched.next ∧ t.sched.scratch = s.sched.scratch) ∧
    (t.time.cmpbEn = false → t.time.ocrb = s.time.ocrb) ∧
    t.eng = if s.eng = .idle then .calcPending else s.eng := by
  cases h
  exact ⟨rfl, ⟨rfl, rfl, rfl, rfl⟩, ⟨rfl, rfl, rfl⟩, fun hoff => if_neg (Bool.eq_false_iff.mp hoff), rfl⟩

theorem ticks_le_zero {e : Entry} : e.ticks.toNat ≤ 0 ↔ e.ticks = 0#16 := by
  rw [Nat.le_zero]
  exact BitVec.toNat_inj (y := 0#16)

/-- The entries passed at tick 0 are those with offset 0. -/
theorem passed_zero (b : Buffer) : b.passed 0 = (b.real.filter fun e => e.ticks == 0#16).length := by
  simp only [Buffer.passed, ticks_le_zero, beq_eq_decide]

/-! ## `HW_TOGGLE` (R138, R139) -/

/-- The state after a compare B match that toggles the entries from `IDX` up to (not including) number `j`. -/
def toggledTo (j : Nat) (s : State) : State :=
  { s with
    out := toggleAll ((s.sched.act.real.drop s.sched.idx.toNat).take (j - s.sched.idx.toNat)) s.out
    sched.idx := BitVec.ofNat 4 j
    time.ocrb := if j < s.sched.act.count.toNat then
      rearmValue s.params (s.sched.act.slot j).ticks s.time.hwTcnt else s.time.ocrb
    time.cmpbEn := if j < s.sched.act.count.toNat then s.time.cmpbEn else false }

@[simp] theorem toggledTo_params (j : Nat) (s : State) : (toggledTo j s).params = s.params := rfl
@[simp] theorem toggledTo_act (j : Nat) (s : State) : (toggledTo j s).sched.act = s.sched.act := rfl
@[simp] theorem toggledTo_hwTcnt (j : Nat) (s : State) : (toggledTo j s).time.hwTcnt = s.time.hwTcnt := rfl
@[simp] theorem toggledTo_out (j : Nat) (s : State) : (toggledTo j s).out =
    toggleAll ((s.sched.act.real.drop s.sched.idx.toNat).take (j - s.sched.idx.toNat)) s.out := rfl
@[simp] theorem toggledTo_cmpbEn (j : Nat) (s : State) : (toggledTo j s).time.cmpbEn =
    if j < s.sched.act.count.toNat then s.time.cmpbEn else false := rfl
@[simp] theorem toggledTo_ocrb (j : Nat) (s : State) : (toggledTo j s).time.ocrb =
    if j < s.sched.act.count.toNat then rearmValue s.params (s.sched.act.slot j).ticks s.time.hwTcnt
    else s.time.ocrb := rfl

/-- `j` is the number of the first entry past those with the offset of entry `i` (R138). -/
structure Buffer.GroupEnd (b : Buffer) (i j : Nat) : Prop where
  past : i < j
  le_count : j ≤ b.count.toNat
  same_offset : ∀ k, i ≤ k → k < b.count.toNat → ((b.slot k).ticks = (b.slot i).ticks ↔ k < j)

/-- `HW_TOGGLE` with an entry left toggles all entries of one offset, and no others. -/
theorem exec_hwToggle_group {s : State} (h : s.sched.act.WellFormed s.params.nch)
    (hmore : s.sched.idx.toNat < s.sched.act.count.toNat) :
    ∃ j, s.sched.act.GroupEnd s.sched.idx.toNat j ∧ exec .hwToggle s = .next (toggledTo j s) := by
  obtain ⟨j, hij, hj, htake, hlen, hsame⟩ := toggleGroup_spec h hmore
  have hend : s.sched.idx.toNat + (toggleGroup (s.sched.act.real.drop s.sched.idx.toNat)).length = j := by omega
  refine ⟨j, ⟨hij, hj, hsame⟩, ?_⟩
  change execHwToggle s = _
  rw [execHwToggle_more hmore]
  simp only [hend]
  rw [htake, toggledTo]

theorem toggledTo_idx {s : State} {j : Nat} (h : s.sched.act.WellFormed s.params.nch) (hnch : s.params.nch ≤ 8)
    (hj : j ≤ s.sched.act.count.toNat) : (toggledTo j s).sched.idx.toNat = j := by
  have hj8 : j ≤ 8 := (hj.trans h.count_le).trans hnch
  exact (BitVec.toNat_ofNat ..).trans (Nat.mod_eq_of_lt (by omega))

/-- The entry past a group has a later offset. -/
theorem Buffer.GroupEnd.ticks_lt {nch : Nat} {b : Buffer} {i j : Nat} (hg : b.GroupEnd i j) (h : b.WellFormed nch)
    (hj : j < b.count.toNat) : (b.slot i).ticks.toNat < (b.slot j).ticks.toNat := by
  have hle := slot_mono h (Nat.le_of_lt hg.past) hj
  have hne : (b.slot j).ticks ≠ (b.slot i).ticks := fun he =>
    Nat.lt_irrefl j ((hg.same_offset j (Nat.le_of_lt hg.past) hj).mp he)
  have hne' : (b.slot j).ticks.toNat ≠ (b.slot i).ticks.toNat := fun he => hne (BitVec.eq_of_toNat_eq he)
  omega

/-- The end of a group is the number of entries passed at the offset of the group. -/
theorem Buffer.GroupEnd.eq_passed {nch : Nat} {b : Buffer} {i j : Nat} (hg : b.GroupEnd i j) (h : b.WellFormed nch) :
    j = b.passed (b.slot i).ticks.toNat := by
  have hpast := hg.past
  have hcount := hg.le_count
  refine Machine.eq_passed h _ j hcount (fun k hk => ?_) (hg.ticks_lt h)
  rcases Nat.le_total k i with hki | hik
  · exact slot_mono h hki (by omega)
  · rw [(hg.same_offset k hik (by omega)).mpr hk]

/-- With `MIN_LEAD` = 1 a next offset that lies ahead is armed as it is (R139). -/
theorem rearmValue_of_lt {p : Params} {next hwTcnt : Half} (hlead : p.minLead = 1) (h : hwTcnt.toNat < next.toNat) :
    rearmValue p next hwTcnt = next := by
  rw [rearmValue, hlead, Nat.max_eq_left h, BitVec.ofNat_toNat, BitVec.setWidth_eq]

/-- A compare B match at the offset of the entry at `IDX` brings the position up to the counter. -/
theorem toggledTo_profile {s : State} {j : Nat} (hact : s.sched.act.WellFormed s.params.nch) (hnch : s.params.nch ≤ 8)
    (hlead : s.params.minLead = 1) (hs : s.SwitchedToIdx) (hg : s.sched.act.GroupEnd s.sched.idx.toNat j)
    (hnow : s.time.hwTcnt = (s.sched.act.slot s.sched.idx.toNat).ticks) : (toggledTo j s).HalfWaveProfile := by
  have hidx := toggledTo_idx hact hnch hg.le_count
  have hpast := hg.past
  have hle := Nat.le_of_lt hpast
  have hmore : s.sched.idx.toNat < s.sched.act.count.toNat := Nat.lt_of_lt_of_le hpast hg.le_count
  refine (halfWaveProfile_iff (s := toggledTo j s) hact).mpr
    ⟨⟨fun n hn => ?_, fun c hc hno => ?_, ?_, fun hlt => ?_⟩, ?_⟩ <;>
    simp only [hidx, toggledTo_params, toggledTo_act, toggledTo_hwTcnt, toggledTo_out, toggledTo_cmpbEn,
      toggledTo_ocrb] at *
  · rw [toggleAll_range_entry hact hnch s.out hle hg.le_count hn, hs.entries n hn]
    by_cases hbefore : n < s.sched.idx.toNat
    · simp [hbefore, Nat.lt_trans hbefore hpast, Nat.not_le.mpr hbefore]
    · by_cases hgroup : n < j <;> simp [hbefore, hgroup, Nat.le_of_not_lt hbefore]
  · rw [toggleAll_range_bypass hact s.out hle hg.le_count (Nat.lt_of_lt_of_le hc hnch) hno, hs.bypass c hc hno]
  · simp [hs.armed, hmore]
  · have hlater := hg.ticks_lt hact hlt
    rw [← hnow] at hlater
    rw [if_pos hlt, rearmValue_of_lt hlead hlater]
  · rw [hnow]
    exact hg.eq_passed hact

/-! ## Slots 1 to 3 of a tick -/

/-- One tick later no further entry is passed, unless the next one has just this offset. -/
theorem passed_succ_of_ne {nch : Nat} {b : Buffer} (h : b.WellFormed nch) {k : Nat}
    (hne : b.passed k < b.count.toNat → (b.slot (b.passed k)).ticks.toNat ≠ k + 1) : b.passed k = b.passed (k + 1) := by
  have hle := passed_le h k
  refine eq_passed h (k + 1) (b.passed k) hle (fun i hi => ?_) (fun hlt => ?_)
  · have hi' := (lt_passed_iff h k (Nat.lt_of_lt_of_le hi hle)).mp hi
    omega
  · have hnot := mt (lt_passed_iff h k hlt).mpr (Nat.lt_irrefl _)
    have := hne hlt
    omega

/-- Slot 3, when the position fits the counter as it was before `TICK`. -/
theorem toggleSlot_profile {s t : State} {k : Nat} (hact : s.sched.act.WellFormed s.params.nch)
    (hnch : s.params.nch ≤ 8) (hlead : s.params.minLead = 1) (hs : s.SwitchedToIdx)
    (hidx : s.sched.idx.toNat = s.sched.act.passed k) (htcnt : s.time.hwTcnt.toNat = k + 1)
    (h : slot (toggleDue s) .hwToggle s = .next t) : t.HalfWaveProfile := by
  rcases slot_eq_next.mp h with ⟨hdue, hx⟩ | ⟨hdue, rfl⟩
  · obtain ⟨hen, hmatch⟩ := toggleDue_iff.mp hdue
    have hmore : s.sched.idx.toNat < s.sched.act.count.toNat := by simpa [hs.armed] using hen
    obtain ⟨j, hg, hj⟩ := exec_hwToggle_group hact hmore
    rw [hj] at hx
    cases hx
    exact toggledTo_profile hact hnch hlead hs hg (hmatch.trans (hs.compare hmore))
  · refine (halfWaveProfile_iff hact).mpr ⟨hs, ?_⟩
    rw [htcnt, hidx]
    refine passed_succ_of_ne hact fun hlt hticks => ?_
    rw [← hidx] at hlt hticks
    have hmatch : s.time.hwTcnt = s.time.ocrb :=
      BitVec.eq_of_toNat_eq (by rw [hs.compare hlt, htcnt, hticks])
    have hdue' : toggleDue s = true := toggleDue_iff.mpr ⟨by simp [hs.armed, hlt], hmatch⟩
    simp [hdue'] at hdue

/-- Slots 2 and 3, when the position fits the counter as it was before `TICK`: the next half-wave starts, or the entries
of the new tick are toggled. -/
theorem startToggleSlots_profile {s s2 t : State} {k : Nat} (hinv : s.Inv) (hlead : s.params.minLead = 1)
    (hs : s.SwitchedToIdx) (hidx : s.sched.idx.toNat = s.sched.act.passed k) (htcnt : s.time.hwTcnt.toNat = k + 1)
    (h2 : slot (startDue s) .hwStart s = .next s2) (h3 : slot (toggleDue s2) .hwToggle s2 = .next t) :
    t.HalfWaveProfile := by
  obtain ⟨hact, hnext, -⟩ := hinv.schedules
  rcases slot_eq_next.mp h2 with ⟨-, hx⟩ | ⟨-, rfl⟩
  · have hstart := hwStart_profile hinv.nch_le hnext hx
    have hact2 : s2.sched.act.WellFormed s2.params.nch := by cases hx; exact hnext
    rw [toggleDue_of_profile hact2 hstart] at h3
    cases h3
    exact hstart
  · exact toggleSlot_profile hact hinv.nch_le hlead hs hidx htcnt h3

/-- A counter that does not wrap is one more after `TICK` (R130). -/
theorem hwTcnt_succ {c : Half} (hwrap : c ≠ 65535#16) : (c + 1).toNat = c.toNat + 1 := by
  have hne : c.toNat ≠ 65535 := fun he => hwrap (BitVec.eq_of_toNat_eq he)
  bv_omega

/-- Slots 1 to 3. -/
theorem firstSlots_profile {s s1 s2 s3 : State} (hinv : s.Inv) (hlead : s.params.minLead = 1)
    (hwrap : s.time.hwTcnt ≠ 65535#16) (hs : s.HalfWaveProfile) (h1 : exec .tick s = .next s1)
    (h2 : slot (startDue s1) .hwStart s1 = .next s2) (h3 : slot (toggleDue s2) .hwToggle s2 = .next s3) :
    s3.HalfWaveProfile := by
  obtain ⟨hact, -⟩ := hinv.schedules
  obtain ⟨⟨hentries, hbypass, harmed, hcompare⟩, hidx⟩ := (halfWaveProfile_iff hact).mp hs
  have hinv1 : s1.Inv := exec_inv (by simp [Enabled]) hinv h1
  cases h1
  exact startToggleSlots_profile hinv1 hlead ⟨hentries, hbypass, harmed, hcompare⟩ hidx (hwTcnt_succ hwrap) h2 h3

/-! ## The other operations -/

/-- Two states agree on everything that the profile depends on. -/
structure SameHalfWave (s t : State) : Prop where
  params : t.params = s.params
  out : t.out = s.out
  act : t.sched.act = s.sched.act
  idx : t.sched.idx = s.sched.idx
  hwTcnt : t.time.hwTcnt = s.time.hwTcnt
  ocrb : t.time.ocrb = s.time.ocrb
  cmpbEn : t.time.cmpbEn = s.time.cmpbEn

theorem SameHalfWave.profile {s t : State} (h : SameHalfWave s t) (hs : s.HalfWaveProfile) : t.HalfWaveProfile := by
  simpa only [State.HalfWaveProfile, h.params, h.out, h.act, h.idx, h.hwTcnt, h.ocrb, h.cmpbEn] using hs

/-- A stopped switching side (R116, R226, R280) has the profile of the empty schedule, at any counter. -/
theorem profile_of_off {s : State} (hout : s.out = 0#8) (hact : s.sched.act = Buffer.empty s.params.nch)
    (hidx : s.sched.idx = 0#4) (hcmpb : s.time.cmpbEn = false) : s.HalfWaveProfile := by
  refine (halfWaveProfile_iff (hact ▸ empty_wellFormed _)).mpr ⟨⟨?_, ?_, ?_, ?_⟩, ?_⟩ <;>
    simp [hout, hact, hidx, hcmpb, Buffer.passed, Buffer.empty, Buffer.real]

/-- The three operations of the scheduler. -/
def drivesPins (i : Instr) : Prop := i = .tick ∨ i = .hwStart ∨ i = .hwToggle

/-- Any other operation keeps the profile: it leaves the half-wave alone or stops the switching side. -/
theorem exec_profile {i : Instr} {s t : State} (hi : ¬ drivesPins i) (hs : s.HalfWaveProfile)
    (h : exec i s = .next t) : t.HalfWaveProfile := by
  have hf := exec_frame h
  cases i with
  | tick | hwStart | hwToggle => simp [drivesPins] at hi
  | zcEdge =>
    cases execZcEdge_outcome h with
    | lost el => rw [syncLost_eq]; exact profile_of_off rfl rfl rfl rfl
    | ignored => exact hs
    | accepted | seeded | rejected | stored | failed | measured =>
      exact SameHalfWave.profile ⟨rfl, rfl, rfl, rfl, rfl, rfl, rfl⟩ hs
  | start =>
    cases execStart_outcome h with
    | refused => exact SameHalfWave.profile ⟨rfl, rfl, rfl, rfl, rfl, rfl, rfl⟩ hs
    | override | measure => exact profile_of_off rfl rfl rfl rfl
  | setlvl | fade | fadea | setmode | setfreq | ack | wreg | rreg | measTimeout | engCalc | engPublish =>
    rw [hf]; exact SameHalfWave.profile ⟨rfl, rfl, rfl, rfl, rfl, rfl, rfl⟩ hs

theorem slot_profile {due : Bool} {i : Instr} {s t : State} (hi : ¬ drivesPins i) (hs : s.HalfWaveProfile)
    (h : slot due i s = .next t) : t.HalfWaveProfile := by
  rcases slot_eq_next.mp h with ⟨-, hx⟩ | ⟨-, rfl⟩
  · exact exec_profile hi hs hx
  · exact hs

/-- A command is no operation of the scheduler (R87). -/
theorem decodeCmd_not_drivesPins {w : CmdWord} {i : Instr} (h : decodeCmd w = .ok i) : ¬ drivesPins i := by
  obtain ⟨-, htoggle, -⟩ := decodeCmd_enabled h State.reset
  rintro (hi | hi | hi)
  · exact decodeCmd_not_movesWait h (.inl hi)
  · exact decodeCmd_not_movesWait h (.inr (.inl hi))
  · exact absurd (htoggle hi).1 (by decide)

theorem commandSlot_profile {cmd : Option CmdWord} {s t : State} (hs : s.HalfWaveProfile)
    (h : commandSlot cmd s = .next t) : t.HalfWaveProfile := by
  have hclear : ({ s with port.rvalid := false } : State).HalfWaveProfile :=
    SameHalfWave.profile ⟨rfl, rfl, rfl, rfl, rfl, rfl, rfl⟩ hs
  rcases commandSlot_eq_next.mp h with ⟨-, rfl⟩ | ⟨w, e, -, -, rfl⟩ | ⟨w, i, -, hdec, hx⟩
  · exact hclear
  · exact SameHalfWave.profile ⟨rfl, rfl, rfl, rfl, rfl, rfl, rfl⟩ hclear
  · exact exec_profile (decodeCmd_not_drivesPins hdec) hclear hx

/-- Slots 1 to 7: the first three move the half-wave on, the other four keep its profile. -/
theorem eventSlots_profile {i : TickInput} {s t : State} (hinv : s.Inv) (hlead : s.params.minLead = 1)
    (hwrap : s.time.hwTcnt ≠ 65535#16) (hs : s.HalfWaveProfile) (h : eventSlots i s = .next t) : t.HalfWaveProfile := by
  obtain ⟨s1, s2, s3, s4, s5, s6, h1, h2, h3, h4, h5, h6, h7⟩ := eventSlots_eq_next.mp h
  have p3 := firstSlots_profile hinv hlead hwrap hs h1 h2 h3
  have hsampled : (s3.sampleZc i.zc).HalfWaveProfile :=
    SameHalfWave.profile ⟨rfl, rfl, rfl, rfl, rfl, rfl, rfl⟩ p3
  have p4 := slot_profile (by simp [drivesPins]) hsampled h4
  have p5 := slot_profile (by simp [drivesPins]) p4 h5
  have p6 := slot_profile (by simp [drivesPins]) p5 h6
  exact slot_profile (by simp [drivesPins]) p6 h7

end Sys2Proof.Machine

open Sys2Proof.Machine

/-- Settles O19: slots 1 to 3 move the half-wave on by one tick or start the next one, every other slot keeps the profile or
stops the switching side, and so does reset. -/
theorem stepKeepsTheHalfWaveProfile : Obligations.StepKeepsTheHalfWaveProfile := by
  intro s t hinv hlead hwrap hs h
  have hpop : s.popInput.HalfWaveProfile := SameHalfWave.profile (by constructor <;> simp) hs
  rcases step_eq_next.mp h with ⟨-, rfl⟩ | ⟨-, u, hu, ht⟩
  · exact profile_of_off rfl rfl rfl rfl
  · have hevents := eventSlots_profile hinv.popInput (by simpa using hlead) (by simpa using hwrap) hpop hu
    exact commandSlot_profile hevents ht

/-- Settles O18: the start levels with the tick-zero entries toggled are the profile at counter 0. -/
theorem hwStartBeginsTheProfile : Obligations.HwStartBeginsTheProfile := by
  intro s t hlegal hnext h
  obtain ⟨⟨-, hnch⟩, -⟩ := hlegal
  exact hwStart_profile hnch hnext h

/-- Settles O15: the pins and `IDX` are the profile at counter 0, where an entry is passed exactly when its offset is 0. -/
theorem hwStartBeginsTheHalfWave : Obligations.HwStartBeginsTheHalfWave := by
  intro s hlegal hnext
  obtain ⟨⟨-, hnch⟩, -⟩ := hlegal
  obtain ⟨t, ht⟩ := exec_total .hwStart s
  obtain ⟨hframe, htime, hsched, hkept, heng⟩ := hwStart_effect ht
  have ⟨_, _, _, htcnt⟩ := htime
  have hparams := exec_params ht
  have hprofile := hwStart_profile hnch hnext ht
  have hlater := toggleDue_of_profile (by rw [hsched.1, hparams]; exact hnext) hprofile
  obtain ⟨hpins, hbypass, hidx, harmed, hcompare⟩ := hprofile
  refine ⟨t, ht, hframe, htime, hsched, fun e he => ?_, fun c hc hno => ?_, fun c hc => ?_, ?_, ?_, heng⟩
  · rw [hpins e he, htcnt]
    exact if_congr ticks_le_zero rfl rfl
  · refine hbypass c (by rwa [hparams]) (Bool.eq_false_iff.mpr fun hmem => ?_)
    obtain ⟨e, he, hch⟩ := (schedules_iff _ c).mp hmem
    exact hno e he hch
  · exact getLsbD_of_toNat_lt (hwStart_out_lt hnext ht) hc
  · rw [hidx, htcnt]
    exact passed_zero _
  · split
    next hmore =>
      have hen : t.time.cmpbEn = true := harmed.trans (decide_eq_true hmore)
      refine ⟨hen, hcompare hen, fun hzero => ?_⟩
      rw [toggleDue_iff.mpr ⟨hen, htcnt.trans hzero.symm⟩] at hlater
      cases hlater
    next hdone =>
      have hoff : t.time.cmpbEn = false := harmed.trans (decide_eq_false hdone)
      exact ⟨hoff, hkept hoff⟩

/-- Settles O16: the entries up to the end of the group are toggled as one range. -/
theorem hwToggleTogglesOneOffset : Obligations.HwToggleTogglesOneOffset := by
  intro s hlegal hact hmore
  obtain ⟨⟨-, hnch⟩, -⟩ := hlegal
  obtain ⟨j, hg, hj⟩ := exec_hwToggle_group hact hmore
  have hidx := toggledTo_idx hact hnch hg.le_count
  have hout {c : Nat} (hc : c < 8) := toggleAll_range hact s.out (Nat.le_of_lt hg.past) hg.le_count hc
  refine ⟨_, hj, rfl, ⟨rfl, rfl, rfl, rfl⟩, ?_⟩
  rw [hidx, toggledTo_out, toggledTo_cmpbEn, toggledTo_ocrb]
  refine ⟨hg.past, hg.le_count, hg.same_offset, fun c hc => ⟨?_, ?_⟩, ?_⟩
  · rintro ⟨k, hik, hkj, hch⟩
    rw [hout hc, decide_eq_true ⟨k, hkj, hik, hch⟩, Bool.xor_true]
  · intro hnone
    rw [hout hc, decide_eq_false fun ⟨k, hkj, hik, hch⟩ => hnone k hik hkj hch, Bool.xor_false]
  · split
    next hlt => exact ⟨rfl, BitVec.toNat_ofNat ..⟩
    next hdone => exact ⟨rfl, rfl⟩

/-- Settles O14: both counters are words of their width. -/
theorem tickAdvancesBothCounters : Obligations.TickAdvancesBothCounters := fun s =>
  ⟨_, rfl, BitVec.toNat_add s.time.now 1#32, BitVec.toNat_add s.time.hwTcnt 1#16, rfl⟩

/-- Settles O17: the first line of R138. -/
theorem hwToggleWithNothingLeftCancelsCompareB : Obligations.HwToggleWithNothingLeftCancelsCompareB := fun _ hdone =>
  execHwToggle_done hdone

/-- Settles O58: the request is an atomic test-and-set of the idle engine (R73). -/
theorem busyEngineDropsTheRequest : Obligations.BusyEngineDropsTheRequest := by
  intro s t hbusy h
  cases h
  exact if_neg hbusy
end

section
/-! The channel-timing calculator (42_channel_timing.md): the clamp of R151 is idle for a level in range, so the offsets are
in range, monotone in the level and given by the formula of R151 to R153; and the schedule of R154 to R156 is strictly
ordered, with the partly-on channels as its entries. -/

namespace Sys2Proof.Machine

/-! ## The offsets (R151 to R153) -/

/-- A level in range scales a number of ticks to at most that number. -/
theorem scaled_le {r l lm : Nat} (h : l ≤ lm) : r * l / lm ≤ r :=
  Nat.div_le_of_le_mul (Nat.mul_comm lm r ▸ Nat.mul_le_mul_left r h)

/-- For a level in range the clamp of R151 changes nothing. -/
theorem onTicks_of_level_le {p : Params} {l : Nat} (hl : l ≤ p.levelMax) (cfg : CfgRegs) (h : Nat) :
    onTicks p cfg l h =
      cfg.minOn.toNat + (h - cfg.minOn.toNat - cfg.minOff.toNat) * rescale p cfg l / p.levelMax := by
  rw [onTicks_eq, Nat.min_eq_left (scaled_le (rescale_le p cfg hl))]

theorem minOn_le_onTicks (p : Params) (cfg : CfgRegs) (l h : Nat) : cfg.minOn.toNat ≤ onTicks p cfg l h := by
  rw [onTicks_eq]
  exact Nat.le_add_right _ _

/-- The clamp of R151 leaves the off guard band free. -/
theorem onTicks_le {cfg : CfgRegs} {h : Nat} (hfit : cfg.minOn.toNat + cfg.minOff.toNat ≤ h) (p : Params) (l : Nat) :
    onTicks p cfg l h ≤ h - cfg.minOff.toNat := by
  rw [onTicks_eq]
  omega

theorem onTicks_mono (p : Params) (cfg : CfgRegs) {l l' : Nat} (hl : l ≤ l') (h : Nat) :
    onTicks p cfg l h ≤ onTicks p cfg l' h := by
  rw [onTicks_eq, onTicks_eq]
  have hscaled : (h - cfg.minOn.toNat - cfg.minOff.toNat) * rescale p cfg l / p.levelMax ≤
      (h - cfg.minOn.toNat - cfg.minOff.toNat) * rescale p cfg l' / p.levelMax :=
    Nat.div_le_div_right (Nat.mul_le_mul_left _ (rescale_mono p cfg hl))
  exact Nat.add_le_add_left (min_le_min_right _ hscaled) _

/-- With the mapping off, or that of R152 on, the model's mapping is the specification's. -/
theorem rescale_eq_spec {p : Params} {cfg : CfgRegs} (hmap : cfg.rangeDiv = 0#16 ∨ p.rescale = .rule152) (l : Nat) :
    rescale p cfg l = Spec.rescaled p cfg l := by
  by_cases hoff : cfg.rangeDiv = 0#16
  · rw [rescale, Spec.rescaled, if_pos hoff, if_pos hoff]
  · rw [rescale_rule152 (hmap.resolve_left hoff) hoff, Spec.rescaled, if_neg hoff]

/-! ## The schedule (R154 to R156) -/

theorem partlyOn_iff {p : Params} {l : Nat} : partlyOn p l = true ↔ 0 < l ∧ l < p.levelMax := decide_eq_true_iff

/-- An offset fits its 16-bit field (R31), since the half-wave length does. -/
theorem ticks_eq_swTicks_iff {cfg : CfgRegs} {h : Half} (hfit : cfg.minOn.toNat + cfg.minOff.toNat ≤ h.toNat) (p : Params)
    (l : Nat) (e : Entry) :
    e.ticks = BitVec.ofNat 16 (swTicks p cfg l h.toNat) ↔ e.ticks.toNat = swTicks p cfg l h.toNat := by
  have hlt : swTicks p cfg l h.toNat < 2 ^ 16 := Nat.lt_of_le_of_lt (swTicks_le p cfg l _ hfit) h.isLt
  rw [← BitVec.toNat_inj, BitVec.toNat_ofNat, Nat.mod_eq_of_lt hlt]

theorem mem_sortEntries {es : List Entry} {e : Entry} : e ∈ sortEntries es ↔ e ∈ es := (sortEntries_perm es).mem_iff

/-- Between entries of distinct channels the order of R155 is strict. -/
theorem sortEntries_strict {es : List Entry} (hdistinct : (es.map Entry.ch).Nodup) : (sortEntries es).Pairwise fun x y =>
    x.ticks.toNat < y.ticks.toNat ∨ (x.ticks = y.ticks ∧ x.ch.toNat < y.ch.toNat) := by
  have hne : (sortEntries es).Pairwise fun x y => x.ch ≠ y.ch :=
    List.pairwise_map.mp (((sortEntries_perm es).map Entry.ch).nodup_iff.mpr hdistinct)
  refine (sortEntries_pairwise es).imp₂ (fun x y hle hch => ?_) hne
  have hch : x.ch.toNat ≠ y.ch.toNat := fun h => hch (BitVec.eq_of_toNat_eq h)
  rw [entryLe_iff] at hle
  rw [← BitVec.toNat_inj]
  omega

/-- With guard bands that fit, the real entries of `calc()` are the partly-on channels at their offsets. -/
theorem mem_sorted_rawEntries {s : State} (hnch : s.params.nch ≤ 8)
    (hfit : s.cfg.minOn.toNat + s.cfg.minOff.toNat ≤ s.mains.hTicks.toNat) (e : Entry) :
    e ∈ sortEntries (rawEntries s) ↔
      e.ch.toNat < s.params.nch ∧ 0 < (s.chan e.ch.toNat).level ∧ (s.chan e.ch.toNat).level < s.params.levelMax ∧
        e.ticks.toNat = swTicks s.params s.cfg (s.chan e.ch.toNat).level s.mains.hTicks.toNat := by
  rw [mem_sortEntries, mem_rawEntries hnch, partlyOn_iff, ticks_eq_swTicks_iff hfit, and_assoc]

end Sys2Proof.Machine

open Sys2Proof Sys2Proof.Machine

/-- Settles O34: the clamp of R151 keeps the range, and scaling by a non-decreasing mapping is non-decreasing. -/
theorem onTicksInRangeAndMonotone : Obligations.OnTicksInRangeAndMonotone := fun p cfg h l _ _ hfit hl _ =>
  ⟨minOn_le_onTicks p cfg l h, onTicks_le hfit p l, onTicks_mono p cfg hl h⟩

/-- Settles O35: a level in range needs no clamp, and both mappings are those of the specification. -/
theorem switchOffsetFollowsTheFormula : Obligations.SwitchOffsetFollowsTheFormula := by
  refine ⟨fun p cfg h l hmap hl _ => ?_, by decide, by decide⟩
  rw [swTicks, onTicks_of_level_le hl, rescale_eq_spec hmap]

/-- Settles O36: `calc()` sorts the entries of the partly-on channels, whose channels are distinct. -/
theorem scheduleIsSortedAndComplete : Obligations.ScheduleIsSortedAndComplete := by
  rintro s ⟨⟨-, hnch⟩, -⟩
  refine ⟨fun hfit => ?_, calcSchedule_tooWide⟩
  have hcalc := calcSchedule_fits hfit
  have hlen : (sortEntries (rawEntries s)).length ≤ 15 := by
    rw [sortEntries_length]
    exact (rawEntries_length_le s).trans (by omega)
  refine ⟨_, hcalc, ?_, rfl, ?_, fun e => ?_, fun c hc => ?_⟩
  · have hwf := calcSchedule_wellFormed hnch
    rwa [hcalc] at hwf
  · rw [ofEntries_real _ _ _ _ hlen]
    exact sortEntries_strict (rawEntries_nodup hnch)
  · rw [ofEntries_real _ _ _ _ hlen]
    exact mem_sorted_rawEntries hnch hfit e
  · change (nonZeroMask s).getLsbD c = true ↔ _
    rw [nonZeroMask_getLsbD s hnch hc, decide_eq_true_iff]
end

section
/-! `ENG_CALC` (43_fading_engine.md R180): what one fade step does to a channel, and what the operation writes: the stepped
channels, the completions, the two events, and `SCRATCH` from the new levels. -/

namespace Sys2Proof.Machine

/-! ## One channel (R180) -/

theorem completes_iff {x : Channel} : x.completes = true ↔ x.remain = 1#32 := beq_iff_eq

/-- The last step snaps to the target (R178, R180). -/
theorem fadeStep_last_atLevel {lm : Nat} {x : Channel} (hlm : lm ≤ 32767) (hx : x.InRange lm) (hlast : x.remain = 1#32) :
    Spec.AtLevel x.target.toNat (fadeStep x) := by
  obtain ⟨-, -, htarget, -⟩ := hx
  have hle : x.target.toNat ≤ 32767 := htarget.trans hlm
  rw [fadeStep_last hlast]
  exact ⟨levelWord_toNat hle, rfl, rfl, target_toNat hle⟩

/-- Every other step is exact: neither the level nor the count wraps (R180, R184). -/
theorem fadeStep_more_exact {lm : Nat} {x : Channel} (hlm : lm ≤ 32767) (hx : x.InRange lm) (hmore : 2 ≤ x.remain.toNat) :
    (fadeStep x).levelFp.toInt = x.levelFp.toInt + x.step.toInt ∧
    (fadeStep x).remain.toNat = x.remain.toNat - 1 ∧ (fadeStep x).step = x.step ∧ (fadeStep x).target = x.target := by
  obtain ⟨hsum, -⟩ := add_step_toInt hlm hx (by omega)
  have hone : 1#32 ≤ x.remain := BitVec.le_def.mpr (Nat.le_of_lt hmore)
  rw [fadeStep_more hmore]
  exact ⟨hsum, BitVec.toNat_sub_of_le hone, rfl, rfl⟩

/-! ## What `ENG_CALC` writes -/

theorem raiseIf_evtPending (s : State) (b : Bool) (e : Event) :
    (s.raiseIf b e).tele.evtPending = s.tele.evtPending ||| if b then e.mask else 0#8 := by
  cases b
  · exact (BitVec.or_zero).symm
  · rfl

theorem calcSchedule_error (s : State) : (calcSchedule s).2 = guardsTooWide s.cfg s.mains.hTicks.toNat := by
  unfold calcSchedule
  split
  next hwide => exact hwide.symm
  next hfit => exact (Bool.eq_false_iff.mpr hfit).symm

/-- Of what the fade part changes, `calc()` reads the channels alone (R156). -/
theorem calcSchedule_advanceFades (s : State) :
    calcSchedule (advanceFades s) = calcSchedule { s with chans := s.chans.map fadeStep } := by
  rw [advanceFades_frame, advanceFades_chans]
  rfl

theorem advanceFades_evtPending (s : State) : (advanceFades s).tele.evtPending =
    s.tele.evtPending ||| if s.chans.any Channel.completes then Event.fadeDone.mask else 0#8 :=
  raiseIf_evtPending _ _ _

/-- The fields that `ENG_CALC` writes. -/
theorem engCalc_effect {s t : State} (h : exec .engCalc s = .next t) :
    t.eng = .publishPending ∧ t.chans = s.chans.map fadeStep ∧
    (t.tele.fadeDone = s.tele.fadeDone ||| maskOf s.params.nch fun c => (s.chan c).completes) ∧
    t.tele.fadeDoneLevel =
      List.zipWith (fun l x => if Channel.completes x then x.target else l) s.tele.fadeDoneLevel s.chans ∧
    (t.tele.evtPending = s.tele.evtPending |||
      (if s.chans.any Channel.completes then Event.fadeDone.mask else 0#8) |||
      (if guardsTooWide s.cfg s.mains.hTicks.toNat then Event.cfgErr.mask else 0#8)) ∧
    t.sched.scratch = (calcSchedule { s with chans := t.chans }).1 := by
  cases h
  have hchans : ((advanceFades s).raiseIf (calcSchedule (advanceFades s)).2 .cfgErr).chans = s.chans.map fadeStep := by
    simp
  refine ⟨rfl, hchans, by simp, by simp, ?_, ?_⟩
  · change (State.raiseIf _ _ _).tele.evtPending = _
    rw [raiseIf_evtPending, calcSchedule_advanceFades, calcSchedule_error, advanceFades_evtPending]
  · change _ = (calcSchedule { s with chans := (State.raiseIf _ _ _).chans }).1
    rw [hchans, ← calcSchedule_advanceFades]

/-- A channel after `ENG_CALC`. -/
theorem engCalc_chan {s t : State} (h : exec .engCalc s = .next t) {c : Nat} (hc : c < s.chans.length) :
    t.chan c = fadeStep (s.chan c) := by
  obtain ⟨-, hchans, -⟩ := engCalc_effect h
  rw [State.chan, hchans]
  exact chan_map s fadeStep c hc

/-- `FADE_DONE` after `ENG_CALC`. -/
theorem engCalc_fadeDone {s t : State} (h : exec .engCalc s = .next t) (hnch : s.params.nch ≤ 8) {c : Nat}
    (hc : c < s.params.nch) :
    t.tele.fadeDone.getLsbD c = (s.tele.fadeDone.getLsbD c || (s.chan c).remain == 1#32) := by
  obtain ⟨-, -, hdone, -⟩ := engCalc_effect h
  have hc8 : c < 8 := Nat.lt_of_lt_of_le hc hnch
  rw [hdone, BitVec.getLsbD_or, maskOf_getLsbD, decide_eq_true hc, decide_eq_true hc8]
  rfl

/-- `FADE_DONE_LEVEL` after `ENG_CALC`. -/
theorem engCalc_fadeDoneLevel {s t : State} (h : exec .engCalc s = .next t) {c : Nat} (hc : c < s.chans.length)
    (hlen : c < s.tele.fadeDoneLevel.length) :
    t.tele.fadeDoneLevel.getD c 0#16 =
      if (s.chan c).remain = 1#32 then (s.chan c).target else s.tele.fadeDoneLevel.getD c 0#16 := by
  obtain ⟨-, -, -, hlevels, -⟩ := engCalc_effect h
  rw [hlevels]
  simp [State.chan, hc, hlen, completes_iff]

/-- `EVT_PENDING` after `ENG_CALC` (R180, R250). -/
theorem engCalc_evtPending {s t : State} (h : exec .engCalc s = .next t) :
    t.tele.evtPending = s.tele.evtPending |||
      (if ∃ x ∈ s.chans, x.remain = 1#32 then 0x02#8 else 0#8) |||
      (if s.mains.hTicks.toNat < s.cfg.minOn.toNat + s.cfg.minOff.toNat then 0x40#8 else 0#8) := by
  obtain ⟨-, -, -, -, hevents, -⟩ := engCalc_effect h
  have hcompletes : s.chans.any Channel.completes = true ↔ ∃ x ∈ s.chans, x.remain = 1#32 := by
    simp only [List.any_eq_true, completes_iff]
  have hwide : guardsTooWide s.cfg s.mains.hTicks.toNat = true ↔
      s.mains.hTicks.toNat < s.cfg.minOn.toNat + s.cfg.minOff.toNat := decide_eq_true_iff
  rw [hevents, if_congr hcompletes rfl rfl, if_congr hwide rfl rfl]
  rfl

end Sys2Proof.Machine

open Sys2Proof.Machine

/-- Settles O42: each field that `ENG_CALC` writes is stepped by R180, within the bounds that keep the step exact. -/
theorem engCalcStepsFadesAndRebuilds : Obligations.EngCalcStepsFadesAndRebuilds := by
  rintro s ⟨⟨⟨-, hnch⟩, ⟨-, hlm⟩, -⟩, hlen, hdone, -, -⟩ hlevels
  obtain ⟨t, ht⟩ := exec_total .engCalc s
  obtain ⟨heng, hchans, -, hdoneLevel, -, hscratch⟩ := engCalc_effect ht
  have hframe := engCalc_frame ht
  rw [overwrite, heng] at hframe
  refine ⟨t, ht, hframe, by simp [hchans], by simp [hdoneLevel, hlen, hdone], fun c hc => ?_, engCalc_evtPending ht,
    hscratch⟩
  have hmem : c < s.chans.length := hlen ▸ hc
  have hrange := hlevels _ (s.chan_mem hmem)
  rw [engCalc_chan ht hmem]
  exact ⟨fadeStep_idle, fadeStep_last_atLevel hlm hrange, fadeStep_more_exact hlm hrange, engCalc_fadeDone ht hnch hc,
    engCalc_fadeDoneLevel ht hmem (hdone ▸ hc)⟩
end

section
/-! The level commands `SETLVL`, `FADE`, `FADEA` (43_fading_engine.md R170 to R178): what a command does to the channels its
operand names, and to each one of them; and the publication of `SCRATCH` (R181). -/

namespace Sys2Proof.Machine

/-! ## The operands (R175 to R177) -/

theorem norm_eq_spec (lm : Nat) (x : Half) : norm lm x = Spec.normLevel lm x := by
  rw [Spec.normLevel, ← norm_eq, Int.toNat_natCast]

/-- With an invalid frequency the formula divides less than half of the divisor: the count is 0 (R176). -/
theorem stepCount_zero_freq {lm : Nat} (hlm : 1 ≤ lm) (dur d : Nat) (abs : Bool) :
    Spec.stepCount lm 0 dur d abs = 0 := by
  have hzero : ∀ den : Nat, 0 < den → (2 * 0 + den) / (2 * den) = 0 := fun den hden => Nat.div_eq_of_lt (by omega)
  unfold Spec.stepCount
  cases abs
  · simp only [Nat.zero_mul, Bool.false_eq_true, if_false]
    rw [hzero _ (by omega), Nat.zero_min]
  · simp only [Nat.zero_mul, if_true]
    rw [hzero _ (by omega), Nat.zero_min]

/-- The model's case of an invalid frequency agrees with the formula (R176). -/
theorem stepCount_eq_spec {lm : Nat} (hlm : 1 ≤ lm) (freq dur d : Nat) (abs : Bool) :
    stepCount lm freq dur d abs = Spec.stepCount lm freq dur d abs := by
  unfold stepCount
  by_cases hfreq : freq = 0
  · rw [if_pos hfreq, hfreq, stepCount_zero_freq hlm]
  · rw [if_neg hfreq]
    cases abs <;> simp only [Spec.stepCount, sat32, roundHalfUp, Bool.false_eq_true, if_false, if_true]

theorem ne_all_of_lt {nch : Nat} (hnch : nch ≤ 8) {ch : Byte} (hch : ch.toNat < nch) : ch ≠ 0xFF#8 := by
  rintro rfl
  have : (0xFF#8).toNat = 255 := rfl
  omega

/-- A legal operand selects the channels that R175 says. -/
theorem chanOperand_selects {nch : Nat} (hnch : nch ≤ 8) {ch : Byte} (hch : Spec.LegalChannel nch ch) :
    ∃ sel, chanOperand nch ch = some sel ∧ ∀ c < nch, (sel = .all ∨ sel = .one c) ↔ Spec.Selects ch c := by
  unfold chanOperand
  by_cases hone : ch.toNat < nch
  · exact ⟨.one ch.toNat, if_pos hone, by simp [Spec.Selects, ne_all_of_lt hnch hone]⟩
  · have hall : ch = 0xFF#8 := hch.resolve_left hone
    exact ⟨.all, by rw [if_neg hone, if_pos hall], by simp [Spec.Selects, hall]⟩

theorem legalChannel_of_selects {nch c : Nat} {ch : Byte} (hc : c < nch) (hsel : Spec.Selects ch c) :
    Spec.LegalChannel nch ch := hsel.imp_left fun h => h.trans_lt hc

/-! ## A level command on the channel file (R175) -/

/-- A level command with a legal operand runs its procedure on each selected channel and changes nothing else. -/
theorem onChannels_selected {s : State} (hnch : s.params.nch ≤ 8) (hlen : s.chans.length = s.params.nch) {ch : Byte}
    (hch : Spec.LegalChannel s.params.nch ch) (f : Channel → Channel) :
    onChannels ch f s = { s with chans := (onChannels ch f s).chans } ∧
    (onChannels ch f s).chans.length = s.chans.length ∧
    ∀ c < s.params.nch, (Spec.Selects ch c → (onChannels ch f s).chan c = f (s.chan c)) ∧
      (¬ Spec.Selects ch c → (onChannels ch f s).chan c = s.chan c) := by
  obtain ⟨sel, hsel, hselects⟩ := chanOperand_selects hnch hch
  rw [onChannels_legal f rfl hsel]
  refine ⟨rfl, mapSelected_length _ _ _, fun c hc => ?_⟩
  rw [chan_mapSelected s sel f c (hlen ▸ hc), ← hselects c hc]
  exact ⟨fun h => if_pos h, fun h => if_neg h⟩

/-- Two channel files of one length with the same channels are equal. -/
theorem chans_ext {s t : State} (hlen : s.chans.length = t.chans.length)
    (hchan : ∀ c < s.chans.length, s.chan c = t.chan c) : s.chans = t.chans := by
  refine List.ext_getElem hlen fun c hs ht => ?_
  have := hchan c hs
  rwa [State.chan, State.chan, List.getD_eq_getElem _ _ hs, List.getD_eq_getElem _ _ ht] at this

/-- A level command whose procedure has nothing left to do on the selected channels changes nothing. -/
theorem onChannels_eq_self {s : State} (hnch : s.params.nch ≤ 8) (hlen : s.chans.length = s.params.nch) {ch : Byte}
    (hch : Spec.LegalChannel s.params.nch ch) {f : Channel → Channel}
    (hf : ∀ c < s.params.nch, Spec.Selects ch c → f (s.chan c) = s.chan c) : onChannels ch f s = s := by
  obtain ⟨hframe, hlength, hchan⟩ := onChannels_selected hnch hlen hch f
  have hchans : (onChannels ch f s).chans = s.chans := by
    refine chans_ext hlength fun c hc => ?_
    obtain ⟨hyes, hno⟩ := hchan c (by omega)
    by_cases hsel : Spec.Selects ch c
    · exact (hyes hsel).trans (hf c (by omega) hsel)
    · exact hno hsel
  rw [hframe, hchans]

/-- `FADE` and `FADEA` run one procedure, which differs in the meaning of the duration alone (R171, R172). -/
theorem exec_fade_eq (s : State) (ch : Byte) (dur fromLvl toLvl : Half) (abs : Bool) :
    exec (if abs then .fadea ch dur fromLvl toLvl else .fade ch dur fromLvl toLvl) s =
      .next (onChannels ch (fadeOne s.params.levelMax s.mains.freq.toNat fromLvl toLvl dur abs) s) := by
  cases abs <;> rfl

/-! ## One channel (R173, R174, R178) -/

theorem atLevel_spec {v : Nat} (hv : v ≤ 32767) : Spec.AtLevel v (Channel.atLevel v) :=
  ⟨levelWord_toNat hv, rfl, rfl, target_toNat hv⟩

/-- The sentinel `FREEZE` (R174). -/
theorem fadeOne_freeze (lm freq : Nat) (fromLvl dur : Half) (abs : Bool) (x : Channel) :
    fadeOne lm freq fromLvl 0x8001#16 dur abs x = freezeChannel x := rfl

/-- Without the sentinel `FREEZE` the channel goes to the level at once, or its fade is set up (R173). -/
theorem fadeOne_of_ne_freeze {lm freq : Nat} {fromLvl toLvl dur : Half} {abs : Bool} {x : Channel} {t f n : Nat}
    (hto : toLvl ≠ 0x8001#16) (ht : t = norm lm toLvl) (hf : f = fadeStart lm fromLvl x)
    (hn : n = stepCount lm freq dur.toNat ((t : Int) - f).natAbs abs) :
    fadeOne lm freq fromLvl toLvl dur abs x = if t = f ∨ n = 0 then Channel.atLevel t else Channel.fading f t n := by
  subst ht hf hn
  exact if_neg (by simpa [isFreeze] using hto)

/-- The level a fade starts from is at most `LEVEL_MAX` (R173, R184). -/
theorem fadeStart_le {lm : Nat} {x : Channel} (hx : x.InRange lm) (fromLvl : Half) : fadeStart lm fromLvl x ≤ lm := by
  unfold fadeStart
  split
  · exact hx.level_le
  · exact norm_le _ _

theorem fadeStart_eq_spec (lm : Nat) (fromLvl : Half) (x : Channel) : fadeStart lm fromLvl x =
    if fromLvl = 0x8000#16 then x.levelFp.toNat / 65536 else Spec.normLevel lm fromLvl := by
  simp only [fadeStart, isCurrent, beq_iff_eq, Channel.level_eq, norm_eq_spec]

/-- A frozen channel that was fading is at its integer level (R174). -/
theorem freezeChannel_spec {lm : Nat} {x : Channel} (hlm : lm ≤ 32767) (hx : x.InRange lm) :
    if x.remain = 0#32 then freezeChannel x = x else Spec.AtLevel (x.levelFp.toNat / 65536) (freezeChannel x) := by
  unfold freezeChannel
  split
  · rfl
  · rw [← Channel.level_eq]
    exact atLevel_spec (hx.level_le.trans hlm)

/-- A channel after `fade_one`, by the numbers of R173. -/
theorem fadeOne_spec {lm freq : Nat} {fromLvl toLvl dur : Half} {abs : Bool} {x y : Channel} {t f n : Nat}
    (hy : y = fadeOne lm freq fromLvl toLvl dur abs x) (hlm : lm ≤ 32767) (hx : x.InRange lm) (hto : toLvl ≠ 0x8001#16)
    (ht : t = norm lm toLvl) (hf : f = fadeStart lm fromLvl x)
    (hn : n = stepCount lm freq dur.toNat ((t : Int) - f).natAbs abs) :
    if t = f ∨ n = 0 then Spec.AtLevel t y
    else
      y.levelFp.toNat = f * 65536 ∧ y.step.toInt = (((t : Int) - f) * 65536).tdiv n ∧ y.remain.toNat = n ∧
        y.target.toNat = t := by
  have htle : t ≤ 32767 := ht ▸ (norm_le lm toLvl).trans hlm
  have hfle : f ≤ 32767 := hf ▸ (fadeStart_le hx fromLvl).trans hlm
  rw [hy, fadeOne_of_ne_freeze hto ht hf hn]
  by_cases hnow : t = f ∨ n = 0
  · simpa only [if_pos hnow] using atLevel_spec htle
  · have hpos : 0 < n := Nat.pos_of_ne_zero fun h => hnow (.inr h)
    have hlt : n < 2 ^ 32 := hn ▸ stepCount_lt _ _ _ _ _
    obtain ⟨-, hstep, hremain, htarget⟩ := fading_spec hfle htle hpos hlt
    simp only [if_neg hnow]
    exact ⟨levelWord_toNat hfle, hstep, hremain, htarget⟩

/-- Whether set at once or faded, the target is the clamped operand (R173). -/
theorem fadeOne_target {lm : Nat} {toLvl : Half} (hlm : lm ≤ 32767) (hto : toLvl ≠ 0x8001#16) (freq : Nat)
    (fromLvl dur : Half) (abs : Bool) (x : Channel) :
    (fadeOne lm freq fromLvl toLvl dur abs x).target.toNat = Spec.normLevel lm toLvl := by
  have htarget := target_toNat ((norm_le lm toLvl).trans hlm)
  rw [fadeOne_of_ne_freeze hto rfl rfl rfl, ← norm_eq_spec]
  split <;> exact htarget

/-- A fade from `CURRENT` to the level the channel is at sets that level (R186). -/
theorem fadeOne_zeroDistance {lm : Nat} {toLvl : Half} {x : Channel} (hto : toLvl ≠ 0x8001#16)
    (hlevel : norm lm toLvl = x.level) (freq : Nat) (dur : Half) (abs : Bool) :
    fadeOne lm freq 0x8000#16 toLvl dur abs x = Channel.atLevel x.level := by
  rw [fadeOne_of_ne_freeze hto rfl rfl rfl, if_pos (.inl hlevel), hlevel]

end Sys2Proof.Machine

open Sys2Proof.Machine

/-- Settles O37: the command sets each channel that its operand selects. -/
theorem setlvlSetsEachSelectedChannel : Obligations.SetlvlSetsEachSelectedChannel := by
  rintro s ch level ⟨⟨-, hnch⟩, ⟨-, hlm⟩, -⟩ hlen hch
  obtain ⟨hframe, hlength, hchan⟩ :=
    onChannels_selected hnch hlen hch fun _ => Channel.atLevel (norm s.params.levelMax level)
  refine ⟨_, rfl, hframe, hlength, fun c hc => ?_⟩
  obtain ⟨hyes, hno⟩ := hchan c hc
  refine ⟨fun hsel => ?_, hno⟩
  rw [hyes hsel, ← norm_eq_spec]
  exact atLevel_spec ((norm_le _ _).trans hlm)

/-- Settles O38: each selected channel goes through `fade_one`, which freezes it, sets it or sets up its fade. -/
theorem fadeSetsUpEachSelectedChannel : Obligations.FadeSetsUpEachSelectedChannel := by
  rintro s ch dur fromLvl toLvl abs ⟨⟨-, hnch⟩, ⟨hlm1, hlm⟩, -⟩ hlen hlevels hch
  obtain ⟨hframe, hlength, hchan⟩ := onChannels_selected hnch hlen hch
    (fadeOne s.params.levelMax s.mains.freq.toNat fromLvl toLvl dur abs)
  refine ⟨_, exec_fade_eq s ch dur fromLvl toLvl abs, hframe, hlength, fun c hc => ?_⟩
  obtain ⟨hyes, hno⟩ := hchan c hc
  have hrange := hlevels _ (s.chan_mem (hlen ▸ hc))
  refine ⟨hno, fun hsel hfreeze => ?_, fun hsel hto => ?_⟩
  · rw [hyes hsel, hfreeze, fadeOne_freeze]
    exact freezeChannel_spec hlm hrange
  · exact ⟨_, _, _, norm_eq_spec _ _, fadeStart_eq_spec _ _ _, stepCount_eq_spec hlm1 _ _ _ _,
      fadeOne_spec (hyes hsel) hlm hrange hto rfl rfl rfl⟩

/-- Settles O41: the first command leaves the channel at its integer level, where the second has nothing left to do. -/
theorem zeroDistanceFadeIsIdempotent : Obligations.ZeroDistanceFadeIsIdempotent := by
  rintro s ch dur toLvl abs ⟨⟨-, hnch⟩, ⟨-, hlm⟩, -⟩ hlen hch hto hlevel
  rw [← norm_eq_spec, ← Channel.level_eq] at hlevel
  have hle : (s.chan ch.toNat).level ≤ 32767 := hlevel ▸ (norm_le _ toLvl).trans hlm
  obtain ⟨hframe, hlength, hchan⟩ := onChannels_selected hnch hlen (.inl hch)
    (fadeOne s.params.levelMax s.mains.freq.toNat 0x8000#16 toLvl dur abs)
  have hset := (hchan _ hch).1 (.inl rfl)
  rw [fadeOne_zeroDistance hto hlevel] at hset
  refine ⟨_, exec_fade_eq s ch dur _ toLvl abs, ?_, ?_, by rw [hframe]⟩
  · generalize onChannels ch _ s = t at *
    obtain ⟨hparams, hmains⟩ : t.params = s.params ∧ t.mains = s.mains := by rw [hframe]; exact ⟨rfl, rfl⟩
    rw [exec_fade_eq, hparams, hmains,
      onChannels_eq_self (hparams ▸ hnch) (by rw [hlength, hlen, hparams]) (.inl (hparams ▸ hch))]
    intro c hc hsel
    obtain rfl : ch.toNat = c := hsel.resolve_right (ne_all_of_lt hnch hch)
    have hsame := Channel.atLevel_level (s.chan ch.toNat).level (by omega)
    rw [hset, fadeOne_zeroDistance hto (hlevel.trans hsame.symm), hsame]
  · rw [hset, ← Channel.level_eq]
    exact atLevel_spec hle

/-- Settles O39: the formulas of R176 and R173 evaluated at the rows of the table. -/
theorem stepCountsOfTheTable : Obligations.StepCountsOfTheTable := by
  unfold Obligations.StepCountsOfTheTable
  decide

/-- Settles O43: the one field that depends on a condition is `EVT_PENDING`, by whether the masks differ. -/
theorem engPublishPublishesScratch : Obligations.EngPublishPublishesScratch := by
  intro s
  obtain ⟨t, ht⟩ := exec_total .engPublish s
  have hframe := engPublish_frame ht
  cases ht
  refine ⟨_, rfl, ?_, hframe⟩
  by_cases hmask : s.sched.scratch.nzMask = s.tele.chState
  · simp [hmask]
  · have hne : (s.sched.scratch.nzMask != s.tele.chState) = true := bne_iff_ne.mpr hmask
    rw [if_neg hmask, hne]
    rfl
end

section
/-! A fade from its set-up to its end (43_fading_engine.md R185): `ENG_CALC` run once per step, followed on one channel. -/

namespace Sys2Proof.Machine

/-! ## Running `ENG_CALC` several times -/

/-- One more `ENG_CALC` after `k` of them. -/
theorem engCalcs_succ {k : Nat} {s t u : State} (hk : Spec.engCalcs k s = .next t) (h : exec .engCalc t = .next u) :
    Spec.engCalcs (k + 1) s = .next u := by
  induction k generalizing s with
  | zero =>
    cases hk
    exact andThen_eq_next.mpr ⟨u, h, rfl⟩
  | succ k ih =>
    obtain ⟨r, hr, hrest⟩ := andThen_eq_next.mp hk
    exact andThen_eq_next.mpr ⟨r, hr, ih hrest⟩

/-! ## One channel in a state -/

/-- What `ENG_CALC` needs to step the channel `c` by R180: legal sizes, the channel's elements there, and in range (R184). -/
structure State.HasChannel (s : State) (c : Nat) : Prop where
  nch_le : s.params.nch ≤ 8
  levelMax_le : s.params.levelMax ≤ 32767
  lt_nch : c < s.params.nch
  lt_chans : c < s.chans.length
  lt_fadeDoneLevel : c < s.tele.fadeDoneLevel.length
  inRange : (s.chan c).InRange s.params.levelMax

theorem State.HasChannel.engCalc {s t : State} {c : Nat} (hs : s.HasChannel c) (h : exec .engCalc s = .next t) :
    t.HasChannel c := by
  obtain ⟨-, hchans, -, hlevels, -⟩ := engCalc_effect h
  have hparams : t.params = s.params := by rw [engCalc_frame h]; rfl
  refine ⟨hparams ▸ hs.nch_le, hparams ▸ hs.levelMax_le, hparams ▸ hs.lt_nch, ?_, ?_, ?_⟩
  · rw [hchans, List.length_map]; exact hs.lt_chans
  · rw [hlevels, List.length_zipWith]; exact lt_min hs.lt_fadeDoneLevel hs.lt_chans
  · rw [engCalc_chan h hs.lt_chans, hparams]; exact fadeStep_inRange hs.levelMax_le hs.inRange

/-- A level command with `fade_one` leaves the channels it selects in range and the sizes as they are (R184). -/
theorem State.HasChannel.fade {s : State} (hshape : s.ShapeOk) (hlevels : s.LevelsOk) {c : Nat} (hc : c < s.params.nch)
    {ch : Byte} (hsel : Spec.Selects ch c) (freq : Nat) (fromLvl toLvl dur : Half) (abs : Bool) :
    (onChannels ch (fadeOne s.params.levelMax freq fromLvl toLvl dur abs) s).HasChannel c := by
  obtain ⟨⟨⟨-, hnch⟩, ⟨-, hlm⟩, -⟩, hlen, hdone, -⟩ := hshape
  obtain ⟨hframe, hlength, hchan⟩ := onChannels_selected hnch hlen (legalChannel_of_selects hc hsel)
    (fadeOne s.params.levelMax freq fromLvl toLvl dur abs)
  have hchanC := (hchan c hc).1 hsel
  generalize onChannels ch _ s = u at *
  obtain ⟨hparams, htele⟩ : u.params = s.params ∧ u.tele = s.tele := by rw [hframe]; exact ⟨rfl, rfl⟩
  refine ⟨hparams ▸ hnch, hparams ▸ hlm, hparams ▸ hc, by omega, by rw [htele]; omega, ?_⟩
  rw [hchanC, hparams]
  exact fadeOne_inRange hlm (hlevels _ (s.chan_mem (hlen ▸ hc)))

/-! ## The countdown of a fade (R180, R185) -/

/-- The fade of channel `c` in `s` has made `k` of its steps in `t`, and steps are left. -/
structure FadeAdvanced (c k : Nat) (s t : State) : Prop where
  hasChannel : t.HasChannel c
  remain : (t.chan c).remain.toNat = (s.chan c).remain.toNat - k
  level : (t.chan c).levelFp.toInt = (s.chan c).levelFp.toInt + k * (s.chan c).step.toInt
  step : (t.chan c).step = (s.chan c).step
  target : (t.chan c).target = (s.chan c).target

/-- `ENG_CALC` with two steps or more left makes one of them. -/
theorem FadeAdvanced.engCalc {c k : Nat} {s t u : State} (ht : FadeAdvanced c k s t)
    (hmore : k + 1 < (s.chan c).remain.toNat) (h : exec .engCalc t = .next u) : FadeAdvanced c (k + 1) s u := by
  have hremain := ht.remain
  obtain ⟨hlevel, hcount, hstep, htarget⟩ :=
    fadeStep_more_exact ht.hasChannel.levelMax_le ht.hasChannel.inRange (by omega)
  rw [← engCalc_chan h ht.hasChannel.lt_chans] at hlevel hcount hstep htarget
  refine ⟨ht.hasChannel.engCalc h, by omega, ?_, hstep.trans ht.step, htarget.trans ht.target⟩
  rw [hlevel, ht.level, ht.step, Nat.cast_succ, Int.add_mul, Int.one_mul, Int.add_assoc]

/-- After fewer `ENG_CALC`s than a fade has steps, that many steps are made. -/
theorem engCalcs_fadeAdvanced {c : Nat} {s : State} (hs : s.HasChannel c) (k : Nat)
    (hk : k < (s.chan c).remain.toNat) : ∃ t, Spec.engCalcs k s = .next t ∧ FadeAdvanced c k s t := by
  induction k with
  | zero => exact ⟨s, rfl, hs, rfl, by simp, rfl, rfl⟩
  | succ k ih =>
    obtain ⟨t, ht, hadv⟩ := ih (by omega)
    obtain ⟨u, hu⟩ := exec_total .engCalc t
    exact ⟨u, engCalcs_succ ht hu, hadv.engCalc hk hu⟩

/-- The fade of channel `c` to the level `v` is completed and recorded (R180). -/
structure FadeCompleted (c v : Nat) (t : State) : Prop where
  atLevel : Spec.AtLevel v (t.chan c)
  fadeDone : t.tele.fadeDone.getLsbD c = true
  fadeDoneLevel : (t.tele.fadeDoneLevel.getD c 0#16).toNat = v
  pending : t.pending .fadeDone = true

/-- `ENG_CALC` raises `EV_FADE_DONE` when a channel has its last step left. -/
theorem engCalc_pending_fadeDone {c : Nat} {s t : State} (hc : c < s.chans.length) (hlast : (s.chan c).remain = 1#32)
    (h : exec .engCalc s = .next t) : t.pending .fadeDone = true := by
  rw [State.pending, engCalc_evtPending h, if_pos ⟨_, s.chan_mem hc, hlast⟩, BitVec.getLsbD_or, BitVec.getLsbD_or]
  simp [Event.code]

/-- `ENG_CALC` completes the fade of a channel with its last step left. -/
theorem engCalc_fadeCompleted {c : Nat} {s t : State} (hs : s.HasChannel c) (hlast : (s.chan c).remain = 1#32)
    (h : exec .engCalc s = .next t) : FadeCompleted c (s.chan c).target.toNat t where
  atLevel := engCalc_chan h hs.lt_chans ▸ fadeStep_last_atLevel hs.levelMax_le hs.inRange hlast
  fadeDone := by simp [engCalc_fadeDone h hs.nch_le hs.lt_nch, hlast]
  fadeDoneLevel := by rw [engCalc_fadeDoneLevel h hs.lt_chans hs.lt_fadeDoneLevel, if_pos hlast]
  pending := engCalc_pending_fadeDone hs.lt_chans hlast h

/-- As many `ENG_CALC`s as a fade has steps complete it. -/
theorem engCalcs_fadeCompleted {c : Nat} {s : State} (hs : s.HasChannel c) (hfading : 0 < (s.chan c).remain.toNat) :
    ∃ t, Spec.engCalcs (s.chan c).remain.toNat s = .next t ∧ FadeCompleted c (s.chan c).target.toNat t := by
  obtain ⟨m, hm⟩ := Nat.exists_eq_succ_of_ne_zero (Nat.ne_of_gt hfading)
  obtain ⟨t, ht, hadv⟩ := engCalcs_fadeAdvanced hs m (by omega)
  obtain ⟨u, hu⟩ := exec_total .engCalc t
  have hremain := hadv.remain
  have hlast : (t.chan c).remain = 1#32 := BitVec.eq_of_toNat_eq (by rw [hremain, hm]; simp)
  rw [hm, ← hadv.target]
  exact ⟨u, engCalcs_succ ht hu, engCalc_fadeCompleted hadv.hasChannel hlast hu⟩

end Sys2Proof.Machine

open Sys2Proof Sys2Proof.Machine

/-- Settles O44: the fade set up is in range and aims at the clamped operand; it counts down to its last step, which snaps
to that target. -/
theorem fadeEndsExactlyAtItsTarget : Obligations.FadeEndsExactlyAtItsTarget := by
  intro s u ch c dur fromLvl toLvl abs hshape hlevels hc hsel hto hexec hfading
  rw [exec_fade_eq] at hexec
  have hset := Host.Outcome.next.inj hexec
  have hu : u.HasChannel c := hset ▸ State.HasChannel.fade hshape hlevels hc hsel _ fromLvl toLvl dur abs
  obtain ⟨⟨⟨-, hnch⟩, ⟨-, hlm⟩, -⟩, hlen, -⟩ := hshape
  obtain ⟨-, -, hchan⟩ := onChannels_selected hnch hlen (legalChannel_of_selects hc hsel)
    (fadeOne s.params.levelMax s.mains.freq.toNat fromLvl toLvl dur abs)
  have htarget : (u.chan c).target.toNat = Spec.normLevel s.params.levelMax toLvl := by
    rw [← hset, (hchan c hc).1 hsel]
    exact fadeOne_target hlm hto _ _ _ _ _
  refine ⟨fun k hk => ?_, ?_⟩
  · obtain ⟨t, ht, hadv⟩ := engCalcs_fadeAdvanced hu k hk
    exact ⟨t, ht, hadv.remain, hadv.level⟩
  · obtain ⟨t, ht, hend⟩ := engCalcs_fadeCompleted hu hfading
    rw [htarget] at hend
    exact ⟨t, ht, hend.atLevel, hend.fadeDone, hend.fadeDoneLevel, hend.pending⟩
end

section
/-! A measurement pass that goes on and one that fails (44_frequency_measurement.md R202 to R207): an edge that is not the
last, the filter with too few deltas, and the tick of a pass at its deadline and before it (R206, R262). -/

namespace Sys2Proof.Machine

/-! ## An edge that is not the last (R202) -/

/-- Up to edge number `MEAS_WARMUP + 1`, an edge is counted and time-stamped, and no delta is stored. -/
theorem storeDelta_of_lt {s : State} (h : min (s.meas.seen.toNat + 1) 65535 < s.params.measWarmup + 2) :
    storeDelta s = { s with
      meas.seen := BitVec.ofNat 16 (min (s.meas.seen.toNat + 1) 65535)
      meas.prev := s.time.now } := by
  simp [storeDelta, sat16, Nat.not_le.mpr h]

/-- `MEAS_SEEN` counts the edge and saturates. -/
theorem storeDelta_seen (s : State) : (storeDelta s).meas.seen.toNat = min (s.meas.seen.toNat + 1) 65535 := by
  rw [storeDelta, BitVec.toNat_ofNat, sat16]
  omega

/-- `MEAS_CNT` and `MEAS_BUF` after an edge; with at most 64 samples to a pass the count does not wrap. -/
theorem storeDelta_stored {s : State} (hcnt : s.meas.cnt.toNat < 64) :
    if s.params.measWarmup + 2 ≤ min (s.meas.seen.toNat + 1) 65535 then
      (storeDelta s).meas.cnt.toNat = s.meas.cnt.toNat + 1 ∧
        (storeDelta s).meas.buf = s.meas.buf.set s.meas.cnt.toNat (s.time.now - s.meas.prev)
    else (storeDelta s).meas.cnt = s.meas.cnt ∧ (storeDelta s).meas.buf = s.meas.buf := by
  split
  next hstored =>
    rw [storeDelta_of_le hstored]
    exact ⟨cnt_add_one_toNat hcnt rfl, rfl⟩
  next hwarmup =>
    rw [storeDelta_of_lt (Nat.not_le.mp hwarmup)]
    exact ⟨rfl, rfl⟩

/-- While deltas are missing, an edge does no more than `storeDelta`. -/
theorem edgeMeasuring_of_lt {s : State} (h : (storeDelta s).meas.cnt.toNat < s.params.measNSamples) :
    edgeMeasuring s = storeDelta s := if_neg (Nat.ne_of_lt h)

/-! ## Too few deltas (R203, R204) -/

theorem filterResult_of_stage1_few {p : Params} {dev : Nat} {buf : List Word}
    (h : (stage1 p buf).length < p.measMinValid) : filterResult p dev buf = none := if_pos h

theorem filterResult_of_stage2_few {p : Params} {dev : Nat} {buf : List Word}
    (h : (stage2 p dev buf).length < p.measMinValid) : filterResult p dev buf = none := by
  rw [filterResult, if_pos h, ite_self]

/-! ## A pass that fails (R205, R206) -/

theorem exec_measTimeout (s : State) : exec .measTimeout s = .next (measFail s) := rfl

/-- Every field after a failed pass (R205). -/
theorem measFail_eq (s : State) : measFail s = { s with
    mains.freq := 0
    mains.hTicks := 0
    phase := .idle
    tele.evtPending := s.tele.evtPending ||| Event.freqInvalid.mask } := rfl

/-! ## A tick with nothing armed and no edge -/

/-- The block after slot 1 (R130). -/
def State.ticked (s : State) : State :=
  { s with
    time.now := s.time.now + 1
    time.hwTcnt := s.time.hwTcnt + 1 }

theorem exec_tick (s : State) : exec .tick s = .next s.ticked := rfl

/-- The block at slot 5 of a tick in which slots 1 to 4 do nothing but count and sample `ZC` (R110, R130). -/
def State.countedAndSampled (s : State) (zc : Bool) : State := s.ticked.sampleZc zc

theorem slot_of_due {due : Bool} {i : Instr} {s t : State} (h : due = true) (hx : exec i s = .next t) :
    slot due i s = .next t := slot_eq_next.mpr (.inl ⟨h, hx⟩)

/-- A slot whose operation is not due leaves the state (R262). -/
theorem slot_of_not_due {due : Bool} (h : due = false) (i : Instr) (s : State) : slot due i s = .next s :=
  slot_eq_next.mpr (.inr ⟨h, rfl⟩)

theorem startDue_of_disarmed {s : State} (h : s.time.cmpaEn = false) : startDue s = false := by
  rw [startDue, h, Bool.false_and]

theorem toggleDue_of_disarmed {s : State} (h : s.time.cmpbEn = false) : toggleDue s = false := by
  rw [toggleDue, h, Bool.false_and]

theorem calcDue_of_idle {s : State} (h : s.eng = .idle) (go : Bool) : calcDue s go = false := by
  rw [calcDue, h]
  rfl

theorem publishDue_of_idle {s : State} (h : s.eng = .idle) (go : Bool) : publishDue s go = false := by
  rw [publishDue, h]
  rfl

/-- There is no edge where the last sample was 1 or this one is 0 (R110). -/
theorem edgeSeen_eq_false {s : State} {zc : Bool} :
    edgeSeen s zc = false ↔ s.sync.zcPrev = true ∨ normSample s.params zc = false := by
  rw [edgeSeen, Bool.and_eq_false_iff, Bool.not_eq_false']

/-- Slot 4 without an edge takes the sample and does nothing else (R110). -/
theorem edgeSlot_of_no_edge {s : State} {zc : Bool} (h : edgeSeen s zc = false) :
    edgeSlot zc s = .next (s.sampleZc zc) := slot_of_not_due h _ _

/-- The timeout leaves the engine alone (R205). -/
theorem timeoutSlot_eng {s t : State} (h : slot (timeoutDue s) .measTimeout s = .next t) : t.eng = s.eng := by
  rcases slot_eq_next.mp h with ⟨-, hx⟩ | ⟨-, rfl⟩
  · cases hx
    rfl
  · rfl

/-- With both compares off, the engine idle, and an edge slot that only samples `ZC`, slots 1 to 7 come down to `TICK`, the
sample and the timeout. -/
theorem eventSlots_of_stopped {i : TickInput} {s t : State} (hcmpa : s.time.cmpaEn = false)
    (hcmpb : s.time.cmpbEn = false) (heng : s.eng = .idle)
    (hedge : edgeSlot i.zc s.ticked = .next (s.countedAndSampled i.zc))
    (htimeout : slot (timeoutDue (s.countedAndSampled i.zc)) .measTimeout (s.countedAndSampled i.zc) = .next t) :
    eventSlots i s = .next t := by
  have hstart : startDue s.ticked = false := startDue_of_disarmed hcmpa
  have htoggle : toggleDue s.ticked = false := toggleDue_of_disarmed hcmpb
  have hidle : t.eng = .idle := (timeoutSlot_eng htimeout).trans heng
  exact eventSlots_eq_next.mpr ⟨_, _, _, _, _, _, exec_tick s, slot_of_not_due hstart _ _, slot_of_not_due htoggle _ _,
    hedge, htimeout, slot_of_not_due (calcDue_of_idle hidle _) _ _, slot_of_not_due (publishDue_of_idle hidle _) _ _⟩

/-- A step of a pass without reset, command or edge is `TICK`, the sample, the timeout and the clearing of `RVALID`. -/
theorem step_of_measuring {s t : State} (hok : s.StoppedOk) (hmeas : s.phase = .measuring)
    (hrst : s.nextInput.rst = false) (hcmd : s.nextInput.cmd = none) (hedge : edgeSeen s s.nextInput.zc = false)
    (htimeout : slot (timeoutDue (s.popInput.countedAndSampled s.nextInput.zc)) .measTimeout
      (s.popInput.countedAndSampled s.nextInput.zc) = .next t) :
    step s = .next { t with port.rvalid := false } := by
  obtain ⟨hcmpa, hcmpb, -, heng, -, -⟩ := hok (by rw [hmeas]; decide)
  have hno : edgeSeen s.popInput.ticked s.nextInput.zc = false := by
    simpa [edgeSeen, State.ticked] using hedge
  have hslots : eventSlots s.nextInput s.popInput = .next t :=
    eventSlots_of_stopped (by simpa using hcmpa) (by simpa using hcmpb) (by simpa using heng)
      (edgeSlot_of_no_edge hno) htimeout
  rw [step_eq_commandSlot hrst hslots, hcmd]
  rfl

/-- The deadline, asked after the increment of `NOW` (R206, R262). -/
theorem timeoutDue_countedAndSampled {s : State} (hmeas : s.phase = .measuring) (zc : Bool) :
    timeoutDue (s.countedAndSampled zc) = decide (s.params.measTimeout ≤ (s.time.now + 1 - s.meas.t0).toNat) := by
  simp [timeoutDue, elapsed, State.countedAndSampled, State.ticked, hmeas]

end Sys2Proof.Machine

open Sys2Proof Sys2Proof.Machine

/-- Settles O29: the edge leaves a delta missing, either because it stores none or because one more is to come, so the pass
goes on. -/
theorem measuringEdgeStoresItsDelta : Obligations.MeasuringEdgeStoresItsDelta := by
  intro s hmeas hn hcnt hmore
  have hstored := storeDelta_stored (s := s) (by omega)
  have hmissing : (storeDelta s).meas.cnt.toNat < s.params.measNSamples := by
    split at hstored
    next hle =>
      obtain ⟨hcnt', -⟩ := hstored
      omega
    next =>
      obtain ⟨hcnt', -⟩ := hstored
      rwa [hcnt']
  have hedge : exec .zcEdge s = .next (storeDelta s) := by
    rw [exec_zcEdge_measuring hmeas, edgeMeasuring_of_lt hmissing]
  exact ⟨storeDelta s, hedge, rfl, storeDelta_seen s, rfl, rfl, hstored⟩

/-- Settles O33: of the slots of such a tick only the timeout can end the pass, and it is due exactly from the deadline on. -/
theorem passEndsAtItsDeadline : Obligations.PassEndsAtItsDeadline := by
  intro s hok hmeas hrst hcmd hzc
  have hdue : timeoutDue (s.popInput.countedAndSampled s.nextInput.zc) =
      decide (s.params.measTimeout ≤ (s.time.now + 1 - s.meas.t0).toNat) := by
    simpa using timeoutDue_countedAndSampled (s.popInput_phase.trans hmeas) s.nextInput.zc
  have hstep {t : State} := step_of_measuring (t := t) hok hmeas hrst hcmd (edgeSeen_eq_false.mpr hzc)
  split
  next hdeadline =>
    have hfail := hstep (slot_of_due (hdue.trans (decide_eq_true hdeadline)) (exec_measTimeout _))
    exact ⟨_, hfail, rfl, rfl, rfl, pending_raise_self _ .freqInvalid⟩
  next hbefore =>
    have hwait := hstep (slot_of_not_due (hdue.trans (decide_eq_false hbefore)) _ _)
    exact ⟨_, hwait, s.popInput_phase.trans hmeas, s.popInput_mains, s.popInput_tele, s.popInput_meas⟩

/-- Settles O31: in the first pass both stages keep enough deltas, in the second stage 1 keeps too few, in the third
stage 2 does. -/
theorem filterGivesTheScenarioFrequency : Obligations.FilterGivesTheScenarioFrequency := by
  have hpass : Spec.PassSucceeds Params.default 5
      ((List.replicate 18 8333#32 ++ [9100#32, 9300#32]).map BitVec.toNat) := by
    unfold Spec.PassSucceeds Spec.Usable
    decide
  exact ⟨filterResult_of_passSucceeds hpass, filterResult_of_stage1_few (by decide),
    filterResult_of_stage2_few (by decide)⟩

/-- Settles O32: `MEAS_TIMEOUT` is `meas_fail`. -/
theorem measTimeoutFailsThePass : Obligations.MeasTimeoutFailsThePass := fun s =>
  ⟨measFail s, exec_measTimeout s, rfl, measFail_eq s⟩
end

section
/-! The commands on the register space (45_host_commands.md R224, R227, R229, R230): no register has two numbers, so that a
write of one number is read back under that number alone; and `SETMODE`, `ACK` and `RREG`. -/

namespace Sys2Proof.Machine

/-! ## The number of a register (R92) -/

/-- The map of R92 read backwards: the number of a register. -/
def Reg.number : Reg → Nat
  | .cfgMinOn => 0x00 | .cfgMinOff => 0x01 | .cfgZcDelay => 0x02 | .cfgMode => 0x03 | .cfgSyncDev => 0x04
  | .cfgOosLimit => 0x05 | .cfgRangeBegin => 0x06 | .cfgRangeDiv => 0x07 | .cfgZcValidate => 0x08
  | .status => 0x10 | .evtPending => 0x11 | .freq => 0x12 | .hTicks => 0x13 | .hwMin => 0x14 | .hwMax => 0x15
  | .invalidCnt => 0x16 | .chState => 0x17 | .fadeDone => 0x18 | .oosInfo => 0x19 | .out => 0x1A | .hwTcnt => 0x1B
  | .now => 0x1C | .lastEdge => 0x1D | .ocra => 0x1E | .ocrb => 0x1F
  | .levelFp c => 0x20 + c | .step c => 0x28 + c | .remain c => 0x30 + c | .target c => 0x38 + c
  | .fadeDoneLevel c => 0x40 + c
  | .actEntry i => 0x50 + i | .actMeta => 0x59 | .nextEntry i => 0x60 + i | .nextMeta => 0x69
  | .scratchEntry i => 0x70 + i | .scratchMeta => 0x79
  | .measBuf i => 0x80 + i | .measCnt => 0xC0 | .measSeen => 0xC1 | .measPrev => 0xC2 | .measT0 => 0xC3

/-- A register found in the indexed groups is a member of one of them. -/
theorem mem_of_groupReg {p : Params} {k : Nat} {r : Reg} (h : groupReg p k = some r) :
    ∃ g ∈ regGroups p, ∃ i, k = g.base + i ∧ r = g.member i := by
  have hgroup : ∃ g ∈ regGroups p, groupAt k g.base g.bound g.member = some r := by
    by_contra hno
    push Not at hno
    simp only [regGroups, List.forall_mem_cons] at hno
    simp_all [groupReg]
  obtain ⟨g, hg, hat⟩ := hgroup
  obtain ⟨i, -, hk, hr⟩ := groupAt_eq_some.mp hat
  exact ⟨g, hg, i, hk, hr⟩

theorem number_member {p : Params} {g : RegGroup} (hg : g ∈ regGroups p) (i : Nat) :
    (g.member i).number = g.base + i := by
  simp only [regGroups, List.mem_cons, List.not_mem_nil, or_false] at hg
  rcases hg with rfl | rfl | rfl | rfl | rfl | rfl | rfl | rfl | rfl <;> rfl

/-- The register that a number names has that number (R92). -/
theorem number_of_regAt {p : Params} {n : Byte} {r : Reg} (h : regAt p n = some r) : r.number = n.toNat := by
  unfold regAt at h
  split at h
  case h_33 =>
    obtain ⟨g, hg, i, hk, rfl⟩ := mem_of_groupReg h
    rw [number_member hg, hk]
  all_goals
    cases h
    exact Eq.symm ‹_›

/-- No register has two numbers (R92). -/
theorem regAt_injective {p : Params} {m n : Byte} {r : Reg} (hm : regAt p m = some r) (hn : regAt p n = some r) : m = n :=
  BitVec.eq_of_toNat_eq ((number_of_regAt hm).symm.trans (number_of_regAt hn))

/-- A number reads the same in two states of one block when the register it names does (R62). -/
theorem regRead_congr {s t : State} {n : Byte} (hparams : t.params = s.params)
    (h : ∀ r, regAt s.params n = some r → t.reg r = s.reg r) : t.regRead n = s.regRead n := by
  rw [State.regRead, State.regRead, hparams]
  cases hr : regAt s.params n with
  | none => rfl
  | some r => exact congrArg some (h r hr)

/-! ## Writing one configuration register (R229) -/

/-- The configuration with the value stored in one of its nine registers; of any other register nothing. -/
def CfgRegs.put (cfg : CfgRegs) (v : Word) : Reg → CfgRegs
  | .cfgMinOn => { cfg with minOn := v.setWidth 16 }
  | .cfgMinOff => { cfg with minOff := v.setWidth 16 }
  | .cfgZcDelay => { cfg with zcDelay := v.setWidth 16 }
  | .cfgMode => { cfg with mode := v.getLsbD 0 }
  | .cfgSyncDev => { cfg with syncDev := v.setWidth 7 }
  | .cfgOosLimit => { cfg with oosLimit := v.setWidth 16 }
  | .cfgRangeBegin => { cfg with rangeBegin := v.setWidth 16 }
  | .cfgRangeDiv => { cfg with rangeDiv := v.setWidth 16 }
  | .cfgZcValidate => { cfg with zcValidate := v.getLsbD 0 }
  | _ => cfg

/-- A value that fits a narrower register reads back as it was written. -/
theorem setWidth_setWidth_of_lt {v : Word} {k : Nat} (h : v.toNat < 2 ^ k) : (v.setWidth k).setWidth 32 = v := by
  apply BitVec.eq_of_toNat_eq
  rw [BitVec.toNat_setWidth, BitVec.toNat_setWidth, Nat.mod_eq_of_lt h, Nat.mod_eq_of_lt v.isLt]

/-- A value of at most 1 reads back from a one-bit register. -/
theorem bitWord_getLsbD_zero {v : Word} (h : v.toNat ≤ 1) : bitWord (v.getLsbD 0) = v := by
  apply BitVec.eq_of_toNat_eq
  rw [bitWord_toNat, BitVec.getLsbD, Nat.testBit_zero]
  have hbit : v.toNat = 0 ∨ v.toNat = 1 := by omega
  rcases hbit with h0 | h1
  · simp [h0]
  · simp [h1]

/-- A legal write stores the value in the register that the number names, which then reads as the value (R229). -/
theorem write_of_writable (s : State) (hlm : s.params.levelMax ≤ 32767) {n : Byte} {bound : Nat} {v : Word}
    (h : (n, bound) ∈ Spec.writableRegs s.params.levelMax) (hv : v.toNat ≤ bound) :
    ∃ r, regAt s.params n = some r ∧ s.cfg.write s.params.levelMax n v = some (s.cfg.put v r) ∧
      ({ s with cfg := s.cfg.put v r } : State).reg r = v := by
  simp only [Spec.writableRegs, List.mem_cons, Prod.mk.injEq, List.not_mem_nil, or_false] at h
  rcases h with ⟨rfl, rfl⟩ | ⟨rfl, rfl⟩ | ⟨rfl, rfl⟩ | ⟨rfl, rfl⟩ | ⟨rfl, rfl⟩ | ⟨rfl, rfl⟩ | ⟨rfl, rfl⟩ | ⟨rfl, rfl⟩ |
    ⟨rfl, rfl⟩
  · exact ⟨.cfgMinOn, rfl, if_pos hv, setWidth_setWidth_of_lt (by omega)⟩
  · exact ⟨.cfgMinOff, rfl, if_pos hv, setWidth_setWidth_of_lt (by omega)⟩
  · exact ⟨.cfgZcDelay, rfl, if_pos hv, setWidth_setWidth_of_lt (by omega)⟩
  · exact ⟨.cfgMode, rfl, if_pos hv, bitWord_getLsbD_zero hv⟩
  · exact ⟨.cfgSyncDev, rfl, if_pos hv, setWidth_setWidth_of_lt (by omega)⟩
  · exact ⟨.cfgOosLimit, rfl, if_pos hv, setWidth_setWidth_of_lt (by omega)⟩
  · exact ⟨.cfgRangeBegin, rfl, if_pos hv, setWidth_setWidth_of_lt (by omega)⟩
  · exact ⟨.cfgRangeDiv, rfl, if_pos hv, setWidth_setWidth_of_lt (by omega)⟩
  · exact ⟨.cfgZcValidate, rfl, if_pos hv, bitWord_getLsbD_zero hv⟩

/-- Every other register reads as before (R229). -/
theorem reg_put_of_ne (s : State) (v : Word) {r r' : Reg} (h : r' ≠ r) :
    ({ s with cfg := s.cfg.put v r } : State).reg r' = s.reg r' := by
  cases r' with
  | cfgMinOn | cfgMinOff | cfgZcDelay | cfgMode | cfgSyncDev | cfgOosLimit | cfgRangeBegin | cfgRangeDiv
  | cfgZcValidate => cases r <;> trivial
  | _ => rfl

/-- A number that is not writable, or a value above its bound, is not written (R229). -/
theorem write_of_not_writable (cfg : CfgRegs) {levelMax : Nat} {n : Byte} {v : Word}
    (h : ∀ bound, (n, bound) ∈ Spec.writableRegs levelMax → bound < v.toNat) : cfg.write levelMax n v = none := by
  have habove {k bound : Nat} (hn : n.toNat = k) (hmem : (BitVec.ofNat 8 k, bound) ∈ Spec.writableRegs levelMax) :
      ¬ v.toNat ≤ bound := by
    rw [← hn, BitVec.ofNat_toNat, BitVec.setWidth_eq] at hmem
    exact Nat.not_le.mpr (h bound hmem)
  unfold CfgRegs.write
  split
  case h_10 => rfl
  all_goals exact if_neg (habove ‹_› (by simp [Spec.writableRegs]))

/-! ## `WREG` as an equation -/

theorem exec_wreg_of_write {s : State} {n : Byte} {v : Word} {c : CfgRegs}
    (h : s.cfg.write s.params.levelMax n v = some c) : exec (.wreg n v) s = .next { s with cfg := c } := by
  change execWreg n v s = _
  rw [execWreg, State.regWrite, h]
  rfl

theorem exec_wreg_of_no_write {s : State} {n : Byte} {v : Word} (h : s.cfg.write s.params.levelMax n v = none) :
    exec (.wreg n v) s = .next (s.raise .cmdErr) := by
  change execWreg n v s = _
  rw [execWreg, State.regWrite, h]
  rfl

end Sys2Proof.Machine

open Sys2Proof Sys2Proof.Machine

/-- Settles O50: the write changes one register of the configuration, and no other number names that register. -/
theorem wregStoresALegalValueAndRefusesTheRest : Obligations.WregStoresALegalValueAndRefusesTheRest := by
  rintro s n v ⟨-, ⟨-, hlm⟩, -⟩
  constructor
  · intro bound hmem hv
    obtain ⟨r, hr, hwrite, hread⟩ := write_of_writable s hlm hmem hv
    refine ⟨_, exec_wreg_of_write hwrite, rfl, ?_, fun m hm => ?_⟩
    · exact (regRead_of_regAt (s := { s with cfg := s.cfg.put v r }) hr).trans (congrArg some hread)
    · refine regRead_congr rfl fun r' hr' => reg_put_of_ne s v ?_
      rintro rfl
      exact hm (regAt_injective hr' hr)
  · intro h
    exact exec_wreg_of_no_write (write_of_not_writable s.cfg h)

/-- Settles O45: 0 and 1 are legal values of `CFG_MODE`, and stand for its two modes. -/
theorem setmodeWritesCfgMode : Obligations.SetmodeWritesCfgMode := by
  intro s mode
  refine ⟨rfl, ?_⟩
  cases mode <;> exact exec_wreg_of_write rfl

/-- Settles O49: by what an acknowledgement does to each event. -/
theorem ackClearsTheMaskedEvents : Obligations.AckClearsTheMaskedEvents := by
  intro s mask
  refine ⟨s.acknowledge mask, rfl, rfl, fun e => ?_, s.acknowledge_tele_fadeDone mask⟩
  rw [State.pending_acknowledge, Bool.and_eq_true, Bool.not_eq_true']

/-- Settles O51: by whether the number is mapped. -/
theorem rregReadsWithoutSideEffect : Obligations.RregReadsWithoutSideEffect := fun _ _ =>
  ⟨fun _ => execRreg_mapped, execRreg_unmapped⟩
end

section
/-! `START`, `SETFREQ` and the gating of the commands by `PHASE` (45_host_commands.md R221, R225, R226): each of the two as
an equation per case, and every other command as one that neither asks nor writes `PHASE`. -/

namespace Sys2Proof.Machine

/-! ## `SETFREQ` by phase and value (R225) -/

theorem exec_setfreq_refused {s : State} (h : s.phase = .measuring ∨ s.phase = .running) (imm : Word) :
    exec (.setfreq imm) s = .next (s.raise .cmdErr) := by
  change execSetfreq imm s = _
  rw [execSetfreq, if_pos (refusesStart_eq_true.mpr h)]

/-- In a stopped block `SETFREQ` is decided by the value alone (R221). -/
theorem exec_setfreq_stopped {s : State} (h : s.phase = .idle ∨ s.phase = .halted) (imm : Word) :
    exec (.setfreq imm) s = .next (if imm = 0#32 then removeOverride s
      else if usable s.params imm.toNat then setOverride imm s else s.raise .cmdErr) := by
  change execSetfreq imm s = _
  rw [execSetfreq, refusesStart_eq_false.mpr h, if_neg Bool.false_ne_true]

theorem exec_setfreq_zero {s : State} (h : s.phase = .idle ∨ s.phase = .halted) :
    exec (.setfreq 0#32) s = .next (removeOverride s) := by
  rw [exec_setfreq_stopped h, if_pos rfl]

theorem ne_zero_of_usable {p : Params} {imm : Word} (h : Spec.Usable p imm.toNat) : imm ≠ 0#32 := by
  rintro rfl
  exact absurd h.1 (by decide)

theorem exec_setfreq_usable {s : State} (h : s.phase = .idle ∨ s.phase = .halted) {imm : Word}
    (hus : Spec.Usable s.params imm.toNat) : exec (.setfreq imm) s = .next (setOverride imm s) := by
  rw [exec_setfreq_stopped h, if_neg (ne_zero_of_usable hus), if_pos (usable_iff_spec.mpr hus)]

theorem exec_setfreq_unusable {s : State} (h : s.phase = .idle ∨ s.phase = .halted) {imm : Word} (hne : imm ≠ 0#32)
    (hus : ¬ Spec.Usable s.params imm.toNat) : exec (.setfreq imm) s = .next (s.raise .cmdErr) := by
  rw [exec_setfreq_stopped h, if_neg hne, if_neg (usable_iff_spec.not.mpr hus)]

/-- The half-wave length of a usable frequency fits `H_TICKS` (R150). -/
theorem setOverride_hTicks {s : State} {imm : Word} (h : Spec.Usable s.params imm.toNat) :
    (setOverride imm s).mains.hTicks.toNat = Spec.halfWave s.params imm.toNat := by
  obtain ⟨-, -, hmax⟩ := h
  exact (BitVec.toNat_ofNat _ _).trans (Nat.mod_eq_of_lt (Nat.lt_succ_of_le hmax))

/-! ## `START` by phase and override (R226) -/

theorem exec_start_refused {s : State} (h : s.phase = .measuring ∨ s.phase = .running) :
    exec .start s = .next (s.raise .cmdErr) := by
  change execStart s = _
  rw [execStart, if_pos (refusesStart_eq_true.mpr h)]

theorem exec_start_override {s : State} (h : s.phase = .idle ∨ s.phase = .halted) (hovr : s.mains.freqOvr = true) :
    exec .start s = .next (enterRunning false (beginSession s)) := by
  change execStart s = _
  rw [execStart, refusesStart_eq_false.mpr h, if_neg Bool.false_ne_true, if_pos hovr]

theorem exec_start_measure {s : State} (h : s.phase = .idle ∨ s.phase = .halted) (hovr : s.mains.freqOvr = false) :
    exec .start s = .next (measBegin (beginSession s)) := by
  change execStart s = _
  rw [execStart, refusesStart_eq_false.mpr h, if_neg Bool.false_ne_true, hovr, if_neg Bool.false_ne_true]

/-- The window around `H_TICKS` fits its registers (R117). -/
theorem enterRunning_window (s : State) (seeded : Bool) (hdev : s.cfg.syncDev.toNat ≤ 100) :
    (enterRunning seeded s).sync.hwMin.toNat =
      s.mains.hTicks.toNat - percentOf s.mains.hTicks.toNat s.cfg.syncDev.toNat ∧
    (enterRunning seeded s).sync.hwMax.toNat =
      s.mains.hTicks.toNat + percentOf s.mains.hTicks.toNat s.cfg.syncDev.toNat := by
  have hle := percentOf_le s.mains.hTicks.toNat s.cfg.syncDev.toNat hdev
  have hticks := s.mains.hTicks.isLt
  simp only [enterRunning, BitVec.toNat_ofNat]
  exact ⟨Nat.mod_eq_of_lt (by omega), Nat.mod_eq_of_lt (by omega)⟩

/-! ## The phase and the other commands (R221) -/

/-- Only `STATUS` shows the phase (R93). -/
theorem reg_withPhase (s : State) (p : Phase) {r : Reg} (h : r ≠ .status) : ({ s with phase := p } : State).reg r = s.reg r := by
  cases r with
  | status => exact absurd rfl h
  | _ => rfl

/-- Which numbers are mapped does not depend on the phase; what they read as does for `STATUS` alone (R92, R93). -/
theorem regRead_withPhase (s : State) (p : Phase) {n : Byte} (h : n ≠ 0x10#8) :
    ({ s with phase := p } : State).regRead n = s.regRead n := by
  refine regRead_congr rfl fun r hr => reg_withPhase s p ?_
  rintro rfl
  exact h (regAt_injective hr rfl)

theorem isSome_regRead (s : State) (n : Byte) : (s.regRead n).isSome = (regAt s.params n).isSome := Option.isSome_map

/-- A level command neither asks nor writes the phase. -/
theorem onChannels_withPhase (ch : Byte) (f : Channel → Channel) (s : State) (p : Phase) :
    onChannels ch f { s with phase := p } = { onChannels ch f s with phase := p } := by
  unfold onChannels
  cases chanOperand s.params.nch ch <;> rfl

/-- Nor does `WREG`. -/
theorem exec_wreg_withPhase {n : Byte} {v : Word} {s t : State} (p : Phase) (h : exec (.wreg n v) s = .next t) :
    exec (.wreg n v) { s with phase := p } = .next { t with phase := p } := by
  cases hw : s.cfg.write s.params.levelMax n v with
  | none =>
    rw [exec_wreg_of_no_write hw] at h
    cases h
    exact exec_wreg_of_no_write hw
  | some c =>
    rw [exec_wreg_of_write hw] at h
    cases h
    exact exec_wreg_of_write hw

/-- Nor does `RREG` of another register than `STATUS`. -/
theorem exec_rreg_withPhase {n : Byte} {s t : State} (p : Phase) (hn : n ≠ 0x10#8) (h : exec (.rreg n) s = .next t) :
    exec (.rreg n) { s with phase := p } = .next { t with phase := p } := by
  have hread := regRead_withPhase s p hn
  cases hr : s.regRead n with
  | none =>
    rw [execRreg_unmapped hr] at h
    cases h
    exact execRreg_unmapped (hread.trans hr)
  | some v =>
    rw [execRreg_mapped hr] at h
    cases h
    exact execRreg_mapped (hread.trans hr)

/-- Raising another event leaves `EV_CMD_ERR` as it was (R251). -/
theorem pending_cmdErr_raise (s : State) {e : Event} (h : e ≠ .cmdErr) :
    (s.raise e).pending .cmdErr = s.pending .cmdErr := by
  simp [h.symm]

/-- An accepted `START` raises nothing (R226). -/
theorem exec_start_accepted {s : State} (h : s.phase = .idle ∨ s.phase = .halted) :
    ∃ t, exec .start s = .next t ∧ t.tele = s.tele := by
  cases hovr : s.mains.freqOvr with
  | true => exact ⟨_, exec_start_override h hovr, rfl⟩
  | false => exact ⟨_, exec_start_measure h hovr, rfl⟩

/-- An accepted `SETFREQ` raises no `EV_CMD_ERR` (R225). -/
theorem exec_setfreq_accepted {s : State} (h : s.phase = .idle ∨ s.phase = .halted) {imm : Word}
    (himm : imm = 0#32 ∨ Spec.Usable s.params imm.toNat) :
    ∃ t, exec (.setfreq imm) s = .next t ∧ t.pending .cmdErr = s.pending .cmdErr := by
  rcases himm with rfl | hus
  · exact ⟨_, exec_setfreq_zero h, pending_cmdErr_raise _ nofun⟩
  · exact ⟨_, exec_setfreq_usable h hus, pending_cmdErr_raise _ nofun⟩

end Sys2Proof.Machine

open Sys2Proof Sys2Proof.Machine

/-- Settles O46: the equations of `SETFREQ`, case by case. -/
theorem setfreqSetsOrRemovesTheOverride : Obligations.SetfreqSetsOrRemovesTheOverride := by
  intro s imm
  obtain ⟨t, ht⟩ := exec_total (.setfreq imm) s
  have hnext {u : State} (hu : exec (.setfreq imm) s = .next u) : t = u := Host.Outcome.next.inj (ht.symm.trans hu)
  refine ⟨t, ht, exec_frame ht, fun hactive => ?refused, fun hstop hzero => ?removed, fun hstop hus => ?set,
    fun hstop hne hus => ?unusable⟩
  case refused =>
    obtain rfl := hnext (exec_setfreq_refused hactive imm)
    exact ⟨rfl, rfl⟩
  case removed =>
    subst hzero
    obtain rfl := hnext (exec_setfreq_zero hstop)
    exact ⟨rfl, rfl, rfl, rfl⟩
  case set =>
    obtain rfl := hnext (exec_setfreq_usable hstop hus)
    exact ⟨rfl, rfl, setOverride_hTicks hus, rfl⟩
  case unusable =>
    obtain rfl := hnext (exec_setfreq_unusable hstop hne hus)
    exact ⟨rfl, rfl⟩

/-- Settles O47: the equations of `START`; with an override the window fits its registers. -/
theorem startBeginsASession : Obligations.StartBeginsASession := by
  refine ⟨fun s hactive => exec_start_refused hactive, fun s hstop hdev => ?_⟩
  cases hovr : s.mains.freqOvr with
  | true =>
    obtain ⟨hwMin, hwMax⟩ := enterRunning_window (beginSession s) false hdev
    exact ⟨_, _, exec_start_override hstop hovr, rfl, rfl, fun _ => ⟨rfl, rfl, rfl, hwMin, hwMax, rfl⟩, nofun⟩
  | false =>
    exact ⟨_, _, exec_start_measure hstop hovr, rfl, rfl, nofun, fun _ => ⟨rfl, rfl, rfl, rfl⟩⟩

/-- Settles O48: `START` and `SETFREQ` by their equations; every other command commutes with a change of the phase. -/
theorem phaseGatesOnlyStartAndSetfreq : Obligations.PhaseGatesOnlyStartAndSetfreq := by
  refine ⟨fun s imm hactive => ?refused, fun s imm hstop => ?accepted, fun i s t p hi h => ?others, fun s n p => ?mapped⟩
  case refused => exact ⟨_, exec_start_refused hactive, exec_setfreq_refused hactive imm, rfl⟩
  case accepted =>
    obtain ⟨t, ht, htele⟩ := exec_start_accepted hstop
    exact ⟨⟨t, ht, by rw [State.pending, htele, State.pending]⟩, exec_setfreq_accepted hstop⟩
  case others =>
    rcases hi with ⟨ch, l, rfl⟩ | ⟨ch, d, f, l, rfl⟩ | ⟨ch, d, f, l, rfl⟩ | ⟨m, rfl⟩ | ⟨m, rfl⟩ | ⟨n, v, rfl⟩ | ⟨n, rfl, hn⟩
    · cases h; exact congrArg _ (onChannels_withPhase ch _ s p)
    · cases h; exact congrArg _ (onChannels_withPhase ch _ s p)
    · cases h; exact congrArg _ (onChannels_withPhase ch _ s p)
    · cases h; rfl
    · cases h; rfl
    · exact exec_wreg_withPhase p h
    · exact exec_rreg_withPhase p hn h
  case mapped => rw [isSome_regRead, isSome_regRead]
end

section
/-! The events of an operation and the slots of a tick (60_exceptions.md R260, R262): an operation raises only the events
listed for it, and a step runs the eight slots in order. -/

namespace Sys2Proof.Machine

/-! ## Where a pending event comes from (R251) -/

theorem pending_of_raise {s : State} {e f : Event} (h : (s.raise f).pending e = true) : s.pending e = true ∨ e = f := by
  simpa using h

theorem pending_of_raiseIf {s : State} {b : Bool} {e f : Event} (h : (s.raiseIf b f).pending e = true) :
    s.pending e = true ∨ e = f := by
  rw [State.pending_raiseIf, Bool.or_eq_true, Bool.and_eq_true, decide_eq_true_iff] at h
  exact h.imp_right And.right

theorem syncLost_pending (s : State) (e : Event) : (syncLost s).pending e = (s.raise .syncLost).pending e := by
  rw [syncLost_eq]
  rfl

/-! ## What the branching operations raise (R260) -/

/-- A level command raises an event only for a bad channel (R175). -/
theorem onChannels_raises {ch : Byte} {f : Channel → Channel} {s : State} {e : Event} (hp : s.pending e ≠ true)
    (h : (onChannels ch f s).pending e = true) : e = .cmdErr ∧ ¬ Spec.LegalChannel s.params.nch ch := by
  cases hsel : chanOperand s.params.nch ch with
  | some sel =>
    rw [onChannels_legal f rfl hsel] at h
    exact absurd h hp
  | none =>
    rw [onChannels_illegal f hsel] at h
    obtain ⟨hnch, hall⟩ := chLegal_eq_false.mp (chanOperand_eq_none.mp hsel)
    exact ⟨(pending_of_raise h).resolve_left hp, not_or.mpr ⟨Nat.not_lt.mpr hnch, hall⟩⟩

/-- An edge raises an event only where it ends the pass or loses synchronisation (R116, R205). -/
theorem zcEdge_raises {s t : State} {e : Event} (h : EdgeOutcome s t) (hp : s.pending e ≠ true)
    (ht : t.pending e = true) : Spec.MayRaise s .zcEdge e := by
  cases h with
  | ignored | accepted | seeded | rejected | stored => exact absurd ht hp
  | lost el hrun =>
    rw [syncLost_pending] at ht
    exact .inl ⟨hrun, (pending_of_raise ht).resolve_left hp⟩
  | failed hmeas => exact .inr ⟨hmeas, .inr ((pending_of_raise ht).resolve_left hp)⟩
  | measured f hmeas =>
    exact .inr ⟨hmeas, .inl ((pending_of_raise (s := (storeDelta s).setFreq _ _) ht).resolve_left hp)⟩

theorem setfreq_raises {imm : Word} {s t : State} {e : Event} (h : SetfreqOutcome imm s t) (hp : s.pending e ≠ true)
    (ht : t.pending e = true) : Spec.MayRaise s (.setfreq imm) e := by
  cases h with
  | refused => exact .inr (.inr ((pending_of_raise ht).resolve_left hp))
  | removed => exact .inr (.inl ((pending_of_raise ht).resolve_left hp))
  | set => exact .inl ((pending_of_raise ht).resolve_left hp)

/-- `ENG_CALC` raises at most one event in the fade step and one in the rebuild (R180). -/
theorem engCalc_raises {s t : State} {e : Event} (h : exec .engCalc s = .next t) (hp : s.pending e ≠ true)
    (ht : t.pending e = true) : Spec.MayRaise s .engCalc e := by
  cases h
  rcases pending_of_raiseIf ht with hfades | hcfg
  · exact .inl ((pending_of_raiseIf hfades).resolve_left hp)
  · exact .inr hcfg

/-- No operation raises an event that R260 does not list for it. -/
theorem exec_raises {i : Instr} {s t : State} {e : Event} (h : exec i s = .next t) (hp : s.pending e ≠ true)
    (ht : t.pending e = true) : Spec.MayRaise s i e := by
  cases i with
  | setlvl | fade | fadea => cases h; exact onChannels_raises hp ht
  | setfreq imm => exact setfreq_raises (execSetfreq_outcome h) hp ht
  | start =>
    cases execStart_outcome h with
    | refused => exact (pending_of_raise ht).resolve_left hp
    | override | measure => exact absurd ht hp
  | ack mask =>
    cases h
    rw [State.pending_acknowledge, Bool.and_eq_true] at ht
    exact absurd ht.1 hp
  | wreg reg value =>
    rcases execWreg_outcome h with ⟨c, -, rfl⟩ | rfl
    · exact absurd ht hp
    · exact (pending_of_raise ht).resolve_left hp
  | rreg reg =>
    cases hr : s.regRead reg with
    | none => rw [execRreg_unmapped hr] at h; cases h; exact (pending_of_raise ht).resolve_left hp
    | some v => rw [execRreg_mapped hr] at h; cases h; exact absurd ht hp
  | setmode | tick | hwStart => cases h; exact absurd ht hp
  | hwToggle => rw [hwToggle_frame h] at ht; exact absurd ht hp
  | zcEdge => exact zcEdge_raises (execZcEdge_outcome h) hp ht
  | measTimeout => cases h; exact (pending_of_raise ht).resolve_left hp
  | engCalc => exact engCalc_raises h hp ht
  | engPublish => cases h; exact (pending_of_raiseIf ht).resolve_left hp

/-! ## The slots of a tick, with their conditions written out (R262) -/

/-- A slot whose due condition says `P`. -/
theorem slot_ite {due : Bool} {P : Prop} [Decidable P] {i : Instr} {s t : State} (hdue : due = true ↔ P)
    (h : slot due i s = .next t) : if P then exec i s = .next t else t = s := by
  rcases slot_eq_next.mp h with ⟨htrue, hx⟩ | ⟨hfalse, rfl⟩
  · rwa [if_pos (hdue.mp htrue)]
  · rw [if_neg (by rw [← hdue, hfalse]; decide)]

theorem edgeSeen_iff {s : State} {zc : Bool} :
    edgeSeen s zc = true ↔ s.sync.zcPrev = false ∧ normSample s.params zc = true := by
  rw [edgeSeen, Bool.and_eq_true, Bool.not_eq_true']

/-- Slot 8 leaves `RVALID` = 1 exactly after an accepted `RREG` (R38). -/
theorem commandSlot_rvalid_iff {cmd : Option CmdWord} {s t : State} (h : commandSlot cmd s = .next t) :
    t.port.rvalid = true ↔
      ∃ w r, cmd = some w ∧ decodeCmd w = .ok (.rreg r) ∧ (s.regRead r).isSome = true := by
  constructor
  · intro hvalid
    by_contra hno
    have hport : t.port = ⟨s.port.rdata, false⟩ := commandSlot_port_of_no_read h fun w r hw hdec =>
      Option.not_isSome_iff_eq_none.mp fun hmapped => hno ⟨w, r, hw, hdec, hmapped⟩
    simp [hport] at hvalid
  · rintro ⟨w, r, rfl, hdec, hmapped⟩
    obtain ⟨v, hv⟩ := Option.isSome_iff_exists.mp hmapped
    rw [commandSlot_accepted_rreg hdec hv] at h
    cases h
    rfl

/-- `IRQ` is the disjunction of the pending events (R251). -/
theorem irq_iff {s : State} : s.irq = true ↔ s.tele.evtPending ≠ 0#8 := bne_iff_ne

end Sys2Proof.Machine

open Sys2Proof Sys2Proof.Machine

/-- Settles O54: by cases on the operation. -/
theorem operationsRaiseOnlyTheirEvents : Obligations.OperationsRaiseOnlyTheirEvents := fun _ _ _ _ h hp ht =>
  exec_raises h (Bool.eq_false_iff.mp hp) ht

/-- Settles O6: the states between the slots are those of the tick, and each slot's due condition is the one written out. -/
theorem stepRunsDueOperationsInSlotOrder : Obligations.StepRunsDueOperationsInSlotOrder := by
  rintro s i rfl hrst
  obtain ⟨s7, hslots⟩ := eventSlots_total s.nextInput s.popInput
  obtain ⟨t, ht⟩ := commandSlot_total s.nextInput.cmd s7
  have hstep : step s = commandSlot s.nextInput.cmd s7 := step_eq_commandSlot hrst hslots
  obtain ⟨s1, s2, s3, s4, s5, s6, h1, h2, h3, h4, h5, h6, h7⟩ := eventSlots_eq_next.mp hslots
  refine ⟨s1, s2, s3, s4, s5, s6, s7, h1, slot_ite startDue_iff h2, slot_ite toggleDue_iff h3,
    slot_ite edgeSeen_iff h4, slot_ite timeoutDue_iff h5, slot_ite calcDue_iff h6, slot_ite publishDue_iff h7, ?command,
    t, hstep.trans ht, commandSlot_rvalid_iff ht, irq_iff⟩
  case command =>
    rw [hstep]
    cases s.nextInput.cmd with
    | none => rfl
    | some w =>
      cases hdec : decodeCmd w with
      | ok c => simpa only [hdec] using commandSlot_of_decodeCmd hdec s7
      | error e => simpa only [hdec] using commandSlot_of_decodeCmd_error hdec s7
end

section
/-! Reset, the stopped block and the running block's frequency (70_reset_and_hazards.md R280, R282, R296): a step under
`RST`, a tick in `IDLE` or `HALTED`, and `FREQ` with `H_TICKS` through the slots of a tick that begins in `RUNNING`. -/

namespace Sys2Proof.Machine

/-! ## A tick of a stopped block (R111, R282) -/

/-- Where edges are ignored, slot 4 takes the sample and does nothing else, whether or not the edge detector fires. -/
theorem edgeSlot_of_stopped {s : State} (h : s.phase = .idle ∨ s.phase = .halted) (zc : Bool) :
    edgeSlot zc s = .next (s.sampleZc zc) := by
  cases hedge : edgeSeen s zc with
  | false => exact edgeSlot_of_no_edge hedge
  | true => exact slot_of_due hedge (exec_zcEdge_stopped h)

theorem timeoutDue_of_not_measuring {s : State} (h : s.phase ≠ .measuring) : timeoutDue s = false := by
  rw [timeoutDue, beq_false_of_ne h, Bool.false_and]

/-- Slots 1 to 7 of a stopped block come down to `TICK` and the sample. -/
theorem eventSlots_of_idle_or_halted {s : State} (hok : s.StoppedOk) (hstop : s.phase = .idle ∨ s.phase = .halted)
    (i : TickInput) : eventSlots i s = .next (s.countedAndSampled i.zc) := by
  obtain ⟨hrun, hmeas⟩ := not_active_of_stopped hstop
  obtain ⟨hcmpa, hcmpb, -, heng, -, -⟩ := hok hrun
  have hedge : edgeSlot i.zc s.ticked = .next (s.countedAndSampled i.zc) := edgeSlot_of_stopped (s := s.ticked) hstop i.zc
  have htimeout : timeoutDue (s.countedAndSampled i.zc) = false := timeoutDue_of_not_measuring hmeas
  exact eventSlots_of_stopped hcmpa hcmpb heng hedge (slot_of_not_due htimeout _ _)

/-- Taking the port samples stops and starts nothing. -/
theorem stoppedOk_popInput {s : State} (h : s.StoppedOk) : s.popInput.StoppedOk := by
  simpa only [State.StoppedOk, State.popInput_phase, State.popInput_time, State.popInput_out, State.popInput_eng,
    State.popInput_sched, State.popInput_params] using h

/-! ## The frequency through a tick that begins in `RUNNING` (R296) -/

/-- Where a tick that began in `RUNNING` with the frequency registers `m` can stand before its command: still running with
`m`, or halted by a loss of synchronisation, which keeps `m` if it is an override (R116). -/
inductive RanWith (m : MainsFreq) (s : State) : Prop where
  | running : s.phase = .running → s.mains = m → RanWith m s
  | lost : s.phase = .halted → (s.mains.freqOvr = true → s.mains = m) → RanWith m s

variable {m : MainsFreq} {s t : State}

theorem RanWith.congr (h : RanWith m s) (hphase : t.phase = s.phase) (hmains : t.mains = s.mains) : RanWith m t := by
  cases h with
  | running hrun hm => exact .running (hphase.trans hrun) (hmains.trans hm)
  | lost hhalt hm => exact .lost (hphase.trans hhalt) (by rwa [hmains])

theorem RanWith.not_measuring (h : RanWith m s) : s.phase ≠ .measuring := by
  cases h with
  | running hphase | lost hphase => rw [hphase]; decide

theorem RanWith.mains_of_running (h : RanWith m s) (hrun : s.phase = .running) : s.mains = m := by
  cases h with
  | running _ hm => exact hm
  | lost hhalt => rw [hrun] at hhalt; cases hhalt

theorem RanWith.mains_of_override (h : RanWith m s) (hovr : s.mains.freqOvr = true) : s.mains = m := by
  cases h with
  | running _ hm => exact hm
  | lost _ hm => exact hm hovr

/-- An edge keeps the frequency unless it loses synchronisation, and then an override stays (R113 to R116). -/
theorem zcEdge_ranWith (hs : RanWith m s) (h : EdgeOutcome s t) : RanWith m t := by
  cases h with
  | ignored | accepted | seeded | rejected => exact hs.congr rfl rfl
  | lost el hrun =>
    have hkept := syncLost_mains (countRejected el s)
    split at hkept
    next => exact .lost rfl fun _ => hkept.trans (hs.mains_of_running hrun)
    next =>
      obtain ⟨-, -, hoff⟩ := hkept
      exact .lost rfl fun hovr => absurd (hoff.symm.trans hovr) (by decide)
  | stored hmeas | failed hmeas | measured _ hmeas => exact absurd hmeas hs.not_measuring

/-- The operations besides an edge that may write `FREQ` or `PHASE` (R24, R28). -/
def setsFreq (i : Instr) : Prop := i = .measTimeout ∨ i = .start ∨ ∃ f, i = .setfreq f

theorem exec_ranWith {i : Instr} (hi : ¬ setsFreq i) (hs : RanWith m s) (h : exec i s = .next t) : RanWith m t := by
  simp only [setsFreq, not_or, not_exists] at hi
  obtain ⟨htimeout, hstart, hsetfreq⟩ := hi
  by_cases hedge : i = .zcEdge
  · subst hedge
    exact zcEdge_ranWith hs (execZcEdge_outcome h)
  · obtain ⟨hphase, -, -, -, -, hmains, -⟩ := controlStateIsWrittenOnlyByItsWriters i s t h
    exact hs.congr (hphase hedge htimeout hstart) (hmains hedge htimeout hstart hsetfreq)

theorem slot_ranWith {due : Bool} {i : Instr} (hi : ¬ setsFreq i) (hs : RanWith m s) (h : slot due i s = .next t) :
    RanWith m t := by
  rcases slot_eq_next.mp h with ⟨-, hx⟩ | ⟨-, rfl⟩
  · exact exec_ranWith hi hs hx
  · exact hs

/-- Such a tick has no measurement to time out (R206). -/
theorem timeoutSlot_ranWith (hs : RanWith m s) (h : slot (timeoutDue s) .measTimeout s = .next t) :
    RanWith m t := by
  rw [slot_of_not_due (timeoutDue_of_not_measuring hs.not_measuring)] at h
  cases h
  exact hs

theorem eventSlots_ranWith {i : TickInput} (hs : RanWith m s) (h : eventSlots i s = .next t) : RanWith m t := by
  obtain ⟨s1, s2, s3, s4, s5, s6, h1, h2, h3, h4, h5, h6, h7⟩ := eventSlots_eq_next.mp h
  have r1 := exec_ranWith (by simp [setsFreq]) hs h1
  have r2 := slot_ranWith (by simp [setsFreq]) r1 h2
  have r3 := slot_ranWith (by simp [setsFreq]) r2 h3
  have hsampled : RanWith m (s3.sampleZc i.zc) := r3.congr rfl rfl
  have r4 := slot_ranWith (by simp [setsFreq]) hsampled h4
  have r5 := timeoutSlot_ranWith r4 h5
  have r6 := slot_ranWith (by simp [setsFreq]) r5 h6
  exact slot_ranWith (by simp [setsFreq]) r6 h7

/-- A command after which the block runs leaves the frequency: `SETFREQ` is refused or the block stays stopped, and
`START` is refused or restarts the block under the override (R221, R225, R226). -/
theorem command_mains {i : Instr} (hi : i ≠ .measTimeout) (hs : RanWith m s) (h : exec i s = .next t)
    (hrun : t.phase = .running) : t.mains = m := by
  by_cases hstart : i = .start
  · subst hstart
    cases execStart_outcome h with
    | refused => exact hs.mains_of_running hrun
    | override _ hovr => exact hs.mains_of_override hovr
    | measure => cases hrun
  by_cases hsetfreq : ∃ f, i = .setfreq f
  · obtain ⟨f, rfl⟩ := hsetfreq
    cases execSetfreq_outcome h with
    | refused => exact hs.mains_of_running hrun
    | removed hstop | set hstop => exact absurd hrun (not_active_of_stopped hstop).1
  · have hkept : RanWith m t := exec_ranWith (by simp [setsFreq, hi, hstart, not_exists.mp hsetfreq]) hs h
    exact hkept.mains_of_running hrun

theorem commandSlot_mains {cmd : Option CmdWord} (hs : RanWith m s) (h : commandSlot cmd s = .next t)
    (hrun : t.phase = .running) : t.mains = m := by
  have hclear : RanWith m { s with port.rvalid := false } := hs.congr rfl rfl
  rcases commandSlot_eq_next.mp h with ⟨-, rfl⟩ | ⟨w, e, -, -, rfl⟩ | ⟨w, i, -, hdec, hx⟩
  · exact hs.mains_of_running hrun
  · exact hs.mains_of_running hrun
  · have hi : i ≠ .measTimeout := fun htimeout =>
      decodeCmd_not_movesWait hdec (.inr (.inr (.inr htimeout)))
    exact command_mains hi hclear hx hrun

end Sys2Proof.Machine

open Sys2Proof Sys2Proof.Machine

/-- Settles O9: a clock edge under `RST` is the reset of the block, and the parameters are not among the samples taken. -/
theorem resetStepRunsNoTick : Obligations.ResetStepRunsNoTick := by
  refine ⟨rfl, fun s hrst => step_eq_next.mpr (.inl ⟨hrst, ?_⟩)⟩
  rw [State.resetBlock, State.popInput_params]

/-- Settles O12: with nothing armed, the engine idle and edges ignored, only `TICK`, the sample and slot 8 are left. -/
theorem stoppedBlockOnlyCounts : Obligations.StoppedBlockOnlyCounts := by
  intro s hok hstop hrst hcmd
  have hslots := eventSlots_of_idle_or_halted (stoppedOk_popInput hok) (by simpa using hstop) s.nextInput
  rw [step_eq_commandSlot hrst hslots, hcmd]
  simp only [commandSlot, State.countedAndSampled, State.ticked, State.sampleZc, normSample, State.popInput_time,
    State.popInput_sync, State.popInput_params, State.popInput_port]

/-- Settles O57: the slots before the command keep the frequency or lose synchronisation, and from `HALTED` only a `START`
under an override, which was kept, leads back to `RUNNING`. -/
theorem frequencyIsFixedWhileRunning : Obligations.FrequencyIsFixedWhileRunning := by
  intro s t hrst hrun h htrun
  rcases step_eq_next.mp h with ⟨hreset, -⟩ | ⟨-, u, hu, ht⟩
  · rw [hrst] at hreset
    cases hreset
  · have hbegin : RanWith s.mains s.popInput := .running (s.popInput_phase.trans hrun) s.popInput_mains
    have hmains := commandSlot_mains (eventSlots_ranWith hbegin hu) ht htrun
    exact ⟨congrArg MainsFreq.freq hmains, congrArg MainsFreq.hTicks hmains⟩
end
